-- ==== Sys2Proof/Word.lean ====
section
/-! DEFINITION. The plain data the layers share: bytes, numbers of the scaler, one entry of the
field parameter table (R24), one measurement (R38), and the four formats of the opcode table
(R113). -/

namespace Sys2Proof

/-- A byte: an unsigned integer 0..255 (R11). -/
abbrev Byte := BitVec 8

/-- A binary64 word, a value of the default instance of `Num` (R10, R210). -/
abbrev NumWord := BitVec 64

/-- A value of `Num` (R10), of any instance: a binary64 word, an exact rational, or a value of an
instance the spec does not define, told apart by a number (entry 6). -/
inductive Num where
  | f64 (w : NumWord)
  | rat (q : Rat)
  | other (v : Nat)
deriving DecidableEq, Repr, Inhabited

/-- The opaque type of `name` and `unit`, "copied and never inspected, default a byte string" (R9). -/
abbrev Tag := List Byte

/-- The 72-bit string `B` of R97. `B[k]` is bit `k` counted from the most significant end
(R12, R185), which is `B.getMsbD k`. -/
abbrev BitString := BitVec 72

/-- One entry of the field parameter table (R24). The raw range is held as integers, so that the
meanings are stated for every `RAWRANGE_W`; `Entry.fits` (WellFormed.lean) bounds it (entry 10). -/
structure Entry where
  name : Tag
  bitOffset : BitVec 7
  bitWidth : BitVec 7
  rawMin : Int
  rawMax : Int
  scaleMin : Num
  scaleMax : Num
  unit : Tag
deriving DecidableEq, Repr

/-- One measurement, "{ name, value: float, unit: string }" (R38, R205). -/
structure Measurement where
  name : Tag
  value : Num
  unit : Tag
deriving DecidableEq, Repr

/-- The four formats of the opcode table's rows (R113). A format is an encoding space of its own:
the byte 0x55 is `SEEK.SYNC` among the bytes and begins a frame among the frames. -/
inductive Fmt where
  | event
  | byte
  | frame
  | op
deriving DecidableEq, Repr

/-- Encoded inputs of one format, in order of arrival (entry 3). -/
structure Burst where
  fmt : Fmt
  bytes : List Byte
deriving DecidableEq, Repr

end Sys2Proof
end

