-- ==== Sys2Proof/Config.lean ====
section
/-! DEFINITION. What is fixed for the machine: the constants of R6 and R7, the implementation
parameters of R9 and R10, and the values the spec leaves open (constants without a body). -/

namespace Sys2Proof.Config

/-- `SYNC` (R6, R91). -/
def sync : Byte := 0x55
/-- `HEADER_LEN` (R6). -/
def headerLen : Nat := 4
/-- `BUFFER_LENGTH` (R6, R146). -/
def bufferLength : Nat := 128
/-- `RADIO_ADVANCED` (R6, R181). -/
def radioAdvanced : Byte := 0x0A
/-- `TT_VLD9` (R6, R182). -/
def ttVld9 : Byte := 0x24
/-- `LEADINGS` (R6, R183). -/
def leadings : Nat := 5
/-- `SENSOR_DATA_LENGTH` (R6, R183). -/
def sensorDataLength : Nat := 15
/-- The start value of every CRC computation (R6, R120, R291). -/
def crcInit : Byte := 0
/-- `DATA_BYTES` (R7). -/
def dataBytes : Nat := 9
/-- `BITS`, the length of the bit string (R7, D16). -/
def bits : Nat := 72
/-- `BODY_CAP`, the number of elements of `BODY` (R7, R33). -/
def bodyCap : Nat := 129
/-- Which instance of `Num` (R10) the unit is built with: the default, the spec's second instance, or
another one, told apart by a number and known only through the constants without a body below
(entry 6). -/
inductive NumSel where
  | binary64
  | rational
  | other (k : Nat)
deriving DecidableEq, Repr

/-- The implementation parameters that a claim may range over: `MAX_FIELDS` and `RAWRANGE_W` (R9),
and `Num` (R10). -/
structure Params where
  maxFields : Nat
  rawRangeW : Nat
  num : NumSel
deriving DecidableEq, Repr

/-- The spec's defaults: 16 entries, 32 bits (R9), binary64 (R10). -/
def Params.default : Params := { maxFields := 16, rawRangeW := 32, num := .binary64 }

/-- The four two-operand operations of `Num` (R10), used to tell apart the free bits of their NaNs. -/
inductive FloatOp where
  | fsub
  | fmul
  | fdiv
  | fadd
deriving DecidableEq, Repr

/-- The sign bit and the payload of a NaN that a binary64 operation yields: R210 says only
"IEEE 754", which leaves them open. A free value, a function of the operands (R10; entry 8). -/
opaque nanBits : FloatOp → NumWord → NumWord → BitVec 52

/-- `I2F` of an instance of `Num` the spec does not define (R10; entry 6). -/
opaque otherI2F : Nat → Int → Nat
/-- `fsub` of such an instance. -/
opaque otherSub : Nat → Nat → Nat → Nat
/-- `fmul` of such an instance. -/
opaque otherMul : Nat → Nat → Nat → Nat
/-- `fdiv` of such an instance. -/
opaque otherDiv : Nat → Nat → Nat → Nat
/-- `fadd` of such an instance. -/
opaque otherAdd : Nat → Nat → Nat → Nat
/-- `finite` of such an instance. -/
opaque otherFinite : Nat → Nat → Bool

/-- An operation of `Num` on operands that are not values of the instance the unit is built with: no
well-formed instruction has such operands (R10 gives each operation the carrier of its instance). A
free value (entry 6). -/
opaque mixedNum : FloatOp → Num → Num → Num

/-- The value of an empty field: "the empty string has no value in this spec" (R12, R201, N9).
A free value, a function of the operands (entry 9). -/
opaque emptyField : BitString → Nat → Nat

/-- What a field that reaches beyond `B[71]` yields: R201 states no result there ("cannot occur after a
successful `START`"). A free value, a function of the operands, of which only the low `w` bits are
used, since `raw < 2^w` (R201; entry 9). -/
opaque outsideField : BitString → Nat → Nat → Nat

end Sys2Proof.Config
end

