-- ==== Sys2Proof/Machine/Memory.lean ====
section
/-! DEFINITION. Storage arrays (R60): `HDR`, `BODY`, `T` and `P`. An array is a list of (index,
element) pairs in one canonical form: indices strictly rising. An index not listed holds no value
(R22, R23, R34), so no entry can equal what an unlisted index reads as. A byte array is a list of
`Host.Cell`. -/

namespace Sys2Proof.Machine

/-- A storage array. -/
abbrev Memory (α : Type) := List (Nat × α)

/-- The canonical form: indices strictly rising. -/
def Memory.wf {α : Type} : Memory α → Bool
  | [] => true
  | [_] => true
  | a :: b :: m => decide (a.1 < b.1) && Memory.wf (b :: m)

/-- What an index holds; `none` is "no value" (R34, R42). -/
def Memory.read {α : Type} : Memory α → Nat → Option α
  | [], _ => none
  | c :: m, i => if c.1 = i then some c.2 else Memory.read m i

/-- Writing an element keeps every other one and the canonical form. -/
def Memory.write {α : Type} : Memory α → Nat → α → Memory α
  | [], i, v => [(i, v)]
  | c :: m, i, v =>
      if i < c.1 then (i, v) :: c :: m
      else if i = c.1 then (i, v) :: m
      else c :: Memory.write m i v

end Sys2Proof.Machine
end

