-- ==== Sys2Proof/Machine/State.lean ====
section
/-! DEFINITION. The state of the unit (R20 to R33), the records it emits (R38, R251), the reasons a
step can stop, and the state after reset (R42). -/

namespace Sys2Proof.Machine

/-- `MODE` (R21). The code 3 "is never taken" and is no value here (K16). -/
inductive Mode where
  | unconfigured
  | run
  | halted
deriving DecidableEq, Repr

/-- `FSM` (R26). -/
inductive Fsm where
  | idle
  | seekSync
  | readHeader
  | readBody
deriving DecidableEq, Repr

/-- A record of the result output: the outcome and its `info` (R251). -/
inductive Result where
  /-- `NONE`: accepted and filtered out; no error (R254). -/
  | none
  /-- `MEASUREMENTS`, in table order (R111). -/
  | measurements (ms : List Measurement)
  /-- `InvalidDataCrc` (R253). -/
  | invalidDataCrc
  /-- `UnsupportedDataLength` with `PLEN` (R255). -/
  | unsupportedDataLength (plen : BitVec 16)
  /-- `FrameSyncFailure` with the value `FSM` had (R257). -/
  | frameSyncFailure (fsm : Fsm)
  /-- `CFG_OK` with `NP` (R234). -/
  | cfgOk (np : Nat)
  /-- `CrcTableMissing` with the least unwritten index (R235). -/
  | crcTableMissing (i : Nat)
  /-- `ParamMalformed` with the entry's index, or `MAX_FIELDS` on overflow (R235). -/
  | paramMalformed (k : Nat)
  /-- `DivisionByZero` with the entry's index (R235). -/
  | divisionByZero (k : Nat)
deriving DecidableEq, Repr

/-- A record of the trace output (R251, R258). -/
inductive Trace where
  /-- `HeaderCrcMismatch` with `HDR[0..3]` and `HCRC` (R144). -/
  | headerCrcMismatch (hdr : List Byte) (hcrc : Byte)
  /-- `FrameAccepted` with `PLEN`, `OLEN`, `PTYPE`, `HCRC` (R149). -/
  | frameAccepted (plen : BitVec 16) (olen ptype hcrc : Byte)
deriving DecidableEq, Repr

/-- What a stand-alone operation hands back to whoever called it (entry 5). -/
inductive PortValue where
  /-- The CRC (R120). -/
  | crc (b : Byte)
  /-- The engine's `OutOfRange`, code 0xF, "engine port only" (R121, R251). -/
  | outOfRange
  /-- `PL0`, `OL0` (R145). -/
  | lengths (pl0 : BitVec 16) (ol0 : Byte)
  /-- The packet type passed the filter (R181). -/
  | pass
  /-- The telegram type, past the filter (R182). -/
  | telegramType (b : Byte)
  /-- `actual_data_length`, past the guard (R183). -/
  | dataLength (n : Int)
  /-- The decode ended here with a `Result` (R181 to R183). -/
  | decodeEnded
  /-- The bit string (R184). -/
  | bits (b : BitString)
  /-- `raw` (R201). -/
  | raw (n : Nat)
  /-- A slope, an offset or a value (R202 to R204). -/
  | num (v : Num)
  /-- One measurement (R205). -/
  | measurement (m : Measurement)
  /-- The list of measurements (R200). -/
  | measurements (ms : List Measurement)
  /-- The verdict of `CFG.CHECK` (R235). -/
  | verdict (r : Result)
deriving DecidableEq, Repr

/-- What can hold no value (R22, R23, R34). -/
inductive Reg where
  | t
  | p
  | hdr
  | hcrc
  | plen
  | olen
  | ptype
  | body
deriving DecidableEq, Repr

/-- The reasons the model faults. No event from reset reaches one (R70, R126, R157, R206). -/
inductive Fault where
  /-- Raised by a read of a register or an element that holds no value (R34, K14, K18). Safe: the
  spec forbids the read. -/
  | noValue (r : Reg)
  /-- Raised by an access beyond a space's index range (R60, R70). Safe: the spec says that no such
  element exists. -/
  | outOfSpace (r : Reg)
  /-- Raised by `FD.SLOPE` and `FD.OFFSET` for `raw_min = raw_max` (R202, R203, R206). Safe: the
  spec asks for it. -/
  | divisionByZero
  /-- Raised by `crc8` for a range beyond the sequence (R121). Safe: the spec names it; the
  stand-alone `CRC8` turns it into its port value. -/
  | outOfRange
deriving DecidableEq, Repr

/-- The reasons the model refuses. -/
inductive Refusal where
  /-- Raised by no meaning: an instruction not modelled yet. Safe. -/
  | notModelled (mnemonic : String)
  /-- Raised by every meaning whose event is not accepted in this state, or whose operation's
  condition does not hold: "no step" (R13, R230, K15). Safe: "a model returns a refusal". -/
  | noStep
  /-- Raised by `step` when no input is offered: the unit waits (R155, K7). Safe: nothing changes. -/
  | waiting
  /-- Raised by `step` for bytes no row of the opcode table covers (K16). Safe: "refuse". -/
  | badEncoding
deriving DecidableEq, Repr

/-- The state. The first fourteen fields are the spec's (R20); the last five are the model's own. -/
structure State where
  /-- `MODE` (R21). -/
  mode : Mode
  /-- `T[0..255]` (R22). -/
  t : Memory Byte
  /-- `TW[0..255]`, `TW[i]` being bit `i` (R22). -/
  tw : BitVec 256
  /-- `P[0..MAX_FIELDS-1]` (R23, R24). -/
  p : Memory Entry
  /-- `NP` (R23). -/
  np : Nat
  /-- `POVF` (R23). -/
  povf : Bool
  /-- `FSM` (R26). -/
  fsm : Fsm
  /-- `IDX` (R27). -/
  idx : BitVec 8
  /-- `HDR[0..3]` (R28). -/
  hdr : Memory Byte
  /-- `HCRC` (R29). -/
  hcrc : Option Byte
  /-- `PLEN` (R30). -/
  plen : Option (BitVec 16)
  /-- `OLEN` (R31). -/
  olen : Option Byte
  /-- `PTYPE` (R32). -/
  ptype : Option Byte
  /-- `BODY[0..128]` (R33). -/
  body : Memory Byte
  /-- Inputs offered and not yet taken (R39, R71, entry 3). -/
  input : List Burst
  /-- Every `Result` emitted so far, in order (R38, entry 4). -/
  results : List Result
  /-- Every `Trace` emitted so far, in order (R38, R258, entry 4). -/
  traces : List Trace
  /-- What the last stand-alone operation handed back (entry 5). -/
  port : Option PortValue
  /-- `MAX_FIELDS`, `RAWRANGE_W` and `Num` (R9, R10, entry 6); no step writes it. -/
  params : Config.Params
deriving DecidableEq, Repr

/-- The state after reset (R42, R290). "No value" is absence (R34, entry 1). -/
def State.reset : State :=
  { mode := .unconfigured
    t := []
    tw := 0
    p := []
    np := 0
    povf := false
    fsm := .idle
    idx := 0
    hdr := []
    hcrc := none
    plen := none
    olen := none
    ptype := none
    body := []
    input := []
    results := []
    traces := []
    port := none
    params := Config.Params.default }

end Sys2Proof.Machine
end

