-- ==== Sys2Proof/Machine/Flags.lean ====
section
/-! DEFINITION. The only flags of the unit (R36): `TW[0..255]` and `POVF`, configuration bookkeeping,
set by configuration events, cleared by reset, read by `CFG.CHECK`. No operation sets a flag as a
side effect of computing. -/

namespace Sys2Proof.Machine

/-- `TW[i] <- 1` (R231). -/
def setWritten (tw : BitVec 256) (i : Byte) : BitVec 256 := tw ||| BitVec.twoPow 256 i.toNat

/-- The least `i` at or above `n` - counted down from `fuel` - with `TW[i] = 0`. -/
def leastUnwrittenFrom (tw : BitVec 256) : Nat → Nat → Option Nat
  | 0, _ => none
  | fuel + 1, i => if tw.getLsbD i then leastUnwrittenFrom tw fuel (i + 1) else some i

/-- The least `i` with `TW[i] = 0`, if there is one (R235 check 1). -/
def leastUnwritten (tw : BitVec 256) : Option Nat := leastUnwrittenFrom tw 256 0

end Sys2Proof.Machine
end

