-- ==== Sys2Proof/Machine/Ops.lean ====
section
/-! DEFINITION. The named updates of the state, one per write the rules make, and the one shared
operation by which an outcome is taken (R261), with the way back beside it (R262). -/

namespace Sys2Proof.Machine

/-- What a meaning answers. -/
abbrev Out := Host.Outcome State Fault Refusal

/-- A computation that may fault, as the answer of a meaning. -/
def toOut : Except Fault State → Out
  | .ok s => .next s
  | .error f => .fault f

/-- The answer to an event or operation whose condition does not hold: "no step" (R13, R230). -/
def noStep : Out := .refused .noStep

/-- `MODE <- m`. -/
def State.setMode (m : Mode) (s : State) : State := { s with mode := m }

/-- `T[i] <- v; TW[i] <- 1` (R231). -/
def State.writeCrc (i v : Byte) (s : State) : State :=
  { s with t := s.t.write i.toNat v, tw := setWritten s.tw i }

/-- `P[NP] <- e; NP <- NP + 1` (R232). -/
def State.pushEntry (e : Entry) (s : State) : State :=
  { s with p := s.p.write s.np e, np := s.np + 1 }

/-- `POVF <- 1` (R232). -/
def State.setOverflow (s : State) : State := { s with povf := true }

/-- `FSM <- f`. -/
def State.setFsm (f : Fsm) (s : State) : State := { s with fsm := f }

/-- `(FSM, IDX) <- (f, n)`, the unit's form of a jump (R13). -/
def State.setPos (f : Fsm) (n : BitVec 8) (s : State) : State := { s with fsm := f, idx := n }

/-- `IDX <- IDX + 1`. -/
def State.incIdx (s : State) : State := { s with idx := s.idx + 1 }

/-- `HDR[i] <- b` (R143). -/
def State.writeHdr (i : Nat) (b : Byte) (s : State) : State := { s with hdr := s.hdr.write i b }

/-- `HCRC <- b` (R144). -/
def State.setHcrc (b : Byte) (s : State) : State := { s with hcrc := some b }

/-- `PTYPE <- b` (R145). -/
def State.setPtype (b : Byte) (s : State) : State := { s with ptype := some b }

/-- `PLEN <- pl; OLEN <- ol` (R146). -/
def State.setLens (pl : BitVec 16) (ol : Byte) (s : State) : State :=
  { s with plen := some pl, olen := some ol }

/-- `BODY[i] <- b` (R148). -/
def State.writeBody (i : Nat) (b : Byte) (s : State) : State := { s with body := s.body.write i b }

/-- The frame data registers hold no value (R34, R236). -/
def State.dropFrame (s : State) : State :=
  { s with hdr := [], hcrc := none, plen := none, olen := none, ptype := none, body := [] }

/-- `emit Result(code, info)` (R13). -/
def State.emitResult (r : Result) (s : State) : State := { s with results := s.results ++ [r] }

/-- `emit Trace(code, info)` (R13). -/
def State.emitTrace (t : Trace) (s : State) : State := { s with traces := s.traces ++ [t] }

/-- What a stand-alone operation hands back (entry 5). -/
def State.setPort (v : PortValue) (s : State) : State := { s with port := some v }

/-- The inputs offered to the unit (entry 3). -/
def State.setInput (q : List Burst) (s : State) : State := { s with input := q }

/-- Every piece of state takes its reset value (R42, R233). What is not the unit's state stays: the
inputs not yet taken (R233), the records already emitted (R38), the parameters (R9, R10). -/
def State.toReset (s : State) : State :=
  { State.reset with
      input := s.input, results := s.results, traces := s.traces, params := s.params }

/-- TAKING AN OUTCOME (R261, the unit's "trap entry"): the record is emitted and the unit moves where
R261 says. The ends of an attempt leave it in `IDLE`; a load-time error in `HALTED`; `CFG_OK` in
`RUN` (R234). Nothing is saved. -/
def State.takeOutcome (r : Result) (s : State) : State :=
  match r with
  | .none => (s.emitResult r).setFsm .idle
  | .measurements _ => (s.emitResult r).setFsm .idle
  | .invalidDataCrc => (s.emitResult r).setFsm .idle
  | .unsupportedDataLength _ => (s.emitResult r).setFsm .idle
  | .frameSyncFailure _ => (s.emitResult r).setFsm .idle
  | .cfgOk _ => (s.emitResult r).setMode .run
  | .crcTableMissing _ => (s.emitResult r).setMode .halted
  | .paramMalformed _ => (s.emitResult r).setMode .halted
  | .divisionByZero _ => (s.emitResult r).setMode .halted

/-- RESUMING after an attempt (R262, R236): there is no return operation; the next attempt starts in
`SEEK_SYNC` with no memory of the last one. -/
def State.beginAttempt (s : State) : State := s.dropFrame.setFsm .seekSync

/-- `HeaderCrcMismatch` (R144, R261): recovered inside the attempt, "`FSM <- SEEK_SYNC`, nothing
else", and traced. -/
def State.rejectHeader (hdr : List Byte) (hcrc : Byte) (s : State) : State :=
  (s.emitTrace (.headerCrcMismatch hdr hcrc)).setFsm .seekSync

end Sys2Proof.Machine
end

