-- ==== Sys2Proof/Machine/Operands.lean ====
section
/-! DEFINITION. Reading the operands a rule names. A register or an element that holds no value cannot
be read (R34, K14, K18), and a frame data register is dead between attempts (R34, R150); an index
outside a space's range does not exist (R60). -/

namespace Sys2Proof.Machine

/-- A value that may be absent. -/
def need {α : Type} (r : Reg) : Option α → Except Fault α
  | none => .error (.noValue r)
  | some v => .ok v

/-- A frame data register: dead in `IDLE`, else what it holds (R34). -/
def State.live {α : Type} (s : State) (r : Reg) (v : Option α) : Except Fault α :=
  if s.fsm = .idle then .error (.noValue r) else need r v

/-- `HCRC` (R29). -/
def State.readHcrc (s : State) : Except Fault Byte := s.live .hcrc s.hcrc

/-- `PLEN` (R30). -/
def State.readPlen (s : State) : Except Fault (BitVec 16) := s.live .plen s.plen

/-- `OLEN` (R31). -/
def State.readOlen (s : State) : Except Fault Byte := s.live .olen s.olen

/-- `PTYPE` (R32). -/
def State.readPtype (s : State) : Except Fault Byte := s.live .ptype s.ptype

/-- `HDR[i]` (R28). -/
def State.readHdr (s : State) (i : Nat) : Except Fault Byte :=
  if i < Config.headerLen then s.live .hdr (s.hdr.read i) else .error (.outOfSpace .hdr)

/-- `BODY[i]` (R33). -/
def State.readBody (s : State) (i : Nat) : Except Fault Byte :=
  if i < Config.bodyCap then s.live .body (s.body.read i) else .error (.outOfSpace .body)

/-- `P[k]` (R23). -/
def State.readEntry (s : State) (k : Nat) : Except Fault Entry :=
  if k < s.params.maxFields then need .p (s.p.read k) else .error (.outOfSpace .p)

/-- `n` elements from index `i` on, in ascending order. -/
def readRange {α : Type} (read : Nat → Except Fault α) : Nat → Nat → Except Fault (List α)
  | _, 0 => .ok []
  | i, n + 1 => do
      let x ← read i
      let xs ← readRange read (i + 1) n
      pure (x :: xs)

/-- `HDR[0..3]` (R28). -/
def State.readHeader (s : State) : Except Fault (List Byte) :=
  readRange s.readHdr 0 Config.headerLen

/-- `L = PLEN + OLEN` (R37). -/
def State.bodyLen (s : State) : Except Fault Nat := do
  let pl ← s.readPlen
  let ol ← s.readOlen
  pure (pl.toNat + ol.toNat)

/-- Storing into `BODY` (R148): an index beyond 128 does not exist (R60). -/
def State.storeBody (i : Nat) (b : Byte) (s : State) : Except Fault State :=
  if i < Config.bodyCap then .ok (s.writeBody i b) else .error (.outOfSpace .body)

end Sys2Proof.Machine
end

