-- ==== Sys2Proof/Machine/Crc.lean ====
section
/-! DEFINITION. The CRC-8 Engine (40_crc8.md). -/

namespace Sys2Proof.Machine

/-- `T[i]`; an entry never written holds no value (R22, K18). -/
def tableEntry (t : Memory Byte) (i : Byte) : Except Fault Byte := need .t (t.read i.toNat)

/-- The loop of R120 from a running value: `crc <- T[crc XOR b]` for each byte in order. -/
def crcFold (t : Memory Byte) : Byte → List Byte → Except Fault Byte
  | crc, [] => .ok crc
  | crc, b :: bs => do
      let c ← tableEntry t (crc ^^^ b)
      crcFold t c bs

/-- `crc8(T, data, offset, count)` (R120); `OutOfRange` when the range leaves the sequence (R121). -/
def crc8 (t : Memory Byte) (data : List Byte) (offset count : Nat) : Except Fault Byte :=
  if offset + count > data.length then .error .outOfRange
  else crcFold t Config.crcInit ((data.drop offset).take count)

/-- `CRC8` alone (R120): no state is written; the CRC, or `OutOfRange` (R121, R251), is on the
engine port. -/
def execCrc8 (offset count : Nat) (data : List Byte) (s : State) : Out :=
  match crc8 s.t data offset count with
  | .ok c => .next (s.setPort (.crc c))
  | .error .outOfRange => .next (s.setPort .outOfRange)
  | .error f => .fault f

end Sys2Proof.Machine
end

