-- ==== Sys2Proof/Machine/Lengths.lean ====
section
/-! DEFINITION. The length arithmetic of a header: assembly (R98, R145) and the clamping policy
(R146), on naturals, so that nothing wraps (R156). -/

namespace Sys2Proof.Machine

/-- `PL0 = (hi << 8) | lo` (R62, R98, R145). -/
def assembleLength (hi lo : Byte) : BitVec 16 := hi ++ lo

/-- `PLEN` after the clamping policy (R146). -/
def clampPlen (pl0 : Nat) : Nat :=
  if pl0 > Config.bufferLength then Config.bufferLength else pl0

/-- `OLEN` after the clamping policy (R146). -/
def clampOlen (pl0 ol0 : Nat) : Nat :=
  if pl0 > Config.bufferLength then 0
  else if pl0 + ol0 > Config.bufferLength then Config.bufferLength - pl0
  else ol0

/-- `PLEN + OLEN`: how many body bytes the unit takes before the data CRC byte (R94, R95). -/
def bodyLength (pl0 ol0 : Nat) : Nat := clampPlen pl0 + clampOlen pl0 ol0

end Sys2Proof.Machine
end

