-- ==== Sys2Proof/Machine/Num.lean ====
section
/-! DEFINITION. The numeric type `Num` of the scaler (R10): the record of its operations, the default
instance IEEE 754 binary64 with round to nearest, ties to even (R210), and exact rationals, the
spec's second instance. The binary64 operations compute exactly on integers and round once. -/

namespace Sys2Proof.Machine

/-- The five operations and the predicate of `Num` (R10). -/
structure NumOps (α : Type) where
  i2f : Int → α
  fsub : α → α → α
  fmul : α → α → α
  fdiv : α → α → α
  fadd : α → α → α
  finite : α → Bool

/-- What a binary64 word stands for: a NaN, an infinity, or `(-1)^neg * m * 2^e`. -/
inductive F64 where
  | nan
  | inf (neg : Bool)
  | fin (neg : Bool) (m : Nat) (e : Int)
deriving DecidableEq, Repr

/-- The biased exponent, 11 bits (K23). -/
def f64Exp (x : NumWord) : Nat := (x.extractLsb' 52 11).toNat

/-- The fraction, 52 bits (K23). -/
def f64Frac (x : NumWord) : Nat := (x.extractLsb' 0 52).toNat

/-- Reading a binary64 word. -/
def F64.unpack (x : NumWord) : F64 :=
  if f64Exp x = 2047 then (if f64Frac x = 0 then .inf x.msb else .nan)
  else if f64Exp x = 0 then .fin x.msb (f64Frac x) (-1074)
  else .fin x.msb (2 ^ 52 + f64Frac x) ((f64Exp x : Int) - 1075)

/-- The word of a sign and a magnitude (biased exponent and fraction as one number). -/
def f64Word (neg : Bool) (mag : Nat) : NumWord :=
  BitVec.ofNat 64 (if neg then 2 ^ 63 + mag else mag)

/-- The magnitude of an infinity. -/
def f64InfMag : Nat := 2047 * 2 ^ 52

/-- A NaN with the given free sign and payload; the quiet bit is set. PRESUMED of IEEE 754
(entry 8). -/
def f64Nan (free : BitVec 52) : NumWord :=
  f64Word free.msb (f64InfMag + 2 ^ 51 + (free.extractLsb' 0 51).toNat)

/-- Division by a power of two, to nearest, ties to even. -/
def roundShift (m shift : Nat) : Nat :=
  let q := m / 2 ^ shift
  let r := m % 2 ^ shift
  if 2 * r > 2 ^ shift ∨ (2 * r = 2 ^ shift ∧ q % 2 = 1) then q + 1 else q

/-- The binary64 word nearest to `(-1)^neg * m * 2^e` (R210): the unit of the last place is
`2^u` with `u` at least -1074, and a magnitude beyond the largest finite one is an infinity. -/
def f64Round (neg : Bool) (m : Nat) (e : Int) : NumWord :=
  if m = 0 then f64Word neg 0
  else
    let u : Int := max (e + (Nat.log2 m : Int) - 52) (-1074)
    let n := if u ≤ e then m * 2 ^ (e - u).toNat else roundShift m (u - e).toNat
    let mag := (u + 1074).toNat * 2 ^ 52 + n
    f64Word neg (if f64InfMag ≤ mag then f64InfMag else mag)

/-- The signed integer of a sign and a magnitude. -/
def signed (neg : Bool) (m : Nat) : Int := if neg then -(m : Int) else m

/-- `I2F` (R210). -/
def f64OfInt (n : Int) : NumWord := f64Round (decide (n < 0)) n.natAbs 0

/-- The exact sum of two finite values, rounded. A sum that is exactly zero is negative only when
both operands are. -/
def f64AddFin (s1 : Bool) (m1 : Nat) (e1 : Int) (s2 : Bool) (m2 : Nat) (e2 : Int) : NumWord :=
  let e := min e1 e2
  let sum := signed s1 (m1 * 2 ^ (e1 - e).toNat) + signed s2 (m2 * 2 ^ (e2 - e).toNat)
  if sum = 0 then f64Word (s1 && s2) 0 else f64Round (decide (sum < 0)) sum.natAbs e

/-- `fadd` on unpacked operands; `nan` is the word a NaN result takes. -/
def f64AddCore (nan : NumWord) : F64 → F64 → NumWord
  | .nan, _ => nan
  | _, .nan => nan
  | .inf s1, .inf s2 => if s1 = s2 then f64Word s1 f64InfMag else nan
  | .inf s1, .fin _ _ _ => f64Word s1 f64InfMag
  | .fin _ _ _, .inf s2 => f64Word s2 f64InfMag
  | .fin s1 m1 e1, .fin s2 m2 e2 => f64AddFin s1 m1 e1 s2 m2 e2

/-- The negative of an unpacked value. -/
def F64.neg : F64 → F64
  | .nan => .nan
  | .inf s => .inf (!s)
  | .fin s m e => .fin (!s) m e

/-- `fmul` on unpacked operands. -/
def f64MulCore (nan : NumWord) : F64 → F64 → NumWord
  | .nan, _ => nan
  | _, .nan => nan
  | .inf s1, .inf s2 => f64Word (s1 != s2) f64InfMag
  | .inf s1, .fin s2 m2 _ => if m2 = 0 then nan else f64Word (s1 != s2) f64InfMag
  | .fin s1 m1 _, .inf s2 => if m1 = 0 then nan else f64Word (s1 != s2) f64InfMag
  | .fin s1 m1 e1, .fin s2 m2 e2 => f64Round (s1 != s2) (m1 * m2) (e1 + e2)

/-- The quotient of two positive magnitudes with 120 more bits and a last bit that says whether
anything is left: enough for one correct rounding. -/
def f64Quotient (m1 m2 : Nat) : Nat :=
  let n := m1 * 2 ^ 120
  2 * (n / m2) + (if n % m2 = 0 then 0 else 1)

/-- `fdiv` on unpacked operands. -/
def f64DivCore (nan : NumWord) : F64 → F64 → NumWord
  | .nan, _ => nan
  | _, .nan => nan
  | .inf _, .inf _ => nan
  | .inf s1, .fin s2 _ _ => f64Word (s1 != s2) f64InfMag
  | .fin s1 _ _, .inf s2 => f64Word (s1 != s2) 0
  | .fin s1 m1 e1, .fin s2 m2 e2 =>
      if m2 = 0 then (if m1 = 0 then nan else f64Word (s1 != s2) f64InfMag)
      else if m1 = 0 then f64Word (s1 != s2) 0
      else f64Round (s1 != s2) (f64Quotient m1 m2) (e1 - e2 - 121)

/-- `fadd` (R210). -/
def f64Add (x y : NumWord) : NumWord :=
  f64AddCore (f64Nan (Config.nanBits .fadd x y)) (F64.unpack x) (F64.unpack y)

/-- `fsub` (R210). -/
def f64Sub (x y : NumWord) : NumWord :=
  f64AddCore (f64Nan (Config.nanBits .fsub x y)) (F64.unpack x) (F64.unpack y).neg

/-- `fmul` (R210). -/
def f64Mul (x y : NumWord) : NumWord :=
  f64MulCore (f64Nan (Config.nanBits .fmul x y)) (F64.unpack x) (F64.unpack y)

/-- `fdiv` (R210). -/
def f64Div (x y : NumWord) : NumWord :=
  f64DivCore (f64Nan (Config.nanBits .fdiv x y)) (F64.unpack x) (F64.unpack y)

/-- `finite`: neither an infinity nor a NaN (R210). -/
def f64Finite (x : NumWord) : Bool := decide (f64Exp x ≠ 2047)

/-- The default instance of `Num` (R210). -/
def binary64 : NumOps NumWord :=
  { i2f := f64OfInt, fsub := f64Sub, fmul := f64Mul, fdiv := f64Div, fadd := f64Add,
    finite := f64Finite }

/-- Exact rational arithmetic, the second instance of R10; it serves the closed forms of R208. -/
def rational : NumOps Rat :=
  { i2f := fun n => (n : Rat), fsub := fun a b => a - b, fmul := fun a b => a * b,
    fdiv := fun a b => a / b, fadd := fun a b => a + b, finite := fun _ => true }

/-- An instance of `Num` the spec does not define, known by its number only (R10, entry 6). -/
def otherOps (k : Nat) : NumOps Nat :=
  { i2f := Config.otherI2F k, fsub := Config.otherSub k, fmul := Config.otherMul k,
    fdiv := Config.otherDiv k, fadd := Config.otherAdd k, finite := Config.otherFinite k }

/-- The binary64 word of a value, if it is one. -/
def asF64 : Num → Option NumWord
  | .f64 w => some w
  | .rat _ => none
  | .other _ => none

/-- The rational of a value, if it is one. -/
def asRat : Num → Option Rat
  | .f64 _ => none
  | .rat q => some q
  | .other _ => none

/-- The value of another instance, if it is one. -/
def asOther : Num → Option Nat
  | .f64 _ => none
  | .rat _ => none
  | .other v => some v

/-- An operation on a carrier as an operation on `Num`. Operands of another carrier have no result
(a free value, entry 6). -/
def onCarrier {α : Type} (op : Config.FloatOp) (inj : α → Num) (proj : Num → Option α)
    (f : α → α → α) (x y : Num) : Num :=
  match proj x, proj y with
  | some a, some b => inj (f a b)
  | some _, none => Config.mixedNum op x y
  | none, some _ => Config.mixedNum op x y
  | none, none => Config.mixedNum op x y

/-- The record of an instance, whatever its carrier, as operations on `Num` (R10). A value of another
carrier is not finite, so that `START` refuses it (R235). -/
def NumOps.onNum {α : Type} (n : NumOps α) (inj : α → Num) (proj : Num → Option α) : NumOps Num :=
  { i2f := fun k => inj (n.i2f k)
    fsub := onCarrier .fsub inj proj n.fsub
    fmul := onCarrier .fmul inj proj n.fmul
    fdiv := onCarrier .fdiv inj proj n.fdiv
    fadd := onCarrier .fadd inj proj n.fadd
    finite := fun x =>
      match proj x with
      | some a => n.finite a
      | none => false }

/-- The instance of `Num` a unit is built with (R10, entry 6). -/
def numOps : Config.NumSel → NumOps Num
  | .binary64 => binary64.onNum .f64 asF64
  | .rational => rational.onNum .rat asRat
  | .other k => (otherOps k).onNum .other asOther

end Sys2Proof.Machine
end

