-- ==== Sys2Proof/Machine/FieldScale.lean ====
section
/-! DEFINITION. The Field Decoder and Linear Scaler (43_field_scale.md). The formulas are stated over
any instance of `Num` (R10) and keep the operation tree of R211. -/

namespace Sys2Proof.Machine

/-- `B[off .. off+w)` as an unsigned number, first bit most significant (R12, R201), taken from the
last bit of the field. -/
def fieldValue (b : BitString) (off : Nat) : Nat → Nat
  | 0 => 0
  | w + 1 => 2 * fieldValue b off w + (b.getMsbD (off + w)).toNat

/-- `FD.EXTRACT` (R201). The spec states no value for an empty field (R12) and none for one that
reaches beyond `B[71]` (R60, R201); both are free values (DESIGN CHOICE, entry 9), the second below
`2^w` as R201 has it of every `raw`. -/
def fdExtract (b : BitString) (off w : Nat) : Nat :=
  if w = 0 then Config.emptyField b off
  else if off + w > Config.bits then Config.outsideField b off w % 2 ^ w
  else fieldValue b off w

/-- `slope = (scale_min - scale_max) / (raw_min - raw_max)` (R202). -/
def slopeOf {α : Type} (n : NumOps α) (rawMin rawMax : Int) (scaleMin scaleMax : α) : α :=
  n.fdiv (n.fsub scaleMin scaleMax) (n.i2f (rawMin - rawMax))

/-- `offset = raw_min * scale_max - (raw_max * scale_min) / (raw_min - raw_max)`, only the second
product divided (R203, K1). -/
def offsetOf {α : Type} (n : NumOps α) (rawMin rawMax : Int) (scaleMin scaleMax : α) : α :=
  n.fsub (n.fmul (n.i2f rawMin) scaleMax)
    (n.fdiv (n.fmul (n.i2f rawMax) scaleMin) (n.i2f (rawMin - rawMax)))

/-- `value = raw * slope + offset` (R204); no clamping (R209). -/
def scaleOf {α : Type} (n : NumOps α) (raw : Nat) (slope offset : α) : α :=
  n.fadd (n.fmul (n.i2f (raw : Int)) slope) offset

/-- `FD.SLOPE(p)` (R202); `DivisionByZero` when `d = 0` (R206). -/
def fdSlope (n : NumOps Num) (p : Entry) : Except Fault Num :=
  if p.rawMin - p.rawMax = 0 then .error .divisionByZero
  else .ok (slopeOf n p.rawMin p.rawMax p.scaleMin p.scaleMax)

/-- `FD.OFFSET(p)` (R203); `DivisionByZero` when `d = 0` (R206). -/
def fdOffset (n : NumOps Num) (p : Entry) : Except Fault Num :=
  if p.rawMin - p.rawMax = 0 then .error .divisionByZero
  else .ok (offsetOf n p.rawMin p.rawMax p.scaleMin p.scaleMax)

/-- `FD.EMIT(p, value)` (R205). -/
def fdEmit (p : Entry) (value : Num) : Measurement :=
  { name := p.name, value := value, unit := p.unit }

/-- One turn of the loop of R200. -/
def fdField (n : NumOps Num) (b : BitString) (p : Entry) : Except Fault Measurement := do
  let raw := fdExtract b p.bitOffset.toNat p.bitWidth.toNat
  let slope ← fdSlope n p
  let offset ← fdOffset n p
  pure (fdEmit p (scaleOf n raw slope offset))

/-- `FD.FIELDS(B, P)` (R200): every entry `P[0 .. NP)` in table order. -/
def fdFields (b : BitString) (s : State) : Except Fault (List Measurement) :=
  readRange (fun k => do
    let p ← s.readEntry k
    fdField (numOps s.params.num) b p) 0 s.np

/-- `FD.FIELDS` alone (R200): no state is written; the list is on the port. -/
def execFdFields (b : BitString) (s : State) : Out :=
  toOut (do
    let ms ← fdFields b s
    pure (s.setPort (.measurements ms)))

/-- `FD.EXTRACT` alone (R201): `raw` is on the port. -/
def execFdExtract (b : BitString) (off w : BitVec 7) (s : State) : Out :=
  .next (s.setPort (.raw (fdExtract b off.toNat w.toNat)))

/-- `FD.SLOPE` alone (R202): the slope is on the port. -/
def execFdSlope (p : Entry) (s : State) : Out :=
  toOut (do
    let v ← fdSlope (numOps s.params.num) p
    pure (s.setPort (.num v)))

/-- `FD.OFFSET` alone (R203): the offset is on the port. -/
def execFdOffset (p : Entry) (s : State) : Out :=
  toOut (do
    let v ← fdOffset (numOps s.params.num) p
    pure (s.setPort (.num v)))

/-- `FD.SCALE` alone (R204): the value is on the port. -/
def execFdScale (raw : BitVec 72) (slope offset : Num) (s : State) : Out :=
  .next (s.setPort (.num (scaleOf (numOps s.params.num) raw.toNat slope offset)))

/-- `FD.EMIT` alone (R205): the measurement is on the port. -/
def execFdEmit (p : Entry) (value : Num) (s : State) : Out :=
  .next (s.setPort (.measurement (fdEmit p value)))

end Sys2Proof.Machine
end

