-- ==== Sys2Proof/Machine/Telegram.lean ====
section
/-! DEFINITION. The Telegram Decoder (42_telegram_decode.md). It writes no register (R180). -/

namespace Sys2Proof.Machine

/-- What a test of the decoder says: go on with a value, or end the decode with a `Result`. -/
inductive Verdict (α : Type) where
  | go (v : α)
  | ends (r : Result)
deriving DecidableEq, Repr

/-- `TG.PTYPE` (R181). -/
def tgPtype (s : State) : Except Fault (Verdict Unit) := do
  let pt ← s.readPtype
  pure (if pt = Config.radioAdvanced then .go () else .ends .none)

/-- `TG.TTYPE` (R182): the telegram type is `BODY[0]` whatever `PLEN` is (C10, D7). -/
def tgTtype (s : State) : Except Fault (Verdict Byte) := do
  let tt ← s.readBody 0
  pure (if tt = Config.ttVld9 then .go tt else .ends .none)

/-- `TG.LGUARD` (R183): `actual_data_length` is a mathematical integer, and past the guard it is 9. -/
def tgLguard (s : State) : Except Fault (Verdict Int) := do
  let pl ← s.readPlen
  let actual : Int := (pl.toNat : Int) - (Config.leadings : Int) - 1
  pure (if pl.toNat = Config.sensorDataLength then .go actual else .ends (.unsupportedDataLength pl))

/-- The bits of bytes, most significant bit first, the first byte leftmost (R63, R64, R97, R184). -/
def bitConcat (bs : List Byte) : BitString :=
  bs.foldl (fun v b => (v <<< 8) ||| b.zeroExtend 72) 0

/-- `TG.BITCAT(BODY, 5, 9)` (R184): the nine bytes `BODY[5..13]` as `B`. -/
def tgBitcat (s : State) : Except Fault BitString := do
  let bs ← readRange s.readBody Config.leadings Config.dataBytes
  pure (bitConcat bs)

/-- `TG.DECODE` (R180): the tests in the order of R260, then the fields; one `Result`. -/
def tgDecode (s : State) : Except Fault Result := do
  match ← tgPtype s with
  | .ends r => pure r
  | .go _ =>
    match ← tgTtype s with
    | .ends r => pure r
    | .go _ =>
      match ← tgLguard s with
      | .ends r => pure r
      | .go _ =>
        let b ← tgBitcat s
        let ms ← fdFields b s
        pure (.measurements ms)

/-- A test of the decoder run alone: its value is on the port, or its `Result` is emitted and the
decode has ended. -/
def runTest {α : Type} (v : Except Fault (Verdict α)) (port : α → PortValue) (s : State) :
    Except Fault State := do
  match ← v with
  | .go x => pure (s.setPort (port x))
  | .ends r => pure ((s.emitResult r).setPort .decodeEnded)

/-- `TG.DECODE` alone (R180): "Exactly one `Result` is emitted", no state is written. -/
def execTgDecode (s : State) : Out :=
  toOut (do
    let r ← tgDecode s
    pure (s.emitResult r))

/-- `TG.PTYPE` alone (R181). -/
def execTgPtype (s : State) : Out := toOut (runTest (tgPtype s) (fun _ => .pass) s)

/-- `TG.TTYPE` alone (R182). -/
def execTgTtype (s : State) : Out := toOut (runTest (tgTtype s) .telegramType s)

/-- `TG.LGUARD` alone (R183). -/
def execTgLguard (s : State) : Out := toOut (runTest (tgLguard s) .dataLength s)

/-- `TG.BITCAT` alone (R184): `B` is on the port. -/
def execTgBitcat (s : State) : Out :=
  toOut (do
    let b ← tgBitcat s
    pure (s.setPort (.bits b)))

end Sys2Proof.Machine
end

