-- ==== Sys2Proof/Machine/FrameSync.lean ====
section
/-! DEFINITION. The Frame Synchronizer (41_frame_sync.md). Each operation is a definition of its own;
those that R144 and R148 run inside one step are called there. An operation run alone answers "no
step" where its rule's *Condition* does not hold. -/

namespace Sys2Proof.Machine

/-- `SEEK.SKIP` (R141): "No register changes; the byte is consumed and discarded". -/
def seekSkip (s : State) : State := s

/-- `SEEK.SYNC` (R142). -/
def seekSync (s : State) : State := s.setPos .readHeader 0

/-- `HDR.STORE(b)` (R143). -/
def hdrStore (b : Byte) (s : State) : State := (s.writeHdr s.idx.toNat b).incIdx

/-- The CRC of the header, `crc8(T, HDR, 0, 4)` (R126, R144). -/
def headerCrc (s : State) : Except Fault Byte := do
  let h ← s.readHeader
  crc8 s.t h 0 Config.headerLen

/-- `HDR.FIELDS` (R145): `PTYPE` is written; `PL0` and `OL0` are handed on. -/
def hdrFields (s : State) : Except Fault (State × BitVec 16 × Byte) := do
  let hi ← s.readHdr 0
  let lo ← s.readHdr 1
  let ol0 ← s.readHdr 2
  let pt ← s.readHdr 3
  pure (s.setPtype pt, assembleLength hi lo, ol0)

/-- `LEN.CLAMP` (R146). -/
def lenClamp (pl0 : BitVec 16) (ol0 : Byte) (s : State) : State :=
  s.setLens (BitVec.ofNat 16 (clampPlen pl0.toNat)) (BitVec.ofNat 8 (clampOlen pl0.toNat ol0.toNat))

/-- `BODY.ENTER` (R147). -/
def bodyEnter (s : State) : State := s.setPos .readBody 0

/-- `HDR.CHECK(b)` (R144), in the order of R151. -/
def hdrCheck (b : Byte) (s : State) : Except Fault State := do
  let s := s.setHcrc b
  let c ← headerCrc s
  if c = b then do
    let (s, pl0, ol0) ← hdrFields s
    pure (bodyEnter (lenClamp pl0 ol0 s))
  else do
    let h ← s.readHeader
    pure (s.rejectHeader h b)

/-- `BODY.CHECK` (R149): the data CRC decides between the decode and `InvalidDataCrc`. -/
def bodyCheck (s : State) : Except Fault State := do
  let l ← s.bodyLen
  let dataCrc ← s.readBody l
  let body ← readRange s.readBody 0 (l + 1)
  let c ← crc8 s.t body 0 l
  if c = dataCrc then do
    let pl ← s.readPlen
    let ol ← s.readOlen
    let pt ← s.readPtype
    let hc ← s.readHcrc
    let s := s.emitTrace (.frameAccepted pl ol pt hc)
    let r ← tgDecode s
    pure (s.emitResult r)
  else pure (s.emitResult .invalidDataCrc)

/-- `FRAME.END` (R150). -/
def frameEnd (s : State) : State := s.setFsm .idle

/-- `BODY.STORE(b)` (R148). -/
def bodyStore (b : Byte) (s : State) : Except Fault State := do
  let l ← s.bodyLen
  let s ← s.storeBody s.idx.toNat b
  if s.idx.toNat < l then pure s.incIdx
  else do
    let s ← bodyCheck s
    pure (frameEnd s)

/-- The dispatch of R140 on `FSM` and `IDX`, for an accepted byte. In `IDLE` no byte is accepted and
nothing changes (R230). -/
def byteStep (b : Byte) (s : State) : Except Fault State :=
  match s.fsm with
  | .idle => .ok s
  | .seekSync => if b ≠ Config.sync then .ok (seekSkip s) else .ok (seekSync s)
  | .readHeader => if s.idx.toNat < 4 then .ok (hdrStore b s) else hdrCheck b s
  | .readBody => bodyStore b s

/-- An attempt is in progress (R230). -/
def State.inAttempt (s : State) : Bool := decide (s.mode = .run) && decide (s.fsm ≠ .idle)

/-- `BYTE(b)` (R140). -/
def execByte (b : Byte) (s : State) : Out :=
  if s.inAttempt then toOut (byteStep b s) else noStep

/-- `SEEK.SYNC` as a row of its own (R142). -/
def execSeekSync (s : State) : Out :=
  if s.fsm = .seekSync then .next (seekSync s) else noStep

/-- `SEEK.SKIP` as a row of its own (R141). -/
def execSeekSkip (b : Byte) (s : State) : Out :=
  if s.fsm = .seekSync ∧ b ≠ Config.sync then .next (seekSkip s) else noStep

/-- `HDR.STORE` alone: `FSM = READ_HEADER` and `IDX < 4` (R143). -/
def execHdrStore (b : Byte) (s : State) : Out :=
  if s.fsm = .readHeader ∧ s.idx.toNat < 4 then .next (hdrStore b s) else noStep

/-- `HDR.CHECK` alone: `FSM = READ_HEADER` and `IDX = 4` (R144). -/
def execHdrCheck (b : Byte) (s : State) : Out :=
  if s.fsm = .readHeader ∧ s.idx.toNat = 4 then toOut (hdrCheck b s) else noStep

/-- "Inside an accepting `HDR.CHECK`" (R145): `FSM = READ_HEADER`, `IDX = 4`, and `HCRC` holds the
CRC of `HDR`. Which `HCRC` counts for an operation run alone is the model's (entry 5, DESIGN CHOICE):
any value the register holds, so that one left by a rejected round of the same attempt, which R144
calls dead, counts too where it equals the CRC of this round's `HDR`. -/
def State.headerAccepted (s : State) : Bool :=
  decide (s.fsm = .readHeader) && decide (s.idx.toNat = 4) &&
    match headerCrc s with
    | .ok c => decide (s.hcrc = some c)
    | .error _ => false

/-- `HDR.FIELDS` alone, inside an accepting `HDR.CHECK` (R145). -/
def execHdrFields (s : State) : Out :=
  if s.headerAccepted then
    toOut (do
      let (s, pl0, ol0) ← hdrFields s
      pure (s.setPort (.lengths pl0 ol0)))
  else noStep

/-- `LEN.CLAMP` alone, after `HDR.FIELDS` (R146): the header is accepted and `PTYPE` is written. -/
def execLenClamp (pl0 : BitVec 16) (ol0 : Byte) (s : State) : Out :=
  if s.headerAccepted ∧ s.ptype.isSome then .next (lenClamp pl0 ol0 s) else noStep

/-- `BODY.ENTER` alone, after `LEN.CLAMP` (R147): `PTYPE`, `PLEN`, `OLEN` are written too. -/
def execBodyEnter (s : State) : Out :=
  if s.headerAccepted ∧ s.ptype.isSome ∧ s.plen.isSome ∧ s.olen.isSome then .next (bodyEnter s)
  else noStep

/-- `BODY.STORE` alone: `FSM = READ_BODY` (R148). -/
def execBodyStore (b : Byte) (s : State) : Out :=
  if s.fsm = .readBody then toOut (bodyStore b s) else noStep

/-- "The data CRC byte has just been stored" (R149): `FSM = READ_BODY`, `IDX = PLEN + OLEN`, and
`BODY[IDX]` holds a value. -/
def State.bodyComplete (s : State) : Bool :=
  decide (s.fsm = .readBody) && (s.body.read s.idx.toNat).isSome &&
    match s.bodyLen with
    | .ok l => decide (s.idx.toNat = l)
    | .error _ => false

/-- `BODY.CHECK` alone (R149). -/
def execBodyCheck (s : State) : Out :=
  if s.bodyComplete then toOut (bodyCheck s) else noStep

/-- `FRAME.END` alone, after `BODY.CHECK` (R150). -/
def execFrameEnd (s : State) : Out :=
  if s.bodyComplete then .next (frameEnd s) else noStep

end Sys2Proof.Machine
end

