-- ==== Sys2Proof/Machine/Control.lean ====
section
/-! DEFINITION. Configuration and control events (44_config_control.md), each accepted where R230 says
and nowhere else. -/

namespace Sys2Proof.Machine

/-- The load-time checks of one entry, in order (R235 check 3); `none` is a pass. -/
def entryFault (n : NumOps Num) (k : Nat) (p : Entry) : Option Result :=
  if p.bitWidth.toNat = 0 then some (.paramMalformed k)
  else if p.bitOffset.toNat + p.bitWidth.toNat > Config.bits then some (.paramMalformed k)
  else if !(n.finite p.scaleMin) || !(n.finite p.scaleMax) then some (.paramMalformed k)
  else if p.rawMin = p.rawMax then some (.divisionByZero k)
  else none

/-- Check 3 of R235 over the entries from `k` on, `n` of them: the first failure decides. -/
def checkEntries (s : State) : Nat → Nat → Except Fault (Option Result)
  | _, 0 => .ok none
  | k, n + 1 => do
      let p ← s.readEntry k
      match entryFault (numOps s.params.num) k p with
      | some r => pure (some r)
      | none => checkEntries s (k + 1) n

/-- `CFG.CHECK` (R235): the CRC table, the overflow flag, the entries. -/
def cfgCheck (s : State) : Except Fault Result :=
  match leastUnwritten s.tw with
  | some i => .ok (.crcTableMissing i)
  | none =>
    if s.povf then .ok (.paramMalformed s.params.maxFields)
    else do
      match ← checkEntries s 0 s.np with
      | some r => pure r
      | none => pure (.cfgOk s.np)

/-- `RESET` (R233): accepted in every state, emits nothing. -/
def execReset (s : State) : Out := .next s.toReset

/-- `CFG_CRC_WRITE(i, v)` (R231). -/
def execCfgCrcWrite (i v : Byte) (s : State) : Out :=
  if s.mode = .unconfigured then .next (s.writeCrc i v) else noStep

/-- `CFG_PARAM_PUSH(e)` (R232). -/
def execCfgParamPush (e : Entry) (s : State) : Out :=
  if s.mode = .unconfigured then
    .next (if s.np < s.params.maxFields then s.pushEntry e else s.setOverflow)
  else noStep

/-- `START` (R234). -/
def execStart (s : State) : Out :=
  if s.mode = .unconfigured then
    toOut (do
      let r ← cfgCheck s
      pure (s.takeOutcome r))
  else noStep

/-- `READ_FRAME` (R236). -/
def execReadFrame (s : State) : Out :=
  if s.mode = .run ∧ s.fsm = .idle then .next s.beginAttempt else noStep

/-- `IOERR` (R237): the `info` is the value `FSM` had. -/
def execIoerr (s : State) : Out :=
  if s.inAttempt then .next (s.takeOutcome (.frameSyncFailure s.fsm)) else noStep

/-- `CFG.CHECK` alone (R235): the verdict is on the port; `MODE` is `START`'s to write. -/
def execCfgCheck (s : State) : Out :=
  toOut (do
    let r ← cfgCheck s
    pure (s.setPort (.verdict r)))

end Sys2Proof.Machine
end

