-- ==== Sys2Proof/Syntax.lean ====
section
/-! DEFINITION. The instructions: one constructor per row of the opcode table, with the operands
its rule names. Events (R110), the two cases of a byte in `SEEK_SYNC` (R113), frames by class
(R104), and the operations inside a step (R112). -/

namespace Sys2Proof

/-- One row of the opcode table, with its operands. -/
inductive Instr where
  /-- `RESET` (R233). -/
  | reset
  /-- `CFG_CRC_WRITE(i, v)` (R231). -/
  | cfgCrcWrite (i v : Byte)
  /-- `CFG_PARAM_PUSH(e)` (R232). -/
  | cfgParamPush (e : Entry)
  /-- `START` (R234). -/
  | start
  /-- `READ_FRAME` (R236). -/
  | readFrame
  /-- `BYTE(b)` (R140). -/
  | byte (b : Byte)
  /-- `IOERR` (R237). -/
  | ioerr
  /-- `SEEK.SYNC`: the byte 0x55 in `SEEK_SYNC` (R142). -/
  | seekSync
  /-- `SEEK.SKIP`: any other byte in `SEEK_SYNC` (R141). -/
  | seekSkip (b : Byte)
  /-- `F.VLD9`: packet type 0x0A, telegram type 0x24, `PL0 = 15`. `rest` is the body buffer after
  `BODY[0]`, the data CRC byte last (R96, R104). -/
  | fVld9 (ol hcrc : Byte) (rest : List Byte)
  /-- `F.VLD9.BADLEN`: the same tags with another length (R104). -/
  | fVld9BadLen (pl : BitVec 16) (ol hcrc : Byte) (rest : List Byte)
  /-- `F.RADIO_ADVANCED.OTHER`: packet type 0x0A, another telegram type `g` (R104). -/
  | fRadioOther (pl : BitVec 16) (ol hcrc g : Byte) (rest : List Byte)
  /-- `F.OTHER`: another packet type (R104). -/
  | fOther (pl : BitVec 16) (ol pt hcrc g : Byte) (rest : List Byte)
  /-- `CRC8`: `crc8(T, data, offset, count)` (R120). -/
  | crc8 (offset count : Nat) (data : List Byte)
  /-- `HDR.STORE(b)` (R143). -/
  | hdrStore (b : Byte)
  /-- `HDR.CHECK(b)` (R144). -/
  | hdrCheck (b : Byte)
  /-- `HDR.FIELDS` (R145). -/
  | hdrFields
  /-- `LEN.CLAMP` with its transient inputs `PL0`, `OL0` (R145, R146). -/
  | lenClamp (pl0 : BitVec 16) (ol0 : Byte)
  /-- `BODY.ENTER` (R147). -/
  | bodyEnter
  /-- `BODY.STORE(b)` (R148). -/
  | bodyStore (b : Byte)
  /-- `BODY.CHECK` (R149). -/
  | bodyCheck
  /-- `FRAME.END` (R150). -/
  | frameEnd
  /-- `TG.DECODE` (R180). -/
  | tgDecode
  /-- `TG.PTYPE` (R181). -/
  | tgPtype
  /-- `TG.TTYPE` (R182). -/
  | tgTtype
  /-- `TG.LGUARD` (R183). -/
  | tgLguard
  /-- `TG.BITCAT` (R184). -/
  | tgBitcat
  /-- `FD.FIELDS(B, P)` (R200). -/
  | fdFields (b : BitString)
  /-- `FD.EXTRACT(B, off, w)` (R201). -/
  | fdExtract (b : BitString) (off w : BitVec 7)
  /-- `FD.SLOPE(p)` (R202). -/
  | fdSlope (p : Entry)
  /-- `FD.OFFSET(p)` (R203). -/
  | fdOffset (p : Entry)
  /-- `FD.SCALE(raw, slope, offset)` (R204). -/
  | fdScale (raw : BitVec 72) (slope offset : Num)
  /-- `FD.EMIT(p, value)` (R205). -/
  | fdEmit (p : Entry) (value : Num)
  /-- `CFG.CHECK` (R235). -/
  | cfgCheck
deriving DecidableEq, Repr

end Sys2Proof
end

