-- ==== Sys2Proof/WellFormed.lean ====
section
/-! DEFINITION. Which instructions an encoding can carry: the operand of a `SEEK.SKIP` is not the
sync byte, a frame lies in its class and has the length its header gives it, and the operands of
the model's own serialisation fit their bytes (entries 3, 10). -/

namespace Sys2Proof

/-- The longest byte string one count byte can announce (entry 3). -/
def maxBlob : Nat := 255

/-- An integer fits `w` bits of two's complement (R9, R24). -/
def rawFits (w : Nat) (r : Int) : Bool :=
  decide (-(2 ^ w : Int) ≤ 2 * r) && decide (2 * r < (2 ^ w : Int))

/-- The width in bytes of the encoded numbers of an instance of `Num` other than binary64
(entry 10). -/
def numBytes : Nat := 32

/-- A value of the unit's instance of `Num` (R10) that its serialisation can carry (entry 10). -/
def numFits : Config.NumSel → Num → Bool
  | .binary64, .f64 _ => true
  | .binary64, .rat _ => false
  | .binary64, .other _ => false
  | .rational, .f64 _ => false
  | .rational, .rat q => rawFits (8 * numBytes) q.num && decide (q.den < 2 ^ (8 * numBytes))
  | .rational, .other _ => false
  | .other _, .f64 _ => false
  | .other _, .rat _ => false
  | .other _, .other v => decide (v < 2 ^ (8 * numBytes))

/-- An entry whose raw range fits `RAWRANGE_W` bits and whose scale values are values of the unit's
`Num` (R9, R10, R24). -/
def Entry.fits (c : Config.Params) (e : Entry) : Bool :=
  rawFits c.rawRangeW e.rawMin && rawFits c.rawRangeW e.rawMax &&
    numFits c.num e.scaleMin && numFits c.num e.scaleMax

/-- An entry of the unit whose tags fit the serialisation (R24, entry 3). Whether its bit range, its
scale values and its raw range are legal is not asked here: `START` checks that (R235). -/
def Entry.wf (c : Config.Params) (e : Entry) : Bool :=
  decide (e.name.length ≤ maxBlob) && decide (e.unit.length ≤ maxBlob) && e.fits c

/-- A frame's body buffer, `BODY[0]` taken off, has `PLEN + OLEN` bytes (R94, R95). -/
def bodyFits (pl : BitVec 16) (ol : Byte) (rest : List Byte) : Bool :=
  decide (rest.length = Machine.bodyLength pl.toNat ol.toNat)

/-- Well-formed instructions of a unit with these parameters: those `encode` writes and `decode` reads
back. -/
def Instr.wf (c : Config.Params) : Instr → Bool
  | .reset => true
  | .cfgCrcWrite _ _ => true
  | .cfgParamPush e => e.wf c
  | .start => true
  | .readFrame => true
  | .byte _ => true
  | .ioerr => true
  | .seekSync => true
  | .seekSkip b => decide (b ≠ Config.sync)
  | .fVld9 ol _ rest => bodyFits (BitVec.ofNat 16 Config.sensorDataLength) ol rest
  | .fVld9BadLen pl ol _ rest =>
      decide (pl ≠ BitVec.ofNat 16 Config.sensorDataLength) && bodyFits pl ol rest
  | .fRadioOther pl ol _ g rest => decide (g ≠ Config.ttVld9) && bodyFits pl ol rest
  | .fOther pl ol pt _ _ rest => decide (pt ≠ Config.radioAdvanced) && bodyFits pl ol rest
  | .crc8 offset count data =>
      decide (offset < 2 ^ 16) && decide (count < 2 ^ 16) && decide (data.length ≤ maxBlob)
  | .hdrStore _ => true
  | .hdrCheck _ => true
  | .hdrFields => true
  | .lenClamp _ _ => true
  | .bodyEnter => true
  | .bodyStore _ => true
  | .bodyCheck => true
  | .frameEnd => true
  | .tgDecode => true
  | .tgPtype => true
  | .tgTtype => true
  | .tgLguard => true
  | .tgBitcat => true
  | .fdFields _ => true
  | .fdExtract _ _ _ => true
  | .fdSlope p => p.wf c
  | .fdOffset p => p.wf c
  | .fdScale _ slope offset => numFits c.num slope && numFits c.num offset
  | .fdEmit p value => p.wf c && numFits c.num value
  | .cfgCheck => true

end Sys2Proof
end

