-- ==== Sys2Proof/Decode.lean ====
section
/-! DEFINITION. From encoded bytes to instructions, and back. The ids are those of R110 and R112, the
frame format that of R90, the classes those of R104. The operand bytes behind an id are the model's
serialisation, most significant byte first (entry 3). Decoding is total; every byte string that no
row covers is refused (K16). -/

namespace Sys2Proof

/-- A reader of encoded bytes: what it reads and the bytes it leaves, or nothing. -/
abbrev Reader (α : Type) := List Byte → Option (α × List Byte)

/-- The first byte. -/
def takeByte : Reader Byte
  | [] => none
  | b :: bs => some (b, bs)

/-- The first `n` bytes. -/
def takeBytes : Nat → Reader (List Byte)
  | 0, bs => some ([], bs)
  | _ + 1, [] => none
  | n + 1, b :: bs => (takeBytes n bs).map fun r => (b :: r.1, r.2)

/-- The natural number that bytes spell, most significant byte first (R62). -/
def natOfBytes (bs : List Byte) : Nat := bs.foldl (fun n b => n * 256 + b.toNat) 0

/-- The last `n` bytes of a natural number, most significant byte first. -/
def bytesOfNat : Nat → Nat → List Byte
  | 0, _ => []
  | n + 1, v => BitVec.ofNat 8 (v / 256 ^ n) :: bytesOfNat n v

/-- A natural number of `n` bytes. -/
def takeNat (n : Nat) : Reader Nat := fun bs => (takeBytes n bs).map fun r => (natOfBytes r.1, r.2)

/-- A word of `n` bytes. -/
def takeWord (n : Nat) : Reader (BitVec (8 * n)) := fun bs =>
  (takeNat n bs).map fun r => (BitVec.ofNat (8 * n) r.1, r.2)

/-- A byte string behind its count byte. -/
def takeBlob : Reader (List Byte) := fun bs => do
  let (n, bs) ← takeByte bs
  takeBytes n.toNat bs

/-- A 7-bit value in one byte; a byte with bit 7 set is refused. -/
def take7 : Reader (BitVec 7) := fun bs => do
  let (b, bs) ← takeByte bs
  if b.toNat < 128 then some (BitVec.ofNat 7 b.toNat, bs) else none

/-- How many bytes hold `w` bits. -/
def bytesFor (w : Nat) : Nat := (w + 7) / 8

/-- An integer of `w` bits, two's complement (R9, R24), in whole bytes; bytes that spell an integer
outside the `w` bits are refused. -/
def takeRaw (w : Nat) : Reader Int := fun bs => do
  let (n, bs) ← takeNat (bytesFor w) bs
  let r := (BitVec.ofNat (8 * bytesFor w) n).toInt
  if rawFits w r then some (r, bs) else none

/-- A rational, its numerator and its denominator; one that is not in lowest terms is refused. -/
def takeRat : Reader Rat := fun bs => do
  let (num, bs) ← takeRaw (8 * numBytes) bs
  let (den, bs) ← takeNat numBytes bs
  let q := mkRat num den
  if q.num = num ∧ q.den = den then some (q, bs) else none

/-- A value of the unit's instance of `Num` (R10, entry 10). -/
def takeNum : Config.NumSel → Reader Num
  | .binary64, bs => (takeWord 8 bs).map fun r => (.f64 r.1, r.2)
  | .rational, bs => (takeRat bs).map fun r => (.rat r.1, r.2)
  | .other _, bs => (takeNat numBytes bs).map fun r => (.other r.1, r.2)

/-- One entry of the parameter table, its fields in the order of R24. -/
def takeEntry (c : Config.Params) : Reader Entry := fun bs => do
  let (name, bs) ← takeBlob bs
  let (off, bs) ← take7 bs
  let (width, bs) ← take7 bs
  let (rmin, bs) ← takeRaw c.rawRangeW bs
  let (rmax, bs) ← takeRaw c.rawRangeW bs
  let (smin, bs) ← takeNum c.num bs
  let (smax, bs) ← takeNum c.num bs
  let (unit, bs) ← takeBlob bs
  some ({ name := name, bitOffset := off, bitWidth := width, rawMin := rmin, rawMax := rmax,
          scaleMin := smin, scaleMax := smax, unit := unit }, bs)

/-- A byte string behind its count byte. -/
def putBlob (bs : List Byte) : List Byte := BitVec.ofNat 8 bs.length :: bs

/-- A word of `n` bytes. -/
def putWord (n : Nat) (v : BitVec (8 * n)) : List Byte := bytesOfNat n v.toNat

/-- A 7-bit value in one byte. -/
def put7 (v : BitVec 7) : List Byte := [BitVec.ofNat 8 v.toNat]

/-- An integer of `w` bits, two's complement, in whole bytes. -/
def putRaw (w : Nat) (r : Int) : List Byte :=
  bytesOfNat (bytesFor w) (BitVec.ofInt (8 * bytesFor w) r).toNat

/-- A value of `Num`. -/
def putNum : Num → List Byte
  | .f64 w => putWord 8 w
  | .rat q => putRaw (8 * numBytes) q.num ++ bytesOfNat numBytes q.den
  | .other v => bytesOfNat numBytes v

/-- One entry of the parameter table, its fields in the order of R24. -/
def putEntry (c : Config.Params) (e : Entry) : List Byte :=
  putBlob e.name ++ put7 e.bitOffset ++ put7 e.bitWidth ++ putRaw c.rawRangeW e.rawMin ++
    putRaw c.rawRangeW e.rawMax ++ putNum e.scaleMin ++ putNum e.scaleMax ++ putBlob e.unit

/-- The ids of the events (R110). -/
def isEventId (n : Nat) : Bool := decide (n ≤ 0x06)

/-- The ids of the rows of format `OPID8` (R112). `SEEK.SKIP` (0x90) and `SEEK.SYNC` (0x91) have no
such row: they appear as the two `BYTE8` rows only, over the byte itself (R113). -/
def isOpId (n : Nat) : Bool :=
  decide (n = 0x80) || (decide (0x92 ≤ n) && decide (n ≤ 0x99)) ||
    (decide (0xA0 ≤ n) && decide (n ≤ 0xA4)) || (decide (0xB0 ≤ n) && decide (n ≤ 0xB5)) ||
    decide (n = 0xC0)

/-- An event: its id (R110), then its argument. An unlisted id is refused (K16). -/
def decodeEvent (c : Config.Params) : Reader Instr := fun bs => do
  let (id, bs) ← takeByte bs
  match id.toNat with
  | 0x00 => some (.reset, bs)
  | 0x01 => do
      let (i, bs) ← takeByte bs
      let (v, bs) ← takeByte bs
      some (.cfgCrcWrite i v, bs)
  | 0x02 => do
      let (e, bs) ← takeEntry c bs
      some (.cfgParamPush e, bs)
  | 0x03 => some (.start, bs)
  | 0x04 => some (.readFrame, bs)
  | 0x05 => do
      let (b, bs) ← takeByte bs
      some (.byte b, bs)
  | 0x06 => some (.ioerr, bs)
  | _ => none

/-- A byte seen in `SEEK_SYNC` (R113): `SEEK.SYNC` has priority, `SEEK.SKIP` takes the rest. -/
def decodeByte : Reader Instr := fun bs => do
  let (b, bs) ← takeByte bs
  if b = Config.sync then some (.seekSync, bs) else some (.seekSkip b, bs)

/-- The class of a frame (R104): the classes are tried in the table's order of priority. -/
def frameClass (pl : BitVec 16) (ol pt hcrc g : Byte) (rest : List Byte) : Instr :=
  if pt = Config.radioAdvanced ∧ g = Config.ttVld9 ∧ pl = BitVec.ofNat 16 Config.sensorDataLength then
    .fVld9 ol hcrc rest
  else if pt = Config.radioAdvanced ∧ g = Config.ttVld9 then .fVld9BadLen pl ol hcrc rest
  else if pt = Config.radioAdvanced then .fRadioOther pl ol hcrc g rest
  else .fOther pl ol pt hcrc g rest

/-- A frame (R90): sync byte, header, header CRC, and as many bytes of the body buffer as the unit
takes for these lengths (R94, R95). Its CRCs are not looked at here: they need `T` (R113). -/
def decodeFrame : Reader Instr := fun bs => do
  let (s, bs) ← takeByte bs
  let (hi, bs) ← takeByte bs
  let (lo, bs) ← takeByte bs
  let (ol, bs) ← takeByte bs
  let (pt, bs) ← takeByte bs
  let (hcrc, bs) ← takeByte bs
  let (g, bs) ← takeByte bs
  if s = Config.sync then do
    let pl := Machine.assembleLength hi lo
    let (rest, bs) ← takeBytes (Machine.bodyLength pl.toNat ol.toNat) bs
    some (frameClass pl ol pt hcrc g rest, bs)
  else none

/-- An operation: its id (R112), then its operands in the order of their rule; that order, and for
`CRC8` so data, offset, count (R120), is the model's (DESIGN CHOICE, entry 3). `SEEK.SKIP` and
`SEEK.SYNC` have ids too (R112), besides their rows among the bytes. An unlisted id is refused (K16). -/
def decodeOp (c : Config.Params) : Reader Instr := fun bs => do
  let (id, bs) ← takeByte bs
  match id.toNat with
  | 0x80 => do
      let (data, bs) ← takeBlob bs
      let (offset, bs) ← takeNat 2 bs
      let (count, bs) ← takeNat 2 bs
      some (.crc8 offset count data, bs)
  | 0x90 => do
      let (b, bs) ← takeByte bs
      if b = Config.sync then none else some (.seekSkip b, bs)
  | 0x91 => some (.seekSync, bs)
  | 0x92 => do
      let (b, bs) ← takeByte bs
      some (.hdrStore b, bs)
  | 0x93 => do
      let (b, bs) ← takeByte bs
      some (.hdrCheck b, bs)
  | 0x94 => some (.hdrFields, bs)
  | 0x95 => do
      let (pl0, bs) ← takeWord 2 bs
      let (ol0, bs) ← takeByte bs
      some (.lenClamp pl0 ol0, bs)
  | 0x96 => some (.bodyEnter, bs)
  | 0x97 => do
      let (b, bs) ← takeByte bs
      some (.bodyStore b, bs)
  | 0x98 => some (.bodyCheck, bs)
  | 0x99 => some (.frameEnd, bs)
  | 0xA0 => some (.tgDecode, bs)
  | 0xA1 => some (.tgPtype, bs)
  | 0xA2 => some (.tgTtype, bs)
  | 0xA3 => some (.tgLguard, bs)
  | 0xA4 => some (.tgBitcat, bs)
  | 0xB0 => do
      let (b, bs) ← takeWord 9 bs
      some (.fdFields b, bs)
  | 0xB1 => do
      let (b, bs) ← takeWord 9 bs
      let (off, bs) ← take7 bs
      let (w, bs) ← take7 bs
      some (.fdExtract b off w, bs)
  | 0xB2 => do
      let (p, bs) ← takeEntry c bs
      some (.fdSlope p, bs)
  | 0xB3 => do
      let (p, bs) ← takeEntry c bs
      some (.fdOffset p, bs)
  | 0xB4 => do
      let (raw, bs) ← takeWord 9 bs
      let (slope, bs) ← takeNum c.num bs
      let (offset, bs) ← takeNum c.num bs
      some (.fdScale raw slope offset, bs)
  | 0xB5 => do
      let (p, bs) ← takeEntry c bs
      let (value, bs) ← takeNum c.num bs
      some (.fdEmit p value, bs)
  | 0xC0 => some (.cfgCheck, bs)
  | _ => none

/-- The first instruction of an encoded burst, and the bytes behind it, for a unit with these
parameters. -/
def decode (c : Config.Params) : Fmt → Reader Instr
  | .event => decodeEvent c
  | .byte => decodeByte
  | .frame => decodeFrame
  | .op => decodeOp c

/-- The bytes of a frame as the unit takes it (R90, R94): `body` is the whole body buffer. -/
def frameBytes (pl : BitVec 16) (ol pt hcrc : Byte) (body : List Byte) : List Byte :=
  Config.sync :: pl.extractLsb' 8 8 :: pl.extractLsb' 0 8 :: ol :: pt :: hcrc :: body

/-- The format of an instruction's row in the opcode table. -/
def Instr.fmt : Instr → Fmt
  | .reset => .event
  | .cfgCrcWrite _ _ => .event
  | .cfgParamPush _ => .event
  | .start => .event
  | .readFrame => .event
  | .byte _ => .event
  | .ioerr => .event
  | .seekSync => .byte
  | .seekSkip _ => .byte
  | .fVld9 _ _ _ => .frame
  | .fVld9BadLen _ _ _ _ => .frame
  | .fRadioOther _ _ _ _ _ => .frame
  | .fOther _ _ _ _ _ _ => .frame
  | .crc8 _ _ _ => .op
  | .hdrStore _ => .op
  | .hdrCheck _ => .op
  | .hdrFields => .op
  | .lenClamp _ _ => .op
  | .bodyEnter => .op
  | .bodyStore _ => .op
  | .bodyCheck => .op
  | .frameEnd => .op
  | .tgDecode => .op
  | .tgPtype => .op
  | .tgTtype => .op
  | .tgLguard => .op
  | .tgBitcat => .op
  | .fdFields _ => .op
  | .fdExtract _ _ _ => .op
  | .fdSlope _ => .op
  | .fdOffset _ => .op
  | .fdScale _ _ _ => .op
  | .fdEmit _ _ => .op
  | .cfgCheck => .op

/-- The bytes of an instruction, in its row's format, for a unit with these parameters. -/
def encode (c : Config.Params) : Instr → List Byte
  | .reset => [0x00]
  | .cfgCrcWrite i v => [0x01, i, v]
  | .cfgParamPush e => 0x02 :: putEntry c e
  | .start => [0x03]
  | .readFrame => [0x04]
  | .byte b => [0x05, b]
  | .ioerr => [0x06]
  | .seekSync => [Config.sync]
  | .seekSkip b => [b]
  | .fVld9 ol hcrc rest =>
      frameBytes (BitVec.ofNat 16 Config.sensorDataLength) ol Config.radioAdvanced hcrc
        (Config.ttVld9 :: rest)
  | .fVld9BadLen pl ol hcrc rest =>
      frameBytes pl ol Config.radioAdvanced hcrc (Config.ttVld9 :: rest)
  | .fRadioOther pl ol hcrc g rest => frameBytes pl ol Config.radioAdvanced hcrc (g :: rest)
  | .fOther pl ol pt hcrc g rest => frameBytes pl ol pt hcrc (g :: rest)
  | .crc8 offset count data => 0x80 :: (putBlob data ++ bytesOfNat 2 offset ++ bytesOfNat 2 count)
  | .hdrStore b => [0x92, b]
  | .hdrCheck b => [0x93, b]
  | .hdrFields => [0x94]
  | .lenClamp pl0 ol0 => 0x95 :: (putWord 2 pl0 ++ [ol0])
  | .bodyEnter => [0x96]
  | .bodyStore b => [0x97, b]
  | .bodyCheck => [0x98]
  | .frameEnd => [0x99]
  | .tgDecode => [0xA0]
  | .tgPtype => [0xA1]
  | .tgTtype => [0xA2]
  | .tgLguard => [0xA3]
  | .tgBitcat => [0xA4]
  | .fdFields b => 0xB0 :: putWord 9 b
  | .fdExtract b off w => 0xB1 :: (putWord 9 b ++ put7 off ++ put7 w)
  | .fdSlope p => 0xB2 :: putEntry c p
  | .fdOffset p => 0xB3 :: putEntry c p
  | .fdScale raw slope offset => 0xB4 :: (putWord 9 raw ++ putNum slope ++ putNum offset)
  | .fdEmit p value => 0xB5 :: (putEntry c p ++ putNum value)
  | .cfgCheck => [0xC0]

/-- The format in which a word of the opcode table is read. A word of 56 bits that begins with the
sync value is a frame prefix `W` (R103); any other word is told apart by its first byte: an event
id (R110), the id of an `OPID8` row (R112), or else a byte seen in `SEEK_SYNC` (R113). That a word which is
neither of 8 bits nor a frame prefix is read so too, its lowest byte first, is the model's (DESIGN
CHOICE, entry 3): the table has no such word. -/
def tableFmt (nbits w : Nat) : Fmt :=
  if nbits = 56 ∧ w / 2 ^ 48 % 256 = 0x55 then .frame
  else if isEventId (w % 256) then .event
  else if isOpId (w % 256) then .op
  else .byte

/-- The bytes of a table word, lowest byte first. -/
def bytesLow : Nat → Nat → List Byte
  | 0, _ => []
  | n + 1, w => BitVec.ofNat 8 w :: bytesLow n (w / 256)

/-- As many zero bytes as the longest instruction can still ask for behind a table word. -/
def zeroTail (c : Config.Params) : List Byte := List.replicate (640 + 2 * bytesFor c.rawRangeW) 0

/-- A table word as bytes in the order the unit takes them, the bytes above it zero. A frame prefix
has its first byte most significant (R103); any other word of more than 8 bits has its first byte
lowest, which is the model's (DESIGN CHOICE, entry 3). -/
def tableBytes (c : Config.Params) (nbits w : Nat) : List Byte :=
  (match tableFmt nbits w with
    | .frame => bytesOfNat 7 w
    | _ => bytesLow (max 1 ((nbits + 7) / 8)) w) ++ zeroTail c

/-- The instruction the decoder reads from a word of the opcode table, with the default parameters. -/
def decodeTableWord (nbits w : Nat) : Option Instr :=
  (decode Config.Params.default (tableFmt nbits w)
    (tableBytes Config.Params.default nbits w)).map (·.1)

end Sys2Proof
end

