-- ==== Sys2Proof/Machine/Frames.lean ====
section
/-! DEFINITION. A frame as one instruction (R2, R90, R104): the unit, in `SEEK_SYNC`, takes the
frame's bytes one by one, each as the `BYTE` step of R140 says, for as long as they belong to this
frame. The two CRC checks and the class decide what comes out (R113, R260). Bytes that the frame does
not use - those behind a rejected header (R95, R153) - stay in the stream for the next search (R39). -/

namespace Sys2Proof.Machine

/-- Bytes of the stream as `BYTE` events (R61, R110). -/
def asByteEvents (bs : List Byte) : List Byte := bs.flatMap fun b => [0x05, b]

/-- Bytes not taken stay with the byte source, in order, before all later inputs (R39). -/
def State.leaveBytes (bs : List Byte) (s : State) : State :=
  if bs = [] then s else s.setInput ({ fmt := .event, bytes := asByteEvents bs } :: s.input)

/-- The unit is between a sync byte and the end of a frame. -/
def State.inFrame (s : State) : Bool :=
  decide (s.fsm = .readHeader) || decide (s.fsm = .readBody)

/-- The bytes of one frame, one `BYTE` step each; after the step that ends the frame or rejects its
header no further byte is taken. -/
def takeFrame : List Byte → State → Except Fault State
  | [], s => .ok s
  | b :: bs, s => do
      let s ← byteStep b s
      if s.inFrame then takeFrame bs s else pure (s.leaveBytes bs)

/-- The unit waits for a sync byte inside an attempt (R140, R230). -/
def State.seeking (s : State) : Bool := decide (s.mode = .run) && decide (s.fsm = .seekSync)

/-- `F.VLD9` (R184, R200): packet type 0x0A, telegram type 0x24, `PL0 = 15`. -/
def execFVld9 (ol hcrc : Byte) (rest : List Byte) (s : State) : Out :=
  if s.seeking then toOut (takeFrame (encode s.params (.fVld9 ol hcrc rest)) s) else noStep

/-- `F.VLD9.BADLEN` (R183): the same tags, another length. -/
def execFVld9BadLen (pl : BitVec 16) (ol hcrc : Byte) (rest : List Byte) (s : State) : Out :=
  if s.seeking then toOut (takeFrame (encode s.params (.fVld9BadLen pl ol hcrc rest)) s) else noStep

/-- `F.RADIO_ADVANCED.OTHER` (R182): another telegram type. -/
def execFRadioOther (pl : BitVec 16) (ol hcrc g : Byte) (rest : List Byte) (s : State) : Out :=
  if s.seeking then toOut (takeFrame (encode s.params (.fRadioOther pl ol hcrc g rest)) s) else noStep

/-- `F.OTHER` (R181): another packet type. -/
def execFOther (pl : BitVec 16) (ol pt hcrc g : Byte) (rest : List Byte) (s : State) : Out :=
  if s.seeking then toOut (takeFrame (encode s.params (.fOther pl ol pt hcrc g rest)) s) else noStep

end Sys2Proof.Machine
end

