-- ==== Sys2Proof/Machine/Dispatch.lean ====
section
/-! DEFINITION. The dispatch: one arm per row of the opcode table, each one call of its meaning. -/

namespace Sys2Proof.Machine

def exec (i : Instr) (s : State) : Host.Outcome State Fault Refusal :=
  match i with
  | .reset => Sys2Proof.Machine.execReset s
  | .cfgCrcWrite k v => Sys2Proof.Machine.execCfgCrcWrite k v s
  | .cfgParamPush e => Sys2Proof.Machine.execCfgParamPush e s
  | .start => Sys2Proof.Machine.execStart s
  | .readFrame => Sys2Proof.Machine.execReadFrame s
  | .byte b => Sys2Proof.Machine.execByte b s
  | .ioerr => Sys2Proof.Machine.execIoerr s
  | .seekSync => Sys2Proof.Machine.execSeekSync s
  | .seekSkip b => Sys2Proof.Machine.execSeekSkip b s
  | .fVld9 ol hcrc rest => Sys2Proof.Machine.execFVld9 ol hcrc rest s
  | .fVld9BadLen pl ol hcrc rest => Sys2Proof.Machine.execFVld9BadLen pl ol hcrc rest s
  | .fRadioOther pl ol hcrc g rest => Sys2Proof.Machine.execFRadioOther pl ol hcrc g rest s
  | .fOther pl ol pt hcrc g rest => Sys2Proof.Machine.execFOther pl ol pt hcrc g rest s
  | .crc8 offset count data => Sys2Proof.Machine.execCrc8 offset count data s
  | .hdrStore b => Sys2Proof.Machine.execHdrStore b s
  | .hdrCheck b => Sys2Proof.Machine.execHdrCheck b s
  | .hdrFields => Sys2Proof.Machine.execHdrFields s
  | .lenClamp pl0 ol0 => Sys2Proof.Machine.execLenClamp pl0 ol0 s
  | .bodyEnter => Sys2Proof.Machine.execBodyEnter s
  | .bodyStore b => Sys2Proof.Machine.execBodyStore b s
  | .bodyCheck => Sys2Proof.Machine.execBodyCheck s
  | .frameEnd => Sys2Proof.Machine.execFrameEnd s
  | .tgDecode => Sys2Proof.Machine.execTgDecode s
  | .tgPtype => Sys2Proof.Machine.execTgPtype s
  | .tgTtype => Sys2Proof.Machine.execTgTtype s
  | .tgLguard => Sys2Proof.Machine.execTgLguard s
  | .tgBitcat => Sys2Proof.Machine.execTgBitcat s
  | .fdFields b => Sys2Proof.Machine.execFdFields b s
  | .fdExtract b off w => Sys2Proof.Machine.execFdExtract b off w s
  | .fdSlope p => Sys2Proof.Machine.execFdSlope p s
  | .fdOffset p => Sys2Proof.Machine.execFdOffset p s
  | .fdScale raw slope offset => Sys2Proof.Machine.execFdScale raw slope offset s
  | .fdEmit p value => Sys2Proof.Machine.execFdEmit p value s
  | .cfgCheck => Sys2Proof.Machine.execCfgCheck s

end Sys2Proof.Machine
end

