-- ==== Sys2Proof/Machine/Fetch.lean ====
section
/-! DEFINITION. Where the next instruction comes from: the input queue (entry 3). The queue is the
order in which the inputs of the two senders of R17 arrive. An event that has no step changes nothing
and is gone; a byte that has none is not consumed and stays with the byte source (R230, R239; entry
14). -/

namespace Sys2Proof.Machine

/-- The formats whose bytes are bytes of the stream: a byte in `SEEK_SYNC`, a frame (R61, R90, R113). -/
def isStream : Fmt → Bool
  | .event => false
  | .byte => true
  | .frame => true
  | .op => false

/-- A byte of the stream as a `BYTE` event (R61, R110). -/
def takeStreamByte : Reader Instr := fun bs => do
  let (b, bs) ← takeByte bs
  some (.byte b, bs)

/-- The next input of a burst, and the bytes behind it. Stream bytes are a frame, or a byte in
`SEEK_SYNC`, only where the unit does not stand inside a header or a body: there, and where they do
not begin with a whole frame, the next byte is a `BYTE` event (R39, R140, R153). That the rest of a
burst keeps its format is the model's (entry 12). -/
def nextInput (s : State) (b : Burst) : Option (Instr × List Byte) :=
  if isStream b.fmt && s.inFrame then takeStreamByte b.bytes
  else
    match decode s.params b.fmt b.bytes with
    | some r => some r
    | none => if isStream b.fmt then takeStreamByte b.bytes else none

/-- What the byte source can do (R17). -/
def fromByteSource : Instr → Bool
  | .reset => false
  | .cfgCrcWrite _ _ => false
  | .cfgParamPush _ => false
  | .start => false
  | .readFrame => false
  | .byte _ => true
  | .ioerr => true
  | .seekSync => false
  | .seekSkip _ => false
  | .fVld9 _ _ _ => false
  | .fVld9BadLen _ _ _ _ => false
  | .fRadioOther _ _ _ _ _ => false
  | .fOther _ _ _ _ _ _ => false
  | .crc8 _ _ _ => false
  | .hdrStore _ => false
  | .hdrCheck _ => false
  | .hdrFields => false
  | .lenClamp _ _ => false
  | .bodyEnter => false
  | .bodyStore _ => false
  | .bodyCheck => false
  | .frameEnd => false
  | .tgDecode => false
  | .tgPtype => false
  | .tgTtype => false
  | .tgLguard => false
  | .tgBitcat => false
  | .fdFields _ => false
  | .fdExtract _ _ _ => false
  | .fdSlope _ => false
  | .fdOffset _ => false
  | .fdScale _ _ _ => false
  | .fdEmit _ _ => false
  | .cfgCheck => false

/-- The byte source sends an input that stands in a burst of this format: the bytes of the stream, and
its events (R17). The host sends every other one; that the operations of R112 count as the host's is
the model's (DESIGN CHOICE, entry 14). -/
def sentByByteSource (f : Fmt) (i : Instr) : Bool := isStream f || fromByteSource i

/-- An input has no step here (R13, R230). -/
def hasNoStep (i : Instr) (s : State) : Bool :=
  match exec i s with
  | .next _ => false
  | .fault _ => false
  | .refused r => decide (r = .noStep)

/-- The burst with the bytes that are left of it, in front of the later ones. What is left behind an
over-length frame (R94, R154) is so the next thing in the stream; that it keeps the burst's format is
the model's (DESIGN CHOICE, entry 12), and `nextInput` reads it byte by byte where it begins with no
whole frame. -/
def putBack (f : Fmt) (left : List Byte) (q : List Burst) : List Burst :=
  if left = [] then q else { fmt := f, bytes := left } :: q

/-- What becomes of an input at its turn. -/
inductive Offer where
  /-- It has a step and is taken. -/
  | taken
  /-- It stays with the byte source. -/
  | held
  /-- It has no step and is gone. -/
  | ignored
deriving DecidableEq, Repr

/-- The turn of an input while the byte source still holds the bytes `kept` (R230, R239): behind bytes
that were not consumed, the byte source offers nothing (R61, R301); a byte without a step is not
consumed; any other input without a step is ignored. R230 leaves it open whether an event without a
step is ignored or waits for a ready signal, and that the model has it ignored, an `IOERR` too, is its
own (DESIGN CHOICE, entry 14). -/
def offer (s : State) (kept : List Burst) (f : Fmt) (i : Instr) : Offer :=
  if sentByByteSource f i = true ∧ kept ≠ [] then .held
  else if hasNoStep i s then
    (if sentByByteSource f i = true ∧ i ≠ .ioerr then .held else .ignored)
  else .taken

/-- The first input of the queue that is taken, and the queue without it and without the inputs ignored
before it, the bytes held in front. Every round takes at least one byte off the queue, so that one
round more than there are bytes is enough. -/
def seek (s : State) : Nat → List Burst → List Burst → Except Refusal (Instr × List Burst)
  | 0, _, _ => .error .noStep
  | _ + 1, _, [] => .error .noStep
  | n + 1, kept, b :: q =>
    match nextInput s b with
    | none => .error .badEncoding
    | some (i, tail) =>
      match offer s kept b.fmt i with
      | .taken => .ok (i, kept ++ putBack b.fmt tail q)
      | .held =>
          let used := b.bytes.take (b.bytes.length - tail.length)
          seek s n (kept ++ [{ fmt := b.fmt, bytes := used }]) (putBack b.fmt tail q)
      | .ignored => seek s n kept (putBack b.fmt tail q)

/-- The number of bytes in a queue. -/
def queueBytes (q : List Burst) : Nat := (q.map fun b => b.bytes.length).sum

/-- The next instruction, and the state that has taken its bytes from the queue. With no input the
unit waits (R155); where no input has a step, there is none (R230); bytes no row covers are refused
when their turn comes (K16). -/
def fetch (s : State) : Except Refusal (Instr × State) :=
  match s.input with
  | [] => .error .waiting
  | b :: q =>
    match seek s (queueBytes (b :: q) + 1) [] (b :: q) with
    | .ok (i, q) => .ok (i, s.setInput q)
    | .error r => .error r

/-- The burst that carries one word of the opcode table: the bytes of the one instruction it is, the
bits above `nbits` zero. -/
def tableBurst (c : Config.Params) (nbits w : Nat) : Burst :=
  let bytes := tableBytes c nbits w
  match decode c (tableFmt nbits w) bytes with
  | none => { fmt := tableFmt nbits w, bytes := bytes }
  | some (_, tail) =>
      { fmt := tableFmt nbits w, bytes := bytes.take (bytes.length - tail.length) }

end Sys2Proof.Machine
end

