-- ==== Sys2Proof/Machine/Step.lean ====
section
/-! DEFINITION. One step: take the next instruction from the input queue and execute it (R68, R73). -/

namespace Sys2Proof.Machine

/-- One step of the unit: the first input in the order of arrival that has one (R73, R230, R239). Where
none has, the answer is the refusal `noStep`, and the state and the queue stay as they are. That an
event without a step is ignored once a later input has one, and is not offered again, is the model's
(DESIGN CHOICE, entry 14). -/
def step (s : State) : Host.Outcome State Fault Refusal :=
  match fetch s with
  | .error r => .refused r
  | .ok (i, s') => exec i s'

/-- The state with one word of the opcode table offered as the only input, so that no other input can
be taken in its place. -/
def State.withFetchWord (s : State) (nbits w : Nat) : State :=
  s.setInput [tableBurst s.params nbits w]

end Sys2Proof.Machine
end

