-- ==== Sys2Proof/Machine/Codes.lean ====
section
/-! DEFINITION. The numeric codes the spec gives its named values: `MODE` (R21), `FSM` (R26), the
records of the two outputs and the engine port (R251). No step reads a code. -/

namespace Sys2Proof.Machine

/-- The 2-bit code of `MODE` (R21). -/
def modeCode : Mode → BitVec 2
  | .unconfigured => 0
  | .run => 1
  | .halted => 2

/-- The 2-bit code of `FSM` (R26). -/
def fsmCode : Fsm → BitVec 2
  | .idle => 0
  | .seekSync => 1
  | .readHeader => 2
  | .readBody => 3

/-- The 4-bit code of a `Result` (R251). -/
def resultCode : Result → BitVec 4
  | .none => 0x0
  | .measurements _ => 0x1
  | .invalidDataCrc => 0x2
  | .unsupportedDataLength _ => 0x3
  | .frameSyncFailure _ => 0x4
  | .cfgOk _ => 0x8
  | .crcTableMissing _ => 0x9
  | .paramMalformed _ => 0xA
  | .divisionByZero _ => 0xB

/-- The 4-bit code of a `Trace` (R251). -/
def traceCode : Trace → BitVec 4
  | .headerCrcMismatch _ _ => 0x5
  | .frameAccepted _ _ _ _ => 0x6

/-- The 4-bit code of `OutOfRange`, on the engine port only (R251, R259). -/
def outOfRangeCode : BitVec 4 := 0xF

end Sys2Proof.Machine
end

