-- ==== Sys2Proof/Safety.lean ====
section
/-! DEFINITION. The terms claims use: what a step leaves unchanged, what a table and a configuration
are worth, the invariant of R43, which events are accepted (R230), runs of several events, and the
spec's own arithmetic written a second time, from its closed forms. -/

namespace Sys2Proof.Machine

/-- The configuration registers are unchanged (R20 (a)), and the parameters. -/
def SameConfig (s t : State) : Prop :=
  t.mode = s.mode ∧ t.t = s.t ∧ t.tw = s.tw ∧ t.p = s.p ∧ t.np = s.np ∧ t.povf = s.povf ∧
    t.params = s.params

/-- The sequencer position is unchanged (R20 (b)). -/
def SamePos (s t : State) : Prop := t.fsm = s.fsm ∧ t.idx = s.idx

/-- The frame data registers are unchanged (R20 (c)). -/
def SameFrame (s t : State) : Prop :=
  t.hdr = s.hdr ∧ t.hcrc = s.hcrc ∧ t.plen = s.plen ∧ t.olen = s.olen ∧ t.ptype = s.ptype ∧
    t.body = s.body

/-- Nothing is emitted (R38). -/
def SameOutputs (s t : State) : Prop := t.results = s.results ∧ t.traces = s.traces

/-- The model's own lanes, the input queue and the port, are unchanged. -/
def SameLanes (s t : State) : Prop := t.input = s.input ∧ t.port = s.port

/-- `T` is the total function `f` (R8): every entry has been written. -/
def TableIs (s : State) (f : Byte → Byte) : Prop := ∀ i : Byte, s.t.read i.toNat = some (f i)

/-- The CRC of a byte sequence under a total table: "initialize crc=0; for each byte ... set
crc = table[crc XOR byte]" (R120). -/
def crcOf (f : Byte → Byte) (data : List Byte) : Byte := data.foldl (fun c b => f (c ^^^ b)) 0

/-- `pl`, `ol` are the lengths `pl0`, `ol0` after the clamping policy (R146). -/
def ClampedTo (pl0 ol0 : Nat) (pl : BitVec 16) (ol : Byte) : Prop :=
  if pl0 > 128 then pl.toNat = 128 ∧ ol.toNat = 0
  else if pl0 + ol0 > 128 then pl.toNat = pl0 ∧ ol.toNat = 128 - pl0
  else pl.toNat = pl0 ∧ ol.toNat = ol0

/-- The four header bytes are `h0 h1 h2 h3` (R28). -/
def HeaderIs (s : State) (h0 h1 h2 h3 : Byte) : Prop :=
  s.hdr.read 0 = some h0 ∧ s.hdr.read 1 = some h1 ∧ s.hdr.read 2 = some h2 ∧ s.hdr.read 3 = some h3

/-- `BODY[0 ..]` begins with `bs` (R33). -/
def BodyIs (s : State) (bs : List Byte) : Prop := ∀ i, i < bs.length → s.body.read i = bs[i]?

/-- What a frame that the unit takes whole leaves: `FSM` at `IDLE`, `IDX` at `PLEN + OLEN`, the header
with its CRC byte, the clamped lengths, the packet type, and the body buffer (R140 to R150). The
elements of `HDR` and `BODY` behind them are those of before. -/
def FrameHeld (s t : State) (h0 h1 h2 h3 hc : Byte) (pl : BitVec 16) (ol : Byte)
    (buf : List Byte) : Prop :=
  t.fsm = .idle ∧ t.idx.toNat = pl.toNat + ol.toNat ∧
    HeaderIs t h0 h1 h2 h3 ∧ (∀ j, 4 ≤ j → t.hdr.read j = s.hdr.read j) ∧
    t.hcrc = some hc ∧ t.plen = some pl ∧ t.olen = some ol ∧ t.ptype = some h3 ∧
    BodyIs t buf ∧ (∀ j, buf.length ≤ j → t.body.read j = s.body.read j)

/-- An entry whose bit range is non-empty and inside the 72 bits and whose scale values are finite
(R235 checks 3a to 3c). -/
def SoundEntry (n : NumOps Num) (p : Entry) : Prop :=
  1 ≤ p.bitWidth.toNat ∧ p.bitOffset.toNat + p.bitWidth.toNat ≤ 72 ∧
    n.finite p.scaleMin = true ∧ n.finite p.scaleMax = true

/-- An entry that `START` accepts (R24, R235). -/
def LegalEntry (n : NumOps Num) (p : Entry) : Prop := SoundEntry n p ∧ p.rawMin ≠ p.rawMax

/-- Every entry of the table up to `NP` is there and legal (R43 (b)). -/
def EntriesLegal (s : State) (n : Nat) : Prop :=
  ∀ k, k < n → ∃ p, s.p.read k = some p ∧ LegalEntry (numOps s.params.num) p

/-- Every `TW[i]` is 1 (R43 (b)). -/
def AllWritten (s : State) : Prop := ∀ i, i < 256 → s.tw.getLsbD i = true

/-- The configuration passes every load-time check (R235, R293). -/
def ConfigGood (s : State) : Prop := AllWritten s ∧ s.povf = false ∧ EntriesLegal s s.np

/-- What `CFG.CHECK` has to say of a configuration (R235): the first failing check decides. -/
def ConfigVerdict (s : State) : Result → Prop
  | .crcTableMissing i =>
      i < 256 ∧ s.tw.getLsbD i = false ∧ ∀ j, j < i → s.tw.getLsbD j = true
  | .paramMalformed k =>
      AllWritten s ∧
        ((s.povf = true ∧ k = s.params.maxFields) ∨
          (s.povf = false ∧ k < s.np ∧ EntriesLegal s k ∧
            ∃ p, s.p.read k = some p ∧ ¬ SoundEntry (numOps s.params.num) p))
  | .divisionByZero k =>
      AllWritten s ∧ s.povf = false ∧ k < s.np ∧ EntriesLegal s k ∧
        ∃ p, s.p.read k = some p ∧ SoundEntry (numOps s.params.num) p ∧ p.rawMin = p.rawMax
  | .cfgOk n => ConfigGood s ∧ n = s.np
  | .none => False
  | .measurements _ => False
  | .invalidDataCrc => False
  | .unsupportedDataLength _ => False
  | .frameSyncFailure _ => False

/-- The measurement of an entry on the 72-bit integer `v` (R185, R201 to R205), the operation tree
written out (R211). -/
def measurementOf (n : NumOps Num) (v : Nat) (p : Entry) : Measurement :=
  let raw := v / 2 ^ (72 - p.bitOffset.toNat - p.bitWidth.toNat) % 2 ^ p.bitWidth.toNat
  let d := p.rawMin - p.rawMax
  { name := p.name
    value :=
      n.fadd
        (n.fmul (n.i2f raw) (n.fdiv (n.fsub p.scaleMin p.scaleMax) (n.i2f d)))
        (n.fsub (n.fmul (n.i2f p.rawMin) p.scaleMax)
          (n.fdiv (n.fmul (n.i2f p.rawMax) p.scaleMin) (n.i2f d)))
    unit := p.unit }

/-- The list of measurements of a frame whose sensor bytes spell `v`: one for each entry, in table
order (R200). -/
def MeasurementsOf (s : State) (v : Nat) (ms : List Measurement) : Prop :=
  ms.length = s.np ∧
    ∀ k p, k < s.np → s.p.read k = some p → ms[k]? = some (measurementOf (numOps s.params.num) v p)

/-- The number a binary64 word stands for, when it is finite (R210). -/
def f64Value (x : NumWord) : Option Rat :=
  match F64.unpack x with
  | .nan => none
  | .inf _ => none
  | .fin neg m e => some ((signed neg m : Rat) * (2 : Rat) ^ e)

/-- Half a unit of the last place beyond the largest finite binary64 value, the middle between it and
2^1024: what reaches it overflows (R210). -/
def f64Limit : Rat := (2 ^ 54 - 1) * 2 ^ 970

/-- The word `r` is `exact` rounded to nearest, ties to even (R210): where `exact` reaches the limit,
`r` is the infinity of its sign ("an overflow gives an infinity"); where it does not, `r` stands for a
value nearest to `exact`, and where another value is as near, the last bit of `r` is 0. -/
def NearestEven (r : NumWord) (exact : Rat) : Prop :=
  (f64Limit ≤ |exact| → F64.unpack r = .inf (decide (exact < 0))) ∧
    (|exact| < f64Limit → ∃ v, f64Value r = some v ∧ ∀ x w, f64Value x = some w →
      |v - exact| ≤ |w - exact| ∧ (w ≠ v → |w - exact| = |v - exact| → r.getLsbD 0 = false))

/-- The binary64 zero of a sign. -/
def f64Zero (neg : Bool) : NumWord := if neg then 0x8000000000000000 else 0

/-- Which events a state accepts (R230). A byte and a frame are accepted while the unit seeks a sync
byte (R140 to R142); the operations inside a step are not offered from outside (R112). -/
def accepts (s : State) : Instr → Bool
  | .reset => true
  | .cfgCrcWrite _ _ => decide (s.mode = .unconfigured)
  | .cfgParamPush _ => decide (s.mode = .unconfigured)
  | .start => decide (s.mode = .unconfigured)
  | .readFrame => decide (s.mode = .run) && decide (s.fsm = .idle)
  | .byte _ => decide (s.mode = .run) && decide (s.fsm ≠ .idle)
  | .ioerr => decide (s.mode = .run) && decide (s.fsm ≠ .idle)
  | .seekSync => s.seeking
  | .seekSkip b => s.seeking && decide (b ≠ Config.sync)
  | .fVld9 _ _ _ => s.seeking
  | .fVld9BadLen _ _ _ _ => s.seeking
  | .fRadioOther _ _ _ _ _ => s.seeking
  | .fOther _ _ _ _ _ _ => s.seeking
  | .crc8 _ _ _ => false
  | .hdrStore _ => false
  | .hdrCheck _ => false
  | .hdrFields => false
  | .lenClamp _ _ => false
  | .bodyEnter => false
  | .bodyStore _ => false
  | .bodyCheck => false
  | .frameEnd => false
  | .tgDecode => false
  | .tgPtype => false
  | .tgTtype => false
  | .tgLguard => false
  | .tgBitcat => false
  | .fdFields _ => false
  | .fdExtract _ _ _ => false
  | .fdSlope _ => false
  | .fdOffset _ => false
  | .fdScale _ _ _ => false
  | .fdEmit _ _ => false
  | .cfgCheck => false

/-- Several instructions one after another; one that has no step changes nothing (R230, R239). -/
def runAll : List Instr → State → Out
  | [], s => .next s
  | i :: is, s =>
    match exec i s with
    | .next s' => runAll is s'
    | .fault f => .fault f
    | .refused r => if r = .noStep then runAll is s else .refused r

/-- The next input of the burst `b` is `i`, and `tail` are the bytes behind it: what the burst's format
spells, or, of a stream in the middle of a header or a body and of one that does not begin with a
whole frame, the next byte (R39, R140). -/
def NextIs (s : State) (b : Burst) (i : Instr) (tail : List Byte) : Prop :=
  ((isStream b.fmt = true → s.inFrame = false) ∧ decode s.params b.fmt b.bytes = some (i, tail)) ∨
    ∃ x, isStream b.fmt = true ∧ b.bytes = x :: tail ∧ i = .byte x ∧
      (s.inFrame = true ∨ decode s.params b.fmt b.bytes = none)

/-- From the front of the queue `q` on, inputs have come to their turn without a step, up to `rest`
(R230, R239): bytes that were not consumed, and whatever the byte source sends behind them, stay in
order as `kept`; any other input is gone. -/
inductive Passed (s : State) (q : List Burst) : List Burst → List Burst → Prop where
  | start : Passed s q [] q
  | ignored {kept r : List Burst} {b : Burst} {i : Instr} {tail : List Byte} :
      Passed s q kept (b :: r) → NextIs s b i tail → exec i s = .refused .noStep →
      (sentByByteSource b.fmt i = true → i = .ioerr ∧ kept = []) →
      Passed s q kept (if tail = [] then r else { fmt := b.fmt, bytes := tail } :: r)
  | held {kept r : List Burst} {f : Fmt} {used tail : List Byte} {i : Instr} :
      Passed s q kept ({ fmt := f, bytes := used ++ tail } :: r) →
      NextIs s { fmt := f, bytes := used ++ tail } i tail → sentByByteSource f i = true →
      (kept = [] → i ≠ .ioerr ∧ exec i s = .refused .noStep) →
      Passed s q (kept ++ [{ fmt := f, bytes := used }])
        (if tail = [] then r else { fmt := f, bytes := tail } :: r)

/-- The four arrays are in canonical form and lie inside their index ranges (R60); an entry of `T`
holds a value exactly when it is marked written (R22), an entry of `P` exactly below `NP` (R23), and
then one whose fields have the unit's widths (R24). -/
def StorageInv (s : State) : Prop :=
  Memory.wf s.t = true ∧ Memory.wf s.p = true ∧ Memory.wf s.hdr = true ∧ Memory.wf s.body = true ∧
    (∀ i, (s.t.read i).isSome = (decide (i < 256) && s.tw.getLsbD i)) ∧
    (∀ k, (s.p.read k).isSome = decide (k < s.np)) ∧
    (∀ k p, s.p.read k = some p → p.fits s.params = true) ∧ s.np ≤ s.params.maxFields ∧
    (∀ i, (s.hdr.read i).isSome = true → i < 4) ∧ (∀ i, (s.body.read i).isSome = true → i < 129)

/-- The clamped lengths stay within the buffer (R30, R31). -/
def LengthInv (s : State) : Prop :=
  (∀ pl, s.plen = some pl → pl.toNat ≤ 128) ∧
    ∀ pl ol, s.plen = some pl → s.olen = some ol → pl.toNat + ol.toNat ≤ 128

/-- What `FSM` promises of the frame data registers (R43 (c), (d)). -/
def SequencerInv (s : State) : Prop :=
  (s.fsm = .readHeader → s.idx.toNat ≤ 4 ∧ ∀ i, i < s.idx.toNat → (s.hdr.read i).isSome = true) ∧
    (s.fsm = .readBody →
      ∃ pl ol pt hc, s.plen = some pl ∧ s.olen = some ol ∧ s.ptype = some pt ∧ s.hcrc = some hc ∧
        headerCrc s = .ok hc ∧ s.idx.toNat ≤ pl.toNat + ol.toNat ∧
        (∀ i, i < 4 → (s.hdr.read i).isSome = true) ∧
        ∀ i, i < s.idx.toNat → (s.body.read i).isSome = true)

/-- What `MODE` promises of the configuration (R43 (a), (b)). -/
def ModeInv (s : State) : Prop :=
  (s.mode ≠ .run → s.fsm = .idle) ∧ (s.mode = .run → ConfigGood s)

/-- The invariant of R43. -/
def UnitInv (s : State) : Prop := StorageInv s ∧ LengthInv s ∧ SequencerInv s ∧ ModeInv s

end Sys2Proof.Machine
end

