-- ==== Sys2Proof/Certificates/Slice0/Obligations.lean ====
section
/-! DEFINITION. The statements for the provers. Where a statement speaks of `input`, `port` or
`params` it speaks of the model's own fields (entries 3, 5, 6); where a row of format `OPID8` is run
by itself, that it can be run so, what it asks of the state and that its value is on the port are
the model's (entry 5), and what it computes is the rule's. -/

open Sys2Proof Sys2Proof.Machine

/-! ### Reset, configuration and control (44_config_control.md, 70_reset_and_hazards.md) -/

/-- R42, R290: the state after reset. -/
def Obligations.ResetStateHasTheSpecValues : Prop :=
  State.reset.mode = .unconfigured ∧ State.reset.fsm = .idle ∧ State.reset.idx = 0 ∧
    (∀ i, State.reset.tw.getLsbD i = false) ∧ State.reset.np = 0 ∧ State.reset.povf = false ∧
    (∀ i, State.reset.t.read i = none) ∧ (∀ k, State.reset.p.read k = none) ∧
    (∀ i, State.reset.hdr.read i = none) ∧ State.reset.hcrc = none ∧ State.reset.plen = none ∧
    State.reset.olen = none ∧ State.reset.ptype = none ∧ (∀ i, State.reset.body.read i = none) ∧
    State.reset.results = [] ∧ State.reset.traces = []

/-- R233: `RESET` is accepted in every state, gives every piece of state its reset value, and emits
nothing. That the queue and the parameters stay and the port is emptied is the model's (entries 3,
5, 6). -/
def Obligations.ResetEventGivesResetValues : Prop :=
  ∀ s, ∃ t, exec .reset s = .next t ∧
    t.mode = .unconfigured ∧ t.fsm = .idle ∧ t.idx = 0 ∧ (∀ i, t.tw.getLsbD i = false) ∧
    t.np = 0 ∧ t.povf = false ∧ (∀ i, t.t.read i = none) ∧ (∀ k, t.p.read k = none) ∧
    (∀ i, t.hdr.read i = none) ∧ t.hcrc = none ∧ t.plen = none ∧ t.olen = none ∧
    t.ptype = none ∧ (∀ i, t.body.read i = none) ∧ SameOutputs s t ∧
    t.input = s.input ∧ t.port = none ∧ t.params = s.params

/-- R231: `CFG_CRC_WRITE(i, v)` in `UNCONFIGURED` writes `T[i]` and `TW[i]` and nothing else. -/
def Obligations.CrcWriteStoresOneEntry : Prop :=
  ∀ s i v, s.mode = .unconfigured → ∃ t, exec (.cfgCrcWrite i v) s = .next t ∧
    t.t.read i.toNat = some v ∧ t.tw.getLsbD i.toNat = true ∧
    (∀ j, j ≠ i.toNat → t.t.read j = s.t.read j ∧ t.tw.getLsbD j = s.tw.getLsbD j) ∧
    t.mode = s.mode ∧ t.p = s.p ∧ t.np = s.np ∧ t.povf = s.povf ∧ t.params = s.params ∧
    SamePos s t ∧ SameFrame s t ∧ SameOutputs s t ∧ SameLanes s t

/-- R232: `CFG_PARAM_PUSH(e)` in `UNCONFIGURED` appends `e`, or sets `POVF` when the table is full. -/
def Obligations.ParamPushAppendsOrOverflows : Prop :=
  ∀ s e, s.mode = .unconfigured → ∃ t, exec (.cfgParamPush e) s = .next t ∧
    (if s.np < s.params.maxFields then
        t.p.read s.np = some e ∧ (∀ k, k ≠ s.np → t.p.read k = s.p.read k) ∧ t.np = s.np + 1 ∧
          t.povf = s.povf
      else t.p = s.p ∧ t.np = s.np ∧ t.povf = true) ∧
    t.mode = s.mode ∧ t.t = s.t ∧ t.tw = s.tw ∧ t.params = s.params ∧
    SamePos s t ∧ SameFrame s t ∧ SameOutputs s t ∧ SameLanes s t

/-- R234 with the verdict of R235: `START` emits the verdict, and `MODE` is `RUN` after `CFG_OK` and
`HALTED` after a load-time error. -/
def Obligations.StartFollowsTheVerdict : Prop :=
  ∀ s r, s.mode = .unconfigured → s.np ≤ s.params.maxFields → ConfigVerdict s r →
    ∃ t, exec .start s = .next t ∧
      t.mode = (match r with
        | .cfgOk _ => Mode.run
        | _ => Mode.halted) ∧
      t.results = s.results ++ [r] ∧ t.traces = s.traces ∧
      t.t = s.t ∧ t.tw = s.tw ∧ t.p = s.p ∧ t.np = s.np ∧ t.povf = s.povf ∧ t.params = s.params ∧
      SamePos s t ∧ SameFrame s t ∧ SameLanes s t

/-- R235 alone: `CFG.CHECK` hands back the verdict and writes no register. -/
def Obligations.CfgCheckHandsBackTheVerdict : Prop :=
  ∀ s r, s.np ≤ s.params.maxFields → ConfigVerdict s r →
    ∃ t, exec .cfgCheck s = .next t ∧ t.port = some (.verdict r) ∧
      SameConfig s t ∧ SamePos s t ∧ SameFrame s t ∧ SameOutputs s t ∧ t.input = s.input

/-- R235: `CFG.CHECK` decides every configuration, and never two ways: what it hands back is the one
verdict that the checks give. -/
def Obligations.ConfigVerdictIsUnique : Prop :=
  ∀ s, s.np ≤ s.params.maxFields → (∀ k, k < s.np → (s.p.read k).isSome = true) →
    ∃ t v, exec .cfgCheck s = .next t ∧ t.port = some (.verdict v) ∧
      ∀ r, t.port = some (.verdict r) ↔ ConfigVerdict s r

/-- R293: from a state that keeps the invariant, a `START` that ends in `RUN` guarantees the tables. -/
def Obligations.StartInRunGuaranteesTables : Prop :=
  ∀ s t, UnitInv s → exec .start s = .next t → t.mode = .run →
    t.results = s.results ++ [.cfgOk s.np] ∧ (∃ f, TableIs t f) ∧ EntriesLegal t t.np

/-- R236: `READ_FRAME` in `RUN` and `IDLE` starts an attempt in `SEEK_SYNC` with empty frame data. -/
def Obligations.ReadFrameStartsWithEmptyBuffers : Prop :=
  ∀ s, s.mode = .run → s.fsm = .idle → ∃ t, exec .readFrame s = .next t ∧
    t.fsm = .seekSync ∧ t.idx = s.idx ∧
    (∀ i, t.hdr.read i = none) ∧ t.hcrc = none ∧ t.plen = none ∧ t.olen = none ∧
    t.ptype = none ∧ (∀ i, t.body.read i = none) ∧
    SameConfig s t ∧ SameOutputs s t ∧ SameLanes s t

/-- R237: `IOERR` ends an attempt with `FrameSyncFailure`, whose info is the value `FSM` had. -/
def Obligations.IoErrorEndsTheAttempt : Prop :=
  ∀ s, s.mode = .run → s.fsm ≠ .idle → ∃ t, exec .ioerr s = .next t ∧
    t.fsm = .idle ∧ t.idx = s.idx ∧ t.results = s.results ++ [.frameSyncFailure s.fsm] ∧
    t.traces = s.traces ∧ SameConfig s t ∧ SameFrame s t ∧ SameLanes s t

/-- R230: an event is refused as "no step" exactly where the acceptance table says so. A frame row is
refused so exactly outside `SEEK_SYNC` in `RUN`, since its first byte would be no sync byte there (the
frame as one instruction is the model's, entry 12), and the two byte rows too, in a state whose `FSM`
agrees with its `MODE` (R43 (a)); `SEEK.SKIP` of a sync byte is none (R141). -/
def Obligations.AcceptanceTableIsExact : Prop :=
  ∀ s i, i.fmt = .event ∨ i.fmt = .frame ∨ (i.fmt = .byte ∧ ModeInv s) →
    (exec i s = .refused .noStep ↔ accepts s i = false)

/-- R76, R43 (e): from `START` to `RESET` no instruction changes `MODE` or a table. -/
def Obligations.TablesAreFrozenAfterStart : Prop :=
  ∀ s t i, s.mode ≠ .unconfigured → i ≠ .reset → exec i s = .next t →
    t.mode = s.mode ∧ t.t = s.t ∧ t.tw = s.tw ∧ t.p = s.p ∧ t.np = s.np ∧ t.povf = s.povf

/-- R252 with the codes of R251: an event emits at most one `Result`; one with a code in 0x0..0x4
exactly when it ends an attempt otherwise than by `RESET`, one with a code in 0x8..0xB exactly when
it is `START`. -/
def Obligations.OneResultPerRequest : Prop :=
  ∀ s t i, i.fmt = .event → exec i s = .next t →
    (t.results = s.results ∧ i ≠ .start ∧ (i ≠ .reset → s.fsm ≠ .idle → t.fsm ≠ .idle)) ∨
      ∃ r, t.results = s.results ++ [r] ∧
        ((i = .start ∧ 8 ≤ (resultCode r).toNat ∧ (resultCode r).toNat ≤ 11) ∨
          (fromByteSource i = true ∧ s.fsm ≠ .idle ∧ t.fsm = .idle ∧ (resultCode r).toNat ≤ 4))

/-! ### The CRC-8 Engine (40_crc8.md) -/

/-- R120, R121: `CRC8` over a total table hands back the CRC of the range, or `OutOfRange` when the
range leaves the sequence, and writes no register. An entry that was never written cannot be read (R22,
K18). -/
def Obligations.CrcOfTheRangeOrOutOfRange : Prop :=
  (∀ s f offset count data, TableIs s f → ∃ t, exec (.crc8 offset count data) s = .next t ∧
    t.port = some (if offset + count ≤ data.length then
        .crc (crcOf f ((data.drop offset).take count)) else .outOfRange) ∧
    SameConfig s t ∧ SamePos s t ∧ SameFrame s t ∧ SameOutputs s t ∧ t.input = s.input) ∧
    ∀ s b, s.t.read b.toNat = none → exec (.crc8 0 1 [b]) s = .fault (.noValue .t)

/-- R122: the incremental law. -/
def Obligations.CrcIsIncremental : Prop :=
  ∀ (m : Memory Byte) (f : Byte → Byte) (data : List Byte) (offset count : Nat) (b : Byte),
    (∀ i : Byte, m.read i.toNat = some (f i)) → data[offset + count]? = some b →
    ∃ c, crc8 m data offset count = .ok c ∧ crc8 m data offset (count + 1) = .ok (f (c ^^^ b))

/-- R124: the result depends only on the table and on the bytes of the range. -/
def Obligations.CrcDependsOnlyOnTheRange : Prop :=
  ∀ (m m' : Memory Byte) (d d' : List Byte) (o o' n : Nat),
    (∀ i, i < 256 → m.read i = m'.read i) → o + n ≤ d.length → o' + n ≤ d'.length →
    (∀ j, j < n → d[o + j]? = d'[o' + j]?) → crc8 m d o n = crc8 m' d' o' n

/-- R123, R128: over an empty range the result is 0, whatever the table holds; over one byte it is
that byte's entry. -/
def Obligations.CrcOfShortRanges : Prop :=
  ∀ (m : Memory Byte) (data : List Byte) (offset : Nat),
    (offset ≤ data.length → crc8 m data offset 0 = .ok 0) ∧
      ∀ b v, data[offset]? = some b → m.read b.toNat = some v → crc8 m data offset 1 = .ok v

/-! ### The Frame Synchronizer (41_frame_sync.md) -/

/-- R140: a byte inside an attempt does what the operation for `FSM` and `IDX` does. -/
def Obligations.ByteDispatchesOnPosition : Prop :=
  ∀ s b, s.mode = .run → s.fsm ≠ .idle → s.idx.toNat ≤ 4 ∨ s.fsm ≠ .readHeader →
    exec (.byte b) s =
      (match s.fsm with
        | .idle => .refused .noStep
        | .seekSync => if b ≠ 0x55 then exec (.seekSkip b) s else exec .seekSync s
        | .readHeader => if s.idx.toNat < 4 then exec (.hdrStore b) s else exec (.hdrCheck b) s
        | .readBody => exec (.bodyStore b) s)

/-- R141, R142: in `SEEK_SYNC` a byte other than 0x55 changes nothing, and 0x55 moves to the header,
stored nowhere; so does the `BYTE` event that carries it. -/
def Obligations.SyncSearchSkipsUntilSync : Prop :=
  ∀ s b, s.mode = .run → s.fsm = .seekSync →
    (b ≠ 0x55 → exec (.seekSkip b) s = .next s ∧ exec (.byte b) s = .next s) ∧
      ∃ t, exec .seekSync s = .next t ∧ exec (.byte 0x55) s = .next t ∧
        t.fsm = .readHeader ∧ t.idx = 0 ∧
        SameConfig s t ∧ SameFrame s t ∧ SameOutputs s t ∧ SameLanes s t

/-- R143: `HDR.STORE(b)`. That it can be run by itself is the model's (entry 5). -/
def Obligations.HeaderByteIsStoredAndCounted : Prop :=
  ∀ s b, s.fsm = .readHeader → s.idx.toNat < 4 → ∃ t, exec (.hdrStore b) s = .next t ∧
    t.hdr.read s.idx.toNat = some b ∧
    (∀ j, j ≠ s.idx.toNat → t.hdr.read j = s.hdr.read j) ∧
    t.idx.toNat = s.idx.toNat + 1 ∧ t.fsm = s.fsm ∧
    t.hcrc = s.hcrc ∧ t.plen = s.plen ∧ t.olen = s.olen ∧ t.ptype = s.ptype ∧ t.body = s.body ∧
    SameConfig s t ∧ SameOutputs s t ∧ SameLanes s t

/-- R144 to R147: a header CRC byte that matches stores the clamped lengths and the packet type and
enters `READ_BODY`. -/
def Obligations.MatchingHeaderEntersBody : Prop :=
  ∀ s f h0 h1 h2 h3, s.fsm = .readHeader → s.idx.toNat = 4 → TableIs s f → HeaderIs s h0 h1 h2 h3 →
    ∃ t, exec (.hdrCheck (crcOf f [h0, h1, h2, h3])) s = .next t ∧
      t.hcrc = some (crcOf f [h0, h1, h2, h3]) ∧ t.ptype = some h3 ∧
      (∃ pl ol, t.plen = some pl ∧ t.olen = some ol ∧
        ClampedTo (h0.toNat * 256 + h1.toNat) h2.toNat pl ol) ∧
      t.fsm = .readBody ∧ t.idx = 0 ∧ t.hdr = s.hdr ∧ t.body = s.body ∧
      SameConfig s t ∧ SameOutputs s t ∧ SameLanes s t

/-- R144, R153, R261: a header CRC byte that does not match is traced, and the search goes on with
the next unread byte; no `Result` is emitted. -/
def Obligations.MismatchingHeaderResynchronizes : Prop :=
  ∀ s f h0 h1 h2 h3 b, s.fsm = .readHeader → s.idx.toNat = 4 → TableIs s f →
    HeaderIs s h0 h1 h2 h3 → b ≠ crcOf f [h0, h1, h2, h3] →
    ∃ t, exec (.hdrCheck b) s = .next t ∧
      t.fsm = .seekSync ∧ t.idx = s.idx ∧ t.hcrc = some b ∧ t.results = s.results ∧
      t.traces = s.traces ++ [.headerCrcMismatch [h0, h1, h2, h3] b] ∧
      t.hdr = s.hdr ∧ t.plen = s.plen ∧ t.olen = s.olen ∧ t.ptype = s.ptype ∧ t.body = s.body ∧
      SameConfig s t ∧ SameLanes s t

/-- R145: `HDR.FIELDS` inside an accepting `HDR.CHECK` writes `PTYPE` and hands on `PL0`, `OL0`. -/
def Obligations.HeaderFieldsAreAssembled : Prop :=
  ∀ s f h0 h1 h2 h3, s.fsm = .readHeader → s.idx.toNat = 4 → TableIs s f →
    HeaderIs s h0 h1 h2 h3 → s.hcrc = some (crcOf f [h0, h1, h2, h3]) →
    ∃ t pl0, exec .hdrFields s = .next t ∧ t.ptype = some h3 ∧
      t.port = some (.lengths pl0 h2) ∧ pl0.toNat = h0.toNat * 256 + h1.toNat ∧
      t.hdr = s.hdr ∧ t.hcrc = s.hcrc ∧ t.plen = s.plen ∧ t.olen = s.olen ∧ t.body = s.body ∧
      SameConfig s t ∧ SamePos s t ∧ SameOutputs s t ∧ t.input = s.input

/-- R146: `LEN.CLAMP`, its three cases; the clamped lengths fit the buffer. -/
def Obligations.LengthsAreClamped : Prop :=
  ∀ s f h0 h1 h2 h3 pt (pl0 : BitVec 16) (ol0 : Byte),
    s.fsm = .readHeader → s.idx.toNat = 4 → TableIs s f → HeaderIs s h0 h1 h2 h3 →
    s.hcrc = some (crcOf f [h0, h1, h2, h3]) → s.ptype = some pt →
    ∃ t pl ol, exec (.lenClamp pl0 ol0) s = .next t ∧ t.plen = some pl ∧ t.olen = some ol ∧
      ClampedTo pl0.toNat ol0.toNat pl ol ∧
      pl.toNat ≤ 128 ∧ pl.toNat + ol.toNat ≤ 128 ∧
      t.hdr = s.hdr ∧ t.hcrc = s.hcrc ∧ t.ptype = s.ptype ∧ t.body = s.body ∧
      SameConfig s t ∧ SamePos s t ∧ SameOutputs s t ∧ SameLanes s t

/-- R147: `BODY.ENTER`. -/
def Obligations.BodyIsEnteredAtItsStart : Prop :=
  ∀ s f h0 h1 h2 h3 pt pl ol,
    s.fsm = .readHeader → s.idx.toNat = 4 → TableIs s f → HeaderIs s h0 h1 h2 h3 →
    s.hcrc = some (crcOf f [h0, h1, h2, h3]) → s.ptype = some pt → s.plen = some pl →
    s.olen = some ol →
    ∃ t, exec .bodyEnter s = .next t ∧ t.fsm = .readBody ∧ t.idx = 0 ∧
      SameConfig s t ∧ SameFrame s t ∧ SameOutputs s t ∧ SameLanes s t

/-- R148: before the last byte of the body buffer, `BODY.STORE(b)` stores and counts. -/
def Obligations.BodyByteIsStoredAndCounted : Prop :=
  ∀ s b pl ol, s.fsm = .readBody → s.plen = some pl → s.olen = some ol →
    pl.toNat + ol.toNat ≤ 128 → s.idx.toNat < pl.toNat + ol.toNat →
    ∃ t, exec (.bodyStore b) s = .next t ∧
      t.body.read s.idx.toNat = some b ∧
      (∀ j, j ≠ s.idx.toNat → t.body.read j = s.body.read j) ∧
      t.idx.toNat = s.idx.toNat + 1 ∧ t.fsm = s.fsm ∧
      t.hdr = s.hdr ∧ t.hcrc = s.hcrc ∧ t.plen = s.plen ∧ t.olen = s.olen ∧ t.ptype = s.ptype ∧
      SameConfig s t ∧ SameOutputs s t ∧ SameLanes s t

/-- R148 to R150, R253: the last byte of the body buffer, when it is not the CRC of the bytes before
it, ends the attempt with `InvalidDataCrc`, whatever the packet type. That the dead frame data stay in
place in `IDLE` is the model's (entry 2). -/
def Obligations.BadDataCrcEndsTheAttempt : Prop :=
  ∀ s f b pl ol bs, s.fsm = .readBody → s.plen = some pl → s.olen = some ol →
    pl.toNat + ol.toNat ≤ 128 → s.idx.toNat = pl.toNat + ol.toNat → TableIs s f →
    bs.length = pl.toNat + ol.toNat → BodyIs s bs → b ≠ crcOf f bs →
    ∃ t, exec (.bodyStore b) s = .next t ∧
      t.results = s.results ++ [.invalidDataCrc] ∧ t.traces = s.traces ∧
      t.fsm = .idle ∧ t.idx = s.idx ∧ t.body.read s.idx.toNat = some b ∧
      (∀ j, j ≠ s.idx.toNat → t.body.read j = s.body.read j) ∧
      t.hdr = s.hdr ∧ t.hcrc = s.hcrc ∧ t.plen = s.plen ∧ t.olen = s.olen ∧ t.ptype = s.ptype ∧
      SameConfig s t ∧ SameLanes s t

/-- R149 alone: `BODY.CHECK` on a body buffer `bs` followed by `dc`. A mismatch emits
`InvalidDataCrc`; a match traces `FrameAccepted` and emits what `TG.DECODE` emits. -/
def Obligations.BodyCheckDecidesOnTheDataCrc : Prop :=
  ∀ s f pl ol pt hc bs dc, s.fsm = .readBody → s.plen = some pl → s.olen = some ol →
    s.ptype = some pt → s.hcrc = some hc → pl.toNat + ol.toNat ≤ 128 →
    s.idx.toNat = pl.toNat + ol.toNat → TableIs s f →
    bs.length = pl.toNat + ol.toNat → BodyIs s (bs ++ [dc]) →
    s.np ≤ s.params.maxFields → EntriesLegal s s.np →
    ∃ t, exec .bodyCheck s = .next t ∧
      (if dc = crcOf f bs then
          t.traces = s.traces ++ [.frameAccepted pl ol pt hc] ∧
            ∃ u, exec .tgDecode s = .next u ∧ t.results = u.results
        else t.traces = s.traces ∧ t.results = s.results ++ [.invalidDataCrc]) ∧
      SameConfig s t ∧ SamePos s t ∧ SameFrame s t ∧ SameLanes s t

/-- R148 to R150: the last byte of the body buffer, when it is the CRC of the bytes before it, is
stored, and the attempt ends with the frame traced and with the `Result` of `TG.DECODE`. That the dead
frame data stay in place in `IDLE` is the model's (entry 2). -/
def Obligations.GoodDataCrcDecodesAndEnds : Prop :=
  ∀ s f pl ol pt hc bs, s.fsm = .readBody → s.plen = some pl → s.olen = some ol →
    s.ptype = some pt → s.hcrc = some hc → pl.toNat + ol.toNat ≤ 128 →
    s.idx.toNat = pl.toNat + ol.toNat → TableIs s f →
    bs.length = pl.toNat + ol.toNat → BodyIs s bs →
    s.np ≤ s.params.maxFields → EntriesLegal s s.np →
    ∃ t u, exec (.bodyStore (crcOf f bs)) s = .next t ∧
      exec .tgDecode { s with body := s.body.write s.idx.toNat (crcOf f bs) } = .next u ∧
      t.results = u.results ∧ u.results.length = s.results.length + 1 ∧
      t.traces = s.traces ++ [.frameAccepted pl ol pt hc] ∧ t.fsm = .idle ∧ t.idx = s.idx ∧
      t.body.read s.idx.toNat = some (crcOf f bs) ∧
      (∀ j, j ≠ s.idx.toNat → t.body.read j = s.body.read j) ∧
      t.hdr = s.hdr ∧ t.hcrc = s.hcrc ∧ t.plen = s.plen ∧ t.olen = s.olen ∧ t.ptype = s.ptype ∧
      SameConfig s t ∧ SameLanes s t

/-- R150: `FRAME.END` once the data CRC byte is stored. -/
def Obligations.FrameEndReturnsToIdle : Prop :=
  ∀ s pl ol dc, s.fsm = .readBody → s.plen = some pl → s.olen = some ol →
    s.idx.toNat = pl.toNat + ol.toNat → s.body.read s.idx.toNat = some dc →
    ∃ t, exec .frameEnd s = .next t ∧ t.fsm = .idle ∧ t.idx = s.idx ∧
      SameConfig s t ∧ SameFrame s t ∧ SameOutputs s t ∧ SameLanes s t

/-! ### The Telegram Decoder (42_telegram_decode.md) -/

/-- R181: the packet-type filter. A read of it where it
holds no value is a fault (R34, K14). -/
def Obligations.PacketTypeFilterPassesOnlyRadioAdvanced : Prop :=
  (∀ s pt, s.fsm ≠ .idle → s.ptype = some pt → ∃ t, exec .tgPtype s = .next t ∧
    (if pt = 0x0A then t.results = s.results ∧ t.port = some .pass
      else t.results = s.results ++ [.none] ∧ t.port = some .decodeEnded) ∧
    t.traces = s.traces ∧ SameConfig s t ∧ SamePos s t ∧ SameFrame s t ∧ t.input = s.input) ∧
    ∀ s, s.fsm ≠ .idle → s.ptype = none → exec .tgPtype s = .fault (.noValue .ptype)

/-- R182: the telegram-type filter reads `BODY[0]`, whatever `PLEN` is. A read of it where it
holds no value is a fault (R34, K14). -/
def Obligations.TelegramTypeFilterReadsBodyZero : Prop :=
  (∀ s tt, s.fsm ≠ .idle → s.body.read 0 = some tt → ∃ t, exec .tgTtype s = .next t ∧
    (if tt = 0x24 then t.results = s.results ∧ t.port = some (.telegramType 0x24)
      else t.results = s.results ++ [.none] ∧ t.port = some .decodeEnded) ∧
    t.traces = s.traces ∧ SameConfig s t ∧ SamePos s t ∧ SameFrame s t ∧ t.input = s.input) ∧
    ∀ s, s.fsm ≠ .idle → s.body.read 0 = none → exec .tgTtype s = .fault (.noValue .body)

/-- R183: the length guard admits exactly 15, where `actual_data_length` is 9. A read of it where it
holds no value is a fault (R34, K14). -/
def Obligations.LengthGuardAdmitsOnlyFifteen : Prop :=
  (∀ s (pl : BitVec 16), s.fsm ≠ .idle → s.plen = some pl → ∃ t, exec .tgLguard s = .next t ∧
    (if pl.toNat = 15 then t.results = s.results ∧ t.port = some (.dataLength 9)
      else t.results = s.results ++ [.unsupportedDataLength pl] ∧ t.port = some .decodeEnded) ∧
    t.traces = s.traces ∧ SameConfig s t ∧ SamePos s t ∧ SameFrame s t ∧ t.input = s.input) ∧
    ∀ s, s.fsm ≠ .idle → s.plen = none → exec .tgLguard s = .fault (.noValue .plen)

/-- R184, R97, R185: `TG.BITCAT` hands back `B` with `B[k] = BODY[5 + k div 8][7 - k mod 8]`; as one
integer it is the nine bytes, `BODY[5]` most significant. -/
def Obligations.BitStringIsMostSignificantFirst : Prop :=
  ∀ s (d : Fin 9 → Byte), s.fsm ≠ .idle → (∀ j : Fin 9, s.body.read (5 + j.val) = some (d j)) →
    ∃ t b, exec .tgBitcat s = .next t ∧ t.port = some (.bits b) ∧
      (∀ k : Fin 72, b.getMsbD k.val =
        (d ⟨k.val / 8, by omega⟩).getLsbD (7 - k.val % 8)) ∧
      b.toNat = natOfBytes (List.ofFn d) ∧
      SameConfig s t ∧ SamePos s t ∧ SameFrame s t ∧ SameOutputs s t ∧ t.input = s.input

/-- R180, R260: `TG.DECODE` makes its tests in order and emits exactly one `Result`; a frame that
passes all of them gives the measurements of its sensor bytes, one for each entry in table order. -/
def Obligations.DecodeTestsInOrder : Prop :=
  ∀ s pt tt (pl : BitVec 16) bs, s.fsm ≠ .idle → s.ptype = some pt → s.body.read 0 = some tt →
    s.plen = some pl →
    (pt = 0x0A → tt = 0x24 → pl.toNat = 15 →
      bs.length = 9 ∧ (∀ j, j < 9 → s.body.read (5 + j) = bs[j]?) ∧
        s.np ≤ s.params.maxFields ∧ EntriesLegal s s.np) →
    ∃ t r, exec .tgDecode s = .next t ∧ t.results = s.results ++ [r] ∧
      (if pt ≠ 0x0A then r = .none
        else if tt ≠ 0x24 then r = .none
        else if pl.toNat ≠ 15 then r = .unsupportedDataLength pl
        else ∃ ms, r = .measurements ms ∧ MeasurementsOf s (natOfBytes bs) ms) ∧
      t.traces = s.traces ∧ SameConfig s t ∧ SamePos s t ∧ SameFrame s t ∧ SameLanes s t

/-! ### The Field Decoder and Linear Scaler (43_field_scale.md) -/

/-- R200: `FD.FIELDS` hands back one measurement for each entry, in table order. -/
def Obligations.FieldsFollowTableOrder : Prop :=
  ∀ s b, s.np ≤ s.params.maxFields → EntriesLegal s s.np →
    ∃ t ms, exec (.fdFields b) s = .next t ∧ t.port = some (.measurements ms) ∧
      MeasurementsOf s b.toNat ms ∧
      SameConfig s t ∧ SamePos s t ∧ SameFrame s t ∧ SameOutputs s t ∧ t.input = s.input

/-- R201: for a field inside the 72 bits, `raw = (V >> (72 - off - w)) AND (2^w - 1)`, which is the sum
over the bits of the field, first bit most significant. The port is the model's (entry 5). -/
def Obligations.ExtractedFieldIsShiftAndMask : Prop :=
  ∀ s (b : BitString) (off w : BitVec 7), 1 ≤ w.toNat → off.toNat + w.toNat ≤ 72 →
    ∃ t raw, exec (.fdExtract b off w) s = .next t ∧ t.port = some (.raw raw) ∧
      raw = (b.toNat >>> (72 - off.toNat - w.toNat)) &&& (2 ^ w.toNat - 1) ∧
      raw = ∑ j ∈ Finset.range w.toNat, (b.getMsbD (off.toNat + j)).toNat * 2 ^ (w.toNat - 1 - j) ∧
      SameConfig s t ∧ SamePos s t ∧ SameFrame s t ∧ SameOutputs s t ∧ t.input = s.input

/-- The model's free values (entry 9): an empty field runs, and so does a field that reaches beyond
`B[71]`, whose `raw` is below `2^w` (R201); no register is written. -/
def Obligations.ExtractOutsideTheTable : Prop :=
  ∀ s (b : BitString) (off w : BitVec 7), w.toNat = 0 ∨ off.toNat + w.toNat > 72 →
    ∃ t raw, exec (.fdExtract b off w) s = .next t ∧ t.port = some (.raw raw) ∧
      (1 ≤ w.toNat → raw < 2 ^ w.toNat) ∧
      SameConfig s t ∧ SamePos s t ∧ SameFrame s t ∧ SameOutputs s t ∧ t.input = s.input

/-- R202 to R206: `FD.SLOPE` and `FD.OFFSET` compute the spec's formulas, the offset with only its
second product divided, and fault where `raw_min = raw_max`. -/
def Obligations.SlopeAndOffsetFormulas : Prop :=
  ∀ s p n, n = numOps s.params.num →
    (p.rawMin ≠ p.rawMax →
      (∃ t, exec (.fdSlope p) s = .next t ∧
        t.port = some (.num (n.fdiv (n.fsub p.scaleMin p.scaleMax) (n.i2f (p.rawMin - p.rawMax)))) ∧
        SameConfig s t ∧ SamePos s t ∧ SameFrame s t ∧ SameOutputs s t ∧ t.input = s.input) ∧
      (∃ t, exec (.fdOffset p) s = .next t ∧
        t.port = some (.num (n.fsub (n.fmul (n.i2f p.rawMin) p.scaleMax)
          (n.fdiv (n.fmul (n.i2f p.rawMax) p.scaleMin) (n.i2f (p.rawMin - p.rawMax))))) ∧
        SameConfig s t ∧ SamePos s t ∧ SameFrame s t ∧ SameOutputs s t ∧ t.input = s.input)) ∧
    (p.rawMin = p.rawMax →
      exec (.fdSlope p) s = .fault .divisionByZero ∧ exec (.fdOffset p) s = .fault .divisionByZero)

/-- R204, R205, R209: `FD.SCALE` is one product and one sum, clamped nowhere; `FD.EMIT` copies the
tags. -/
def Obligations.ScaleAndEmit : Prop :=
  ∀ s raw slope offset p value n, n = numOps s.params.num →
    (∃ t, exec (.fdScale raw slope offset) s = .next t ∧
      t.port = some (.num (n.fadd (n.fmul (n.i2f raw.toNat) slope) offset)) ∧
      SameConfig s t ∧ SamePos s t ∧ SameFrame s t ∧ SameOutputs s t ∧ t.input = s.input) ∧
    (∃ t, exec (.fdEmit p value) s = .next t ∧
      t.port = some (.measurement { name := p.name, value := value, unit := p.unit }) ∧
      SameConfig s t ∧ SamePos s t ∧ SameFrame s t ∧ SameOutputs s t ∧ t.input = s.input)

/-- R208: in exact arithmetic, the closed form; an entry with `raw_min = 0` interpolates, so that 0
gives `scale_min` and `raw_max` gives `scale_max`; the value at `raw_min` in general. A unit built with
rationals (entry 6) computes that value. -/
def Obligations.RationalClosedForm : Prop :=
  ∀ (a b : Int) (s t : Rat) (raw : Nat) (value : Rat), a ≠ b →
    value = scaleOf rational raw (slopeOf rational a b s t) (offsetOf rational a b s t) →
    value = raw * (s - t) / (a - b) + a * t - b * s / (a - b) ∧
      (a = 0 → value = s + raw * (t - s) / b ∧ (raw = 0 → value = s) ∧ ((raw : Int) = b → value = t)) ∧
      ((raw : Int) = a → value = a * t + (a * s - a * t - b * s) / (a - b)) ∧
      scaleOf (numOps .rational) raw (slopeOf (numOps .rational) a b (.rat s) (.rat t))
        (offsetOf (numOps .rational) a b (.rat s) (.rat t)) = .rat value

/-- R210: in binary64, `I2F` is exact for magnitudes up to 2^53. -/
def Obligations.SmallIntegersConvertExactly : Prop :=
  ∀ n : Int, n.natAbs ≤ 2 ^ 53 → f64Value (binary64.i2f n) = some (n : Rat)

/-- R210: `I2F`, `fsub`, `fmul` and `fadd` round to nearest, ties to even, for finite operands, and an
overflow gives the infinity of its sign. Signed zeros follow IEEE 754, `0.0 - (-0.0) = +0.0`: a sum that
is exactly zero is negative only where both operands are, and a difference is the sum with the sign of
the second turned. `finite` is false for infinities and NaNs, and these run on as IEEE 754 says. -/
def Obligations.SumsAndProductsRoundToNearestEven : Prop :=
  (∀ n : Int, NearestEven (binary64.i2f n) n) ∧ binary64.i2f 0 = f64Zero false ∧
    (∀ x, binary64.finite x = (f64Value x).isSome) ∧
    (∀ x y a b, f64Value x = some a → f64Value y = some b →
      NearestEven (binary64.fsub x y) (a - b) ∧ NearestEven (binary64.fmul x y) (a * b) ∧
        NearestEven (binary64.fadd x y) (a + b) ∧
        (a + b = 0 → binary64.fadd x y = f64Zero (x.msb && y.msb)) ∧
        (binary64.fmul x y).msb = (x.msb != y.msb)) ∧
    (∀ x y, F64.unpack (binary64.fsub x y) =
      F64.unpack (binary64.fadd x (y ^^^ f64Zero true))) ∧
    ∀ x y, F64.unpack (binary64.fadd x y) = F64.unpack (binary64.fadd y x) ∧
      F64.unpack (binary64.fmul x y) = F64.unpack (binary64.fmul y x) ∧
      (F64.unpack x = .nan →
        F64.unpack (binary64.fadd x y) = .nan ∧ F64.unpack (binary64.fmul x y) = .nan) ∧
      ∀ p, F64.unpack x = .inf p →
        (F64.unpack y = .inf (!p) → F64.unpack (binary64.fadd x y) = .nan) ∧
        (F64.unpack y = .inf p ∨ (f64Value y).isSome = true →
          F64.unpack (binary64.fadd x y) = .inf p) ∧
        (f64Value y = some 0 → F64.unpack (binary64.fmul x y) = .nan) ∧
        (F64.unpack y ≠ .nan → f64Value y ≠ some 0 →
          F64.unpack (binary64.fmul x y) = .inf (p != y.msb))

/-- R210: `fdiv` rounds to nearest, ties to even, for finite operands and a divisor that is not zero,
and an overflow gives the infinity of its sign; a quotient has the sign of its operands' signs, zeros
included. Infinities and NaNs run on as IEEE 754 says. A divisor of zero does not occur (R206). -/
def Obligations.QuotientsRoundToNearestEven : Prop :=
  (∀ x y a b, f64Value x = some a → f64Value y = some b → b ≠ 0 →
    NearestEven (binary64.fdiv x y) (a / b) ∧ (binary64.fdiv x y).msb = (x.msb != y.msb)) ∧
  ∀ x y, (F64.unpack x = .nan ∨ F64.unpack y = .nan → F64.unpack (binary64.fdiv x y) = .nan) ∧
    ∀ p, F64.unpack x = .inf p →
      (∀ q, F64.unpack y = .inf q → F64.unpack (binary64.fdiv x y) = .nan) ∧
      (∀ b, f64Value y = some b →
        F64.unpack (binary64.fdiv x y) = .inf (p != y.msb)) ∧
      (∀ b, f64Value y = some b → binary64.fdiv y x = f64Zero (y.msb != p))

/-! ### Frames as instructions (30_encoding.md) -/

/-- R104, R184, R200: an accepted `F.VLD9` frame yields the measurements of `BODY[5..13]`. That a frame
is run in one step is the model's (entry 12), and that the dead frame data stay in place in `IDLE`
(`FrameHeld`) is too (entry 2). -/
def Obligations.VldFrameYieldsMeasurements : Prop :=
  ∀ s f (ol hc : Byte) rest body, s.mode = .run → s.fsm = .seekSync → TableIs s f →
    s.np ≤ s.params.maxFields → EntriesLegal s s.np →
    (Instr.fVld9 ol hc rest).wf s.params = true → hc = crcOf f [0, 15, ol, 0x0A] →
    0x24 :: rest = body ++ [crcOf f body] →
    ∃ t ms ol', exec (.fVld9 ol hc rest) s = .next t ∧
      t.results = s.results ++ [.measurements ms] ∧
      MeasurementsOf s (natOfBytes ((body.drop 5).take 9)) ms ∧
      ol'.toNat = min ol.toNat 113 ∧ t.traces = s.traces ++ [.frameAccepted 15 ol' 0x0A hc] ∧
      FrameHeld s t 0 15 ol 0x0A hc 15 ol' (0x24 :: rest) ∧ SameConfig s t ∧ SameLanes s t

/-- R104, R183, R255: an accepted `F.VLD9.BADLEN` frame yields `UnsupportedDataLength` with the
clamped length and no measurement. The frame in one step is the model's (entry 12), and so are the
frame data in `IDLE` (entry 2). -/
def Obligations.BadLengthFrameIsUnsupported : Prop :=
  ∀ s f (hi lo ol hc : Byte) rest body, s.mode = .run → s.fsm = .seekSync → TableIs s f →
    (Instr.fVld9BadLen (hi ++ lo) ol hc rest).wf s.params = true → hc = crcOf f [hi, lo, ol, 0x0A] →
    0x24 :: rest = body ++ [crcOf f body] →
    ∃ t pl' ol', exec (.fVld9BadLen (hi ++ lo) ol hc rest) s = .next t ∧
      t.results = s.results ++ [.unsupportedDataLength pl'] ∧
      ClampedTo (hi.toNat * 256 + lo.toNat) ol.toNat pl' ol' ∧
      t.traces = s.traces ++ [.frameAccepted pl' ol' 0x0A hc] ∧
      FrameHeld s t hi lo ol 0x0A hc pl' ol' (0x24 :: rest) ∧ SameConfig s t ∧ SameLanes s t

/-- R104, R181, R182, R254: accepted frames of another telegram type or another packet type are
ignored: `NONE`, no measurement and no error, whatever the payload. The frame in one step is the
model's (entry 12), and so are the frame data in `IDLE` (entry 2). -/
def Obligations.OtherFramesAreIgnored : Prop :=
  ∀ s f (hi lo ol pt hc g : Byte) rest body, s.mode = .run → s.fsm = .seekSync →
    TableIs s f → g :: rest = body ++ [crcOf f body] →
    ((Instr.fRadioOther (hi ++ lo) ol hc g rest).wf s.params = true →
        hc = crcOf f [hi, lo, ol, 0x0A] →
      ∃ t pl' ol', exec (.fRadioOther (hi ++ lo) ol hc g rest) s = .next t ∧
        t.results = s.results ++ [.none] ∧
        ClampedTo (hi.toNat * 256 + lo.toNat) ol.toNat pl' ol' ∧
        t.traces = s.traces ++ [.frameAccepted pl' ol' 0x0A hc] ∧
        FrameHeld s t hi lo ol 0x0A hc pl' ol' (g :: rest) ∧ SameConfig s t ∧ SameLanes s t) ∧
    ((Instr.fOther (hi ++ lo) ol pt hc g rest).wf s.params = true →
        hc = crcOf f [hi, lo, ol, pt] →
      ∃ t pl' ol', exec (.fOther (hi ++ lo) ol pt hc g rest) s = .next t ∧
        t.results = s.results ++ [.none] ∧
        ClampedTo (hi.toNat * 256 + lo.toNat) ol.toNat pl' ol' ∧
        t.traces = s.traces ++ [.frameAccepted pl' ol' pt hc] ∧
        FrameHeld s t hi lo ol pt hc pl' ol' (g :: rest) ∧ SameConfig s t ∧ SameLanes s t)

/-- R95, R144, R153: of a frame whose header CRC is bad the unit takes exactly six bytes; the rest
stays in the stream, before all later inputs, and the attempt goes on. How the rest is put back into
the model's queue is the model's (entry 12). -/
def Obligations.RejectedFrameCostsSixBytes : Prop :=
  ∀ s f i h0 h1 h2 h3 b rest, s.mode = .run → s.fsm = .seekSync → TableIs s f →
    i.fmt = .frame → encode s.params i = 0x55 :: h0 :: h1 :: h2 :: h3 :: b :: rest →
    b ≠ crcOf f [h0, h1, h2, h3] →
    ∃ t, exec i s = .next t ∧ t.fsm = .seekSync ∧ t.idx = 4 ∧ t.results = s.results ∧
      t.traces = s.traces ++ [.headerCrcMismatch [h0, h1, h2, h3] b] ∧
      t.input = { fmt := .event, bytes := rest.flatMap fun x => encode s.params (.byte x) } :: s.input ∧
      HeaderIs t h0 h1 h2 h3 ∧ (∀ j, 4 ≤ j → t.hdr.read j = s.hdr.read j) ∧
      t.hcrc = some b ∧ t.plen = s.plen ∧ t.olen = s.olen ∧
      t.ptype = s.ptype ∧ t.body = s.body ∧ t.port = s.port ∧ SameConfig s t

/-- R2, R90, R152: a frame with a good header CRC does what its bytes do one by one. It is the model's
reading of a frame as one instruction (entry 12) that is stated here. -/
def Obligations.FrameEqualsItsBytes : Prop :=
  ∀ s f i h0 h1 h2 h3 rest, s.mode = .run → s.fsm = .seekSync → TableIs s f →
    i.fmt = .frame → i.wf s.params = true →
    encode s.params i = 0x55 :: h0 :: h1 :: h2 :: h3 :: crcOf f [h0, h1, h2, h3] :: rest →
    exec i s = runAll ((encode s.params i).map Instr.byte) s

/-- R95: a frame that the unit takes whole is `7 + PLEN + OLEN` bytes, 7 to 135. -/
def Obligations.FrameLengthBounds : Prop :=
  ∀ c i h0 h1 h2 h3 rest, i.fmt = .frame → i.wf c = true →
    encode c i = 0x55 :: h0 :: h1 :: h2 :: h3 :: rest →
    (∃ pl ol, ClampedTo (h0.toNat * 256 + h1.toNat) h2.toNat pl ol ∧
        (encode c i).length = 7 + pl.toNat + ol.toNat) ∧
      7 ≤ (encode c i).length ∧ (encode c i).length ≤ 135

/-! ### Encoding -/

/-- Decoding an encoded well-formed instruction gives it back, and the bytes behind it. -/
def Obligations.DecodeOfEncodeIsTheInstruction : Prop :=
  ∀ c i tail, i.wf c = true → decode c i.fmt (encode c i ++ tail) = some (i, tail)

/-- What the decoder reads in an instruction's own format is that instruction's encoding, and the
instruction is well-formed. -/
def Obligations.DecodedBytesAreTheEncoding : Prop :=
  ∀ c f bs i tail, decode c f bs = some (i, tail) →
    i.wf c = true ∧ (i.fmt = f → bs = encode c i ++ tail)

/-- R102, R104: the decoder puts a frame in the first class of the table that matches its prefix. -/
def Obligations.FrameClassFollowsTheTable : Prop :=
  ∀ c hi lo ol pt hc g bs i tail,
    decode c .frame (0x55 :: hi :: lo :: ol :: pt :: hc :: g :: bs) = some (i, tail) →
    ∃ rest, i =
      (if pt = 0x0A ∧ g = 0x24 ∧ hi = 0 ∧ lo = 15 then .fVld9 ol hc rest
        else if pt = 0x0A ∧ g = 0x24 then .fVld9BadLen (hi ++ lo) ol hc rest
        else if pt = 0x0A then .fRadioOther (hi ++ lo) ol hc g rest
        else .fOther (hi ++ lo) ol pt hc g rest)

/-- Words of the opcode table, written out from R103, R110, R112, R113, decode to their rows. -/
def Obligations.TableWordsDecodeToTheirRows : Prop :=
  decodeTableWord 8 0x00 = some .reset ∧ decodeTableWord 8 0x04 = some .readFrame ∧
    decodeTableWord 8 0x06 = some .ioerr ∧ decodeTableWord 8 0x55 = some .seekSync ∧
    decodeTableWord 8 0xAA = some (.seekSkip 0xAA) ∧
    decodeTableWord 56 0x55000001010024 = some (.fOther 0 1 1 0 0x24 [0]) ∧
    decodeTableWord 56 0x550001000A0724 = some (.fVld9BadLen 1 0 7 [0]) ∧
    decodeTableWord 8 0x94 = some .hdrFields ∧ decodeTableWord 8 0xA4 = some .tgBitcat ∧
    decodeTableWord 8 0xC0 = some .cfgCheck

/-! ### The machine -/

/-- R68, R73, R230, R239: the inputs of the queue come to their turn in the order of arrival, and `step`
is the meaning of the first one that has a step, on the state that has taken its bytes; inputs without
one before it change nothing, and of them the bytes stay in the queue, in order (R61, R301). Where no
input has a step, `step` is the refusal; bytes that spell no input are refused at their turn (K16). With
no input the unit waits and starts nothing by itself (R155, R236, K7). The queue is the model's (entry
3), how a stream burst is read is (entry 12), and so is that an event without a step is ignored (entry
14). -/
def Obligations.StepRunsTheDecodedInstruction : Prop :=
  ∀ s, (s.input = [] → step s = .refused .waiting) ∧
    ∀ kept rest, Passed s s.input kept rest →
      (s.input ≠ [] → rest = [] → step s = .refused .noStep) ∧
      ∀ b q, rest = b :: q →
        ((∀ i tail, ¬ NextIs s b i tail) → step s = .refused .badEncoding) ∧
        ∀ i tail, NextIs s b i tail → (sentByByteSource b.fmt i = true → kept = []) →
          exec i s ≠ .refused .noStep →
          step s = exec i { s with
            input := kept ++ (if tail = [] then q else { fmt := b.fmt, bytes := tail } :: q) }

/-- R43, R24: every instruction, from every state that keeps the invariant, leads to one that keeps it. -/
def Obligations.EveryStepKeepsTheInvariant : Prop :=
  ∀ s t, UnitInv s → step s = .next t → UnitInv t

/-- R43 at reset. -/
def Obligations.ResetSatisfiesTheInvariant : Prop := UnitInv State.reset

/-- R157, R126, R206, R305: from a state that keeps the invariant, an accepted event, byte or frame
always completes: nothing without a value is read, no index leaves its space, nothing is divided by
zero. R239: so every sequence of them runs to its end, whatever the host and the byte source send, each
with its step or with none. -/
def Obligations.AcceptedEventsComplete : Prop :=
  (∀ s i, UnitInv s → accepts s i = true → ∃ t, exec i s = .next t) ∧
    ∀ s is, UnitInv s → (∀ i ∈ is, i.fmt ≠ .op ∧ i.wf s.params = true) →
      ∃ t, runAll is s = .next t

/-- R303: the records an attempt emits depend on the configuration and on what the byte source
delivers in it, and on nothing that was there before. -/
def Obligations.NoCarryOverBetweenAttempts : Prop :=
  ∀ s₁ s₂ is u₁, SameConfig s₁ s₂ → s₁.mode = .run → s₁.fsm = .idle → s₂.fsm = .idle →
    (∀ i ∈ is, fromByteSource i = true) → runAll (.readFrame :: is) s₁ = .next u₁ →
    ∃ u₂ rs ts, runAll (.readFrame :: is) s₂ = .next u₂ ∧
      u₁.results = s₁.results ++ rs ∧ u₂.results = s₂.results ++ rs ∧
      u₁.traces = s₁.traces ++ ts ∧ u₂.traces = s₂.traces ++ ts ∧ u₁.fsm = u₂.fsm

/-- R9, R10, R39: no instruction changes the parameters, and only a frame puts bytes back. -/
def Obligations.ParametersAndQueueAreNotWritten : Prop :=
  ∀ s t i, exec i s = .next t →
    t.params = s.params ∧ (i.fmt ≠ .frame → t.input = s.input)
end

