-- ==== Sys2Proof/Laws/Memory.lean ====
section
/-! SUPPORT. The laws of the storage arrays: a read after a write, and the canonical form. -/

namespace Sys2Proof.Machine

variable {α : Type}

@[simp] theorem Memory.read_nil (i : Nat) : Memory.read ([] : Memory α) i = none := rfl

theorem Memory.read_cons (c : Nat × α) (m : Memory α) (i : Nat) :
    Memory.read (c :: m) i = if c.1 = i then some c.2 else Memory.read m i := rfl

/-- A write changes what its own index holds and nothing else. -/
theorem Memory.read_write (m : Memory α) (i j : Nat) (v : α) :
    (m.write i v).read j = if j = i then some v else m.read j := by
  induction m with
  | nil => simp [Memory.write, Memory.read_cons, eq_comm]
  | cons c m ih =>
    by_cases h1 : i < c.1
    · simp [Memory.write, h1, Memory.read_cons, eq_comm]
    · by_cases h2 : i = c.1
      · subst h2
        simp only [Memory.write, lt_irrefl, if_true, if_false, Memory.read_cons]
        by_cases h3 : c.1 = j
        · simp [h3]
        · simp [h3, Ne.symm h3]
      · simp only [Memory.write, h1, h2, if_false, Memory.read_cons, ih]
        by_cases h3 : c.1 = j
        · have : j ≠ i := fun h => h2 (h ▸ h3.symm)
          simp [h3, this]
        · simp [h3]

theorem Memory.read_write_same (m : Memory α) (i : Nat) (v : α) : (m.write i v).read i = some v := by
  simp [Memory.read_write]

theorem Memory.read_write_other (m : Memory α) {i j : Nat} (h : j ≠ i) (v : α) :
    (m.write i v).read j = m.read j := by
  simp [Memory.read_write, h]

theorem Memory.wf_cons {c : Nat × α} {m : Memory α} :
    Memory.wf (c :: m) = true ↔ (∀ d ∈ m.head?, c.1 < d.1) ∧ Memory.wf m = true := by
  cases m with
  | nil => simp [Memory.wf]
  | cons d m => simp [Memory.wf]

/-- The first index of a written array is the written one or the old first one. -/
theorem Memory.head_write (m : Memory α) (i : Nat) (v : α) :
    ∀ d ∈ (m.write i v).head?, d.1 = i ∨ ∃ c ∈ m.head?, d.1 = c.1 := by
  cases m with
  | nil => simp [Memory.write]
  | cons c m =>
    by_cases h1 : i < c.1
    · simp [Memory.write, h1]
    · by_cases h2 : i = c.1 <;> simp [Memory.write, h1, h2]

/-- Every write keeps the canonical form. -/
theorem Memory.wf_write (m : Memory α) (i : Nat) (v : α) (h : m.wf = true) :
    (m.write i v).wf = true := by
  induction m with
  | nil => rfl
  | cons c m ih =>
    obtain ⟨hc, hm⟩ := Memory.wf_cons.1 h
    by_cases h1 : i < c.1
    · simp only [Memory.write, h1, if_true]
      exact Memory.wf_cons.2 ⟨by simp [h1], h⟩
    · by_cases h2 : i = c.1
      · subst h2
        simp only [Memory.write, lt_irrefl, if_true, if_false]
        exact Memory.wf_cons.2 ⟨hc, hm⟩
      · simp only [Memory.write, h1, h2, if_false]
        refine Memory.wf_cons.2 ⟨fun d hd => ?_, ih hm⟩
        rcases Memory.head_write m i v d hd with h3 | ⟨e, he, h3⟩
        · rw [h3]; omega
        · rw [h3]; exact hc e he

/-- Beyond its last index an array holds no value. -/
theorem Memory.read_eq_none (m : Memory α) (n : Nat) (h : ∀ c ∈ m, c.1 < n) {i : Nat} (hi : n ≤ i) :
    m.read i = none := by
  induction m with
  | nil => rfl
  | cons c m ih =>
    have hc := h c (by simp)
    rw [Memory.read_cons, if_neg (by omega), ih fun d hd => h d (by simp [hd])]

/-- Every array of the reset state has the canonical form. -/
theorem reset_memory_wf :
    State.reset.t.wf = true ∧ State.reset.p.wf = true ∧ State.reset.hdr.wf = true ∧
      State.reset.body.wf = true := ⟨rfl, rfl, rfl, rfl⟩

end Sys2Proof.Machine
end

