-- ==== Sys2Proof/Laws/State.lean ====
section
/-! SUPPORT. One lemma for each field and each named update of the state: what the field reads
after the update. -/

namespace Sys2Proof.Machine

@[simp] theorem setMode_mode (m : Mode) (s : State) :
    (s.setMode m).mode = m := rfl
@[simp] theorem setMode_t (m : Mode) (s : State) :
    (s.setMode m).t = s.t := rfl
@[simp] theorem setMode_tw (m : Mode) (s : State) :
    (s.setMode m).tw = s.tw := rfl
@[simp] theorem setMode_p (m : Mode) (s : State) :
    (s.setMode m).p = s.p := rfl
@[simp] theorem setMode_np (m : Mode) (s : State) :
    (s.setMode m).np = s.np := rfl
@[simp] theorem setMode_povf (m : Mode) (s : State) :
    (s.setMode m).povf = s.povf := rfl
@[simp] theorem setMode_fsm (m : Mode) (s : State) :
    (s.setMode m).fsm = s.fsm := rfl
@[simp] theorem setMode_idx (m : Mode) (s : State) :
    (s.setMode m).idx = s.idx := rfl
@[simp] theorem setMode_hdr (m : Mode) (s : State) :
    (s.setMode m).hdr = s.hdr := rfl
@[simp] theorem setMode_hcrc (m : Mode) (s : State) :
    (s.setMode m).hcrc = s.hcrc := rfl
@[simp] theorem setMode_plen (m : Mode) (s : State) :
    (s.setMode m).plen = s.plen := rfl
@[simp] theorem setMode_olen (m : Mode) (s : State) :
    (s.setMode m).olen = s.olen := rfl
@[simp] theorem setMode_ptype (m : Mode) (s : State) :
    (s.setMode m).ptype = s.ptype := rfl
@[simp] theorem setMode_body (m : Mode) (s : State) :
    (s.setMode m).body = s.body := rfl
@[simp] theorem setMode_input (m : Mode) (s : State) :
    (s.setMode m).input = s.input := rfl
@[simp] theorem setMode_results (m : Mode) (s : State) :
    (s.setMode m).results = s.results := rfl
@[simp] theorem setMode_traces (m : Mode) (s : State) :
    (s.setMode m).traces = s.traces := rfl
@[simp] theorem setMode_port (m : Mode) (s : State) :
    (s.setMode m).port = s.port := rfl
@[simp] theorem setMode_params (m : Mode) (s : State) :
    (s.setMode m).params = s.params := rfl
@[simp] theorem writeCrc_mode (i v : Byte) (s : State) :
    (s.writeCrc i v).mode = s.mode := rfl
@[simp] theorem writeCrc_t (i v : Byte) (s : State) :
    (s.writeCrc i v).t = s.t.write i.toNat v := rfl
@[simp] theorem writeCrc_tw (i v : Byte) (s : State) :
    (s.writeCrc i v).tw = setWritten s.tw i := rfl
@[simp] theorem writeCrc_p (i v : Byte) (s : State) :
    (s.writeCrc i v).p = s.p := rfl
@[simp] theorem writeCrc_np (i v : Byte) (s : State) :
    (s.writeCrc i v).np = s.np := rfl
@[simp] theorem writeCrc_povf (i v : Byte) (s : State) :
    (s.writeCrc i v).povf = s.povf := rfl
@[simp] theorem writeCrc_fsm (i v : Byte) (s : State) :
    (s.writeCrc i v).fsm = s.fsm := rfl
@[simp] theorem writeCrc_idx (i v : Byte) (s : State) :
    (s.writeCrc i v).idx = s.idx := rfl
@[simp] theorem writeCrc_hdr (i v : Byte) (s : State) :
    (s.writeCrc i v).hdr = s.hdr := rfl
@[simp] theorem writeCrc_hcrc (i v : Byte) (s : State) :
    (s.writeCrc i v).hcrc = s.hcrc := rfl
@[simp] theorem writeCrc_plen (i v : Byte) (s : State) :
    (s.writeCrc i v).plen = s.plen := rfl
@[simp] theorem writeCrc_olen (i v : Byte) (s : State) :
    (s.writeCrc i v).olen = s.olen := rfl
@[simp] theorem writeCrc_ptype (i v : Byte) (s : State) :
    (s.writeCrc i v).ptype = s.ptype := rfl
@[simp] theorem writeCrc_body (i v : Byte) (s : State) :
    (s.writeCrc i v).body = s.body := rfl
@[simp] theorem writeCrc_input (i v : Byte) (s : State) :
    (s.writeCrc i v).input = s.input := rfl
@[simp] theorem writeCrc_results (i v : Byte) (s : State) :
    (s.writeCrc i v).results = s.results := rfl
@[simp] theorem writeCrc_traces (i v : Byte) (s : State) :
    (s.writeCrc i v).traces = s.traces := rfl
@[simp] theorem writeCrc_port (i v : Byte) (s : State) :
    (s.writeCrc i v).port = s.port := rfl
@[simp] theorem writeCrc_params (i v : Byte) (s : State) :
    (s.writeCrc i v).params = s.params := rfl
@[simp] theorem pushEntry_mode (e : Entry) (s : State) :
    (s.pushEntry e).mode = s.mode := rfl
@[simp] theorem pushEntry_t (e : Entry) (s : State) :
    (s.pushEntry e).t = s.t := rfl
@[simp] theorem pushEntry_tw (e : Entry) (s : State) :
    (s.pushEntry e).tw = s.tw := rfl
@[simp] theorem pushEntry_p (e : Entry) (s : State) :
    (s.pushEntry e).p = s.p.write s.np e := rfl
@[simp] theorem pushEntry_np (e : Entry) (s : State) :
    (s.pushEntry e).np = s.np + 1 := rfl
@[simp] theorem pushEntry_povf (e : Entry) (s : State) :
    (s.pushEntry e).povf = s.povf := rfl
@[simp] theorem pushEntry_fsm (e : Entry) (s : State) :
    (s.pushEntry e).fsm = s.fsm := rfl
@[simp] theorem pushEntry_idx (e : Entry) (s : State) :
    (s.pushEntry e).idx = s.idx := rfl
@[simp] theorem pushEntry_hdr (e : Entry) (s : State) :
    (s.pushEntry e).hdr = s.hdr := rfl
@[simp] theorem pushEntry_hcrc (e : Entry) (s : State) :
    (s.pushEntry e).hcrc = s.hcrc := rfl
@[simp] theorem pushEntry_plen (e : Entry) (s : State) :
    (s.pushEntry e).plen = s.plen := rfl
@[simp] theorem pushEntry_olen (e : Entry) (s : State) :
    (s.pushEntry e).olen = s.olen := rfl
@[simp] theorem pushEntry_ptype (e : Entry) (s : State) :
    (s.pushEntry e).ptype = s.ptype := rfl
@[simp] theorem pushEntry_body (e : Entry) (s : State) :
    (s.pushEntry e).body = s.body := rfl
@[simp] theorem pushEntry_input (e : Entry) (s : State) :
    (s.pushEntry e).input = s.input := rfl
@[simp] theorem pushEntry_results (e : Entry) (s : State) :
    (s.pushEntry e).results = s.results := rfl
@[simp] theorem pushEntry_traces (e : Entry) (s : State) :
    (s.pushEntry e).traces = s.traces := rfl
@[simp] theorem pushEntry_port (e : Entry) (s : State) :
    (s.pushEntry e).port = s.port := rfl
@[simp] theorem pushEntry_params (e : Entry) (s : State) :
    (s.pushEntry e).params = s.params := rfl
@[simp] theorem setOverflow_mode (s : State) :
    (s.setOverflow).mode = s.mode := rfl
@[simp] theorem setOverflow_t (s : State) :
    (s.setOverflow).t = s.t := rfl
@[simp] theorem setOverflow_tw (s : State) :
    (s.setOverflow).tw = s.tw := rfl
@[simp] theorem setOverflow_p (s : State) :
    (s.setOverflow).p = s.p := rfl
@[simp] theorem setOverflow_np (s : State) :
    (s.setOverflow).np = s.np := rfl
@[simp] theorem setOverflow_povf (s : State) :
    (s.setOverflow).povf = true := rfl
@[simp] theorem setOverflow_fsm (s : State) :
    (s.setOverflow).fsm = s.fsm := rfl
@[simp] theorem setOverflow_idx (s : State) :
    (s.setOverflow).idx = s.idx := rfl
@[simp] theorem setOverflow_hdr (s : State) :
    (s.setOverflow).hdr = s.hdr := rfl
@[simp] theorem setOverflow_hcrc (s : State) :
    (s.setOverflow).hcrc = s.hcrc := rfl
@[simp] theorem setOverflow_plen (s : State) :
    (s.setOverflow).plen = s.plen := rfl
@[simp] theorem setOverflow_olen (s : State) :
    (s.setOverflow).olen = s.olen := rfl
@[simp] theorem setOverflow_ptype (s : State) :
    (s.setOverflow).ptype = s.ptype := rfl
@[simp] theorem setOverflow_body (s : State) :
    (s.setOverflow).body = s.body := rfl
@[simp] theorem setOverflow_input (s : State) :
    (s.setOverflow).input = s.input := rfl
@[simp] theorem setOverflow_results (s : State) :
    (s.setOverflow).results = s.results := rfl
@[simp] theorem setOverflow_traces (s : State) :
    (s.setOverflow).traces = s.traces := rfl
@[simp] theorem setOverflow_port (s : State) :
    (s.setOverflow).port = s.port := rfl
@[simp] theorem setOverflow_params (s : State) :
    (s.setOverflow).params = s.params := rfl
@[simp] theorem setFsm_mode (f : Fsm) (s : State) :
    (s.setFsm f).mode = s.mode := rfl
@[simp] theorem setFsm_t (f : Fsm) (s : State) :
    (s.setFsm f).t = s.t := rfl
@[simp] theorem setFsm_tw (f : Fsm) (s : State) :
    (s.setFsm f).tw = s.tw := rfl
@[simp] theorem setFsm_p (f : Fsm) (s : State) :
    (s.setFsm f).p = s.p := rfl
@[simp] theorem setFsm_np (f : Fsm) (s : State) :
    (s.setFsm f).np = s.np := rfl
@[simp] theorem setFsm_povf (f : Fsm) (s : State) :
    (s.setFsm f).povf = s.povf := rfl
@[simp] theorem setFsm_fsm (f : Fsm) (s : State) :
    (s.setFsm f).fsm = f := rfl
@[simp] theorem setFsm_idx (f : Fsm) (s : State) :
    (s.setFsm f).idx = s.idx := rfl
@[simp] theorem setFsm_hdr (f : Fsm) (s : State) :
    (s.setFsm f).hdr = s.hdr := rfl
@[simp] theorem setFsm_hcrc (f : Fsm) (s : State) :
    (s.setFsm f).hcrc = s.hcrc := rfl
@[simp] theorem setFsm_plen (f : Fsm) (s : State) :
    (s.setFsm f).plen = s.plen := rfl
@[simp] theorem setFsm_olen (f : Fsm) (s : State) :
    (s.setFsm f).olen = s.olen := rfl
@[simp] theorem setFsm_ptype (f : Fsm) (s : State) :
    (s.setFsm f).ptype = s.ptype := rfl
@[simp] theorem setFsm_body (f : Fsm) (s : State) :
    (s.setFsm f).body = s.body := rfl
@[simp] theorem setFsm_input (f : Fsm) (s : State) :
    (s.setFsm f).input = s.input := rfl
@[simp] theorem setFsm_results (f : Fsm) (s : State) :
    (s.setFsm f).results = s.results := rfl
@[simp] theorem setFsm_traces (f : Fsm) (s : State) :
    (s.setFsm f).traces = s.traces := rfl
@[simp] theorem setFsm_port (f : Fsm) (s : State) :
    (s.setFsm f).port = s.port := rfl
@[simp] theorem setFsm_params (f : Fsm) (s : State) :
    (s.setFsm f).params = s.params := rfl
@[simp] theorem setPos_mode (f : Fsm) (n : BitVec 8) (s : State) :
    (s.setPos f n).mode = s.mode := rfl
@[simp] theorem setPos_t (f : Fsm) (n : BitVec 8) (s : State) :
    (s.setPos f n).t = s.t := rfl
@[simp] theorem setPos_tw (f : Fsm) (n : BitVec 8) (s : State) :
    (s.setPos f n).tw = s.tw := rfl
@[simp] theorem setPos_p (f : Fsm) (n : BitVec 8) (s : State) :
    (s.setPos f n).p = s.p := rfl
@[simp] theorem setPos_np (f : Fsm) (n : BitVec 8) (s : State) :
    (s.setPos f n).np = s.np := rfl
@[simp] theorem setPos_povf (f : Fsm) (n : BitVec 8) (s : State) :
    (s.setPos f n).povf = s.povf := rfl
@[simp] theorem setPos_fsm (f : Fsm) (n : BitVec 8) (s : State) :
    (s.setPos f n).fsm = f := rfl
@[simp] theorem setPos_idx (f : Fsm) (n : BitVec 8) (s : State) :
    (s.setPos f n).idx = n := rfl
@[simp] theorem setPos_hdr (f : Fsm) (n : BitVec 8) (s : State) :
    (s.setPos f n).hdr = s.hdr := rfl
@[simp] theorem setPos_hcrc (f : Fsm) (n : BitVec 8) (s : State) :
    (s.setPos f n).hcrc = s.hcrc := rfl
@[simp] theorem setPos_plen (f : Fsm) (n : BitVec 8) (s : State) :
    (s.setPos f n).plen = s.plen := rfl
@[simp] theorem setPos_olen (f : Fsm) (n : BitVec 8) (s : State) :
    (s.setPos f n).olen = s.olen := rfl
@[simp] theorem setPos_ptype (f : Fsm) (n : BitVec 8) (s : State) :
    (s.setPos f n).ptype = s.ptype := rfl
@[simp] theorem setPos_body (f : Fsm) (n : BitVec 8) (s : State) :
    (s.setPos f n).body = s.body := rfl
@[simp] theorem setPos_input (f : Fsm) (n : BitVec 8) (s : State) :
    (s.setPos f n).input = s.input := rfl
@[simp] theorem setPos_results (f : Fsm) (n : BitVec 8) (s : State) :
    (s.setPos f n).results = s.results := rfl
@[simp] theorem setPos_traces (f : Fsm) (n : BitVec 8) (s : State) :
    (s.setPos f n).traces = s.traces := rfl
@[simp] theorem setPos_port (f : Fsm) (n : BitVec 8) (s : State) :
    (s.setPos f n).port = s.port := rfl
@[simp] theorem setPos_params (f : Fsm) (n : BitVec 8) (s : State) :
    (s.setPos f n).params = s.params := rfl
@[simp] theorem incIdx_mode (s : State) :
    (s.incIdx).mode = s.mode := rfl
@[simp] theorem incIdx_t (s : State) :
    (s.incIdx).t = s.t := rfl
@[simp] theorem incIdx_tw (s : State) :
    (s.incIdx).tw = s.tw := rfl
@[simp] theorem incIdx_p (s : State) :
    (s.incIdx).p = s.p := rfl
@[simp] theorem incIdx_np (s : State) :
    (s.incIdx).np = s.np := rfl
@[simp] theorem incIdx_povf (s : State) :
    (s.incIdx).povf = s.povf := rfl
@[simp] theorem incIdx_fsm (s : State) :
    (s.incIdx).fsm = s.fsm := rfl
@[simp] theorem incIdx_idx (s : State) :
    (s.incIdx).idx = s.idx + 1 := rfl
@[simp] theorem incIdx_hdr (s : State) :
    (s.incIdx).hdr = s.hdr := rfl
@[simp] theorem incIdx_hcrc (s : State) :
    (s.incIdx).hcrc = s.hcrc := rfl
@[simp] theorem incIdx_plen (s : State) :
    (s.incIdx).plen = s.plen := rfl
@[simp] theorem incIdx_olen (s : State) :
    (s.incIdx).olen = s.olen := rfl
@[simp] theorem incIdx_ptype (s : State) :
    (s.incIdx).ptype = s.ptype := rfl
@[simp] theorem incIdx_body (s : State) :
    (s.incIdx).body = s.body := rfl
@[simp] theorem incIdx_input (s : State) :
    (s.incIdx).input = s.input := rfl
@[simp] theorem incIdx_results (s : State) :
    (s.incIdx).results = s.results := rfl
@[simp] theorem incIdx_traces (s : State) :
    (s.incIdx).traces = s.traces := rfl
@[simp] theorem incIdx_port (s : State) :
    (s.incIdx).port = s.port := rfl
@[simp] theorem incIdx_params (s : State) :
    (s.incIdx).params = s.params := rfl
@[simp] theorem writeHdr_mode (i : Nat) (b : Byte) (s : State) :
    (s.writeHdr i b).mode = s.mode := rfl
@[simp] theorem writeHdr_t (i : Nat) (b : Byte) (s : State) :
    (s.writeHdr i b).t = s.t := rfl
@[simp] theorem writeHdr_tw (i : Nat) (b : Byte) (s : State) :
    (s.writeHdr i b).tw = s.tw := rfl
@[simp] theorem writeHdr_p (i : Nat) (b : Byte) (s : State) :
    (s.writeHdr i b).p = s.p := rfl
@[simp] theorem writeHdr_np (i : Nat) (b : Byte) (s : State) :
    (s.writeHdr i b).np = s.np := rfl
@[simp] theorem writeHdr_povf (i : Nat) (b : Byte) (s : State) :
    (s.writeHdr i b).povf = s.povf := rfl
@[simp] theorem writeHdr_fsm (i : Nat) (b : Byte) (s : State) :
    (s.writeHdr i b).fsm = s.fsm := rfl
@[simp] theorem writeHdr_idx (i : Nat) (b : Byte) (s : State) :
    (s.writeHdr i b).idx = s.idx := rfl
@[simp] theorem writeHdr_hdr (i : Nat) (b : Byte) (s : State) :
    (s.writeHdr i b).hdr = s.hdr.write i b := rfl
@[simp] theorem writeHdr_hcrc (i : Nat) (b : Byte) (s : State) :
    (s.writeHdr i b).hcrc = s.hcrc := rfl
@[simp] theorem writeHdr_plen (i : Nat) (b : Byte) (s : State) :
    (s.writeHdr i b).plen = s.plen := rfl
@[simp] theorem writeHdr_olen (i : Nat) (b : Byte) (s : State) :
    (s.writeHdr i b).olen = s.olen := rfl
@[simp] theorem writeHdr_ptype (i : Nat) (b : Byte) (s : State) :
    (s.writeHdr i b).ptype = s.ptype := rfl
@[simp] theorem writeHdr_body (i : Nat) (b : Byte) (s : State) :
    (s.writeHdr i b).body = s.body := rfl
@[simp] theorem writeHdr_input (i : Nat) (b : Byte) (s : State) :
    (s.writeHdr i b).input = s.input := rfl
@[simp] theorem writeHdr_results (i : Nat) (b : Byte) (s : State) :
    (s.writeHdr i b).results = s.results := rfl
@[simp] theorem writeHdr_traces (i : Nat) (b : Byte) (s : State) :
    (s.writeHdr i b).traces = s.traces := rfl
@[simp] theorem writeHdr_port (i : Nat) (b : Byte) (s : State) :
    (s.writeHdr i b).port = s.port := rfl
@[simp] theorem writeHdr_params (i : Nat) (b : Byte) (s : State) :
    (s.writeHdr i b).params = s.params := rfl
@[simp] theorem setHcrc_mode (b : Byte) (s : State) :
    (s.setHcrc b).mode = s.mode := rfl
@[simp] theorem setHcrc_t (b : Byte) (s : State) :
    (s.setHcrc b).t = s.t := rfl
@[simp] theorem setHcrc_tw (b : Byte) (s : State) :
    (s.setHcrc b).tw = s.tw := rfl
@[simp] theorem setHcrc_p (b : Byte) (s : State) :
    (s.setHcrc b).p = s.p := rfl
@[simp] theorem setHcrc_np (b : Byte) (s : State) :
    (s.setHcrc b).np = s.np := rfl
@[simp] theorem setHcrc_povf (b : Byte) (s : State) :
    (s.setHcrc b).povf = s.povf := rfl
@[simp] theorem setHcrc_fsm (b : Byte) (s : State) :
    (s.setHcrc b).fsm = s.fsm := rfl
@[simp] theorem setHcrc_idx (b : Byte) (s : State) :
    (s.setHcrc b).idx = s.idx := rfl
@[simp] theorem setHcrc_hdr (b : Byte) (s : State) :
    (s.setHcrc b).hdr = s.hdr := rfl
@[simp] theorem setHcrc_hcrc (b : Byte) (s : State) :
    (s.setHcrc b).hcrc = some b := rfl
@[simp] theorem setHcrc_plen (b : Byte) (s : State) :
    (s.setHcrc b).plen = s.plen := rfl
@[simp] theorem setHcrc_olen (b : Byte) (s : State) :
    (s.setHcrc b).olen = s.olen := rfl
@[simp] theorem setHcrc_ptype (b : Byte) (s : State) :
    (s.setHcrc b).ptype = s.ptype := rfl
@[simp] theorem setHcrc_body (b : Byte) (s : State) :
    (s.setHcrc b).body = s.body := rfl
@[simp] theorem setHcrc_input (b : Byte) (s : State) :
    (s.setHcrc b).input = s.input := rfl
@[simp] theorem setHcrc_results (b : Byte) (s : State) :
    (s.setHcrc b).results = s.results := rfl
@[simp] theorem setHcrc_traces (b : Byte) (s : State) :
    (s.setHcrc b).traces = s.traces := rfl
@[simp] theorem setHcrc_port (b : Byte) (s : State) :
    (s.setHcrc b).port = s.port := rfl
@[simp] theorem setHcrc_params (b : Byte) (s : State) :
    (s.setHcrc b).params = s.params := rfl
@[simp] theorem setPtype_mode (b : Byte) (s : State) :
    (s.setPtype b).mode = s.mode := rfl
@[simp] theorem setPtype_t (b : Byte) (s : State) :
    (s.setPtype b).t = s.t := rfl
@[simp] theorem setPtype_tw (b : Byte) (s : State) :
    (s.setPtype b).tw = s.tw := rfl
@[simp] theorem setPtype_p (b : Byte) (s : State) :
    (s.setPtype b).p = s.p := rfl
@[simp] theorem setPtype_np (b : Byte) (s : State) :
    (s.setPtype b).np = s.np := rfl
@[simp] theorem setPtype_povf (b : Byte) (s : State) :
    (s.setPtype b).povf = s.povf := rfl
@[simp] theorem setPtype_fsm (b : Byte) (s : State) :
    (s.setPtype b).fsm = s.fsm := rfl
@[simp] theorem setPtype_idx (b : Byte) (s : State) :
    (s.setPtype b).idx = s.idx := rfl
@[simp] theorem setPtype_hdr (b : Byte) (s : State) :
    (s.setPtype b).hdr = s.hdr := rfl
@[simp] theorem setPtype_hcrc (b : Byte) (s : State) :
    (s.setPtype b).hcrc = s.hcrc := rfl
@[simp] theorem setPtype_plen (b : Byte) (s : State) :
    (s.setPtype b).plen = s.plen := rfl
@[simp] theorem setPtype_olen (b : Byte) (s : State) :
    (s.setPtype b).olen = s.olen := rfl
@[simp] theorem setPtype_ptype (b : Byte) (s : State) :
    (s.setPtype b).ptype = some b := rfl
@[simp] theorem setPtype_body (b : Byte) (s : State) :
    (s.setPtype b).body = s.body := rfl
@[simp] theorem setPtype_input (b : Byte) (s : State) :
    (s.setPtype b).input = s.input := rfl
@[simp] theorem setPtype_results (b : Byte) (s : State) :
    (s.setPtype b).results = s.results := rfl
@[simp] theorem setPtype_traces (b : Byte) (s : State) :
    (s.setPtype b).traces = s.traces := rfl
@[simp] theorem setPtype_port (b : Byte) (s : State) :
    (s.setPtype b).port = s.port := rfl
@[simp] theorem setPtype_params (b : Byte) (s : State) :
    (s.setPtype b).params = s.params := rfl
@[simp] theorem setLens_mode (pl : BitVec 16) (ol : Byte) (s : State) :
    (s.setLens pl ol).mode = s.mode := rfl
@[simp] theorem setLens_t (pl : BitVec 16) (ol : Byte) (s : State) :
    (s.setLens pl ol).t = s.t := rfl
@[simp] theorem setLens_tw (pl : BitVec 16) (ol : Byte) (s : State) :
    (s.setLens pl ol).tw = s.tw := rfl
@[simp] theorem setLens_p (pl : BitVec 16) (ol : Byte) (s : State) :
    (s.setLens pl ol).p = s.p := rfl
@[simp] theorem setLens_np (pl : BitVec 16) (ol : Byte) (s : State) :
    (s.setLens pl ol).np = s.np := rfl
@[simp] theorem setLens_povf (pl : BitVec 16) (ol : Byte) (s : State) :
    (s.setLens pl ol).povf = s.povf := rfl
@[simp] theorem setLens_fsm (pl : BitVec 16) (ol : Byte) (s : State) :
    (s.setLens pl ol).fsm = s.fsm := rfl
@[simp] theorem setLens_idx (pl : BitVec 16) (ol : Byte) (s : State) :
    (s.setLens pl ol).idx = s.idx := rfl
@[simp] theorem setLens_hdr (pl : BitVec 16) (ol : Byte) (s : State) :
    (s.setLens pl ol).hdr = s.hdr := rfl
@[simp] theorem setLens_hcrc (pl : BitVec 16) (ol : Byte) (s : State) :
    (s.setLens pl ol).hcrc = s.hcrc := rfl
@[simp] theorem setLens_plen (pl : BitVec 16) (ol : Byte) (s : State) :
    (s.setLens pl ol).plen = some pl := rfl
@[simp] theorem setLens_olen (pl : BitVec 16) (ol : Byte) (s : State) :
    (s.setLens pl ol).olen = some ol := rfl
@[simp] theorem setLens_ptype (pl : BitVec 16) (ol : Byte) (s : State) :
    (s.setLens pl ol).ptype = s.ptype := rfl
@[simp] theorem setLens_body (pl : BitVec 16) (ol : Byte) (s : State) :
    (s.setLens pl ol).body = s.body := rfl
@[simp] theorem setLens_input (pl : BitVec 16) (ol : Byte) (s : State) :
    (s.setLens pl ol).input = s.input := rfl
@[simp] theorem setLens_results (pl : BitVec 16) (ol : Byte) (s : State) :
    (s.setLens pl ol).results = s.results := rfl
@[simp] theorem setLens_traces (pl : BitVec 16) (ol : Byte) (s : State) :
    (s.setLens pl ol).traces = s.traces := rfl
@[simp] theorem setLens_port (pl : BitVec 16) (ol : Byte) (s : State) :
    (s.setLens pl ol).port = s.port := rfl
@[simp] theorem setLens_params (pl : BitVec 16) (ol : Byte) (s : State) :
    (s.setLens pl ol).params = s.params := rfl
@[simp] theorem writeBody_mode (i : Nat) (b : Byte) (s : State) :
    (s.writeBody i b).mode = s.mode := rfl
@[simp] theorem writeBody_t (i : Nat) (b : Byte) (s : State) :
    (s.writeBody i b).t = s.t := rfl
@[simp] theorem writeBody_tw (i : Nat) (b : Byte) (s : State) :
    (s.writeBody i b).tw = s.tw := rfl
@[simp] theorem writeBody_p (i : Nat) (b : Byte) (s : State) :
    (s.writeBody i b).p = s.p := rfl
@[simp] theorem writeBody_np (i : Nat) (b : Byte) (s : State) :
    (s.writeBody i b).np = s.np := rfl
@[simp] theorem writeBody_povf (i : Nat) (b : Byte) (s : State) :
    (s.writeBody i b).povf = s.povf := rfl
@[simp] theorem writeBody_fsm (i : Nat) (b : Byte) (s : State) :
    (s.writeBody i b).fsm = s.fsm := rfl
@[simp] theorem writeBody_idx (i : Nat) (b : Byte) (s : State) :
    (s.writeBody i b).idx = s.idx := rfl
@[simp] theorem writeBody_hdr (i : Nat) (b : Byte) (s : State) :
    (s.writeBody i b).hdr = s.hdr := rfl
@[simp] theorem writeBody_hcrc (i : Nat) (b : Byte) (s : State) :
    (s.writeBody i b).hcrc = s.hcrc := rfl
@[simp] theorem writeBody_plen (i : Nat) (b : Byte) (s : State) :
    (s.writeBody i b).plen = s.plen := rfl
@[simp] theorem writeBody_olen (i : Nat) (b : Byte) (s : State) :
    (s.writeBody i b).olen = s.olen := rfl
@[simp] theorem writeBody_ptype (i : Nat) (b : Byte) (s : State) :
    (s.writeBody i b).ptype = s.ptype := rfl
@[simp] theorem writeBody_body (i : Nat) (b : Byte) (s : State) :
    (s.writeBody i b).body = s.body.write i b := rfl
@[simp] theorem writeBody_input (i : Nat) (b : Byte) (s : State) :
    (s.writeBody i b).input = s.input := rfl
@[simp] theorem writeBody_results (i : Nat) (b : Byte) (s : State) :
    (s.writeBody i b).results = s.results := rfl
@[simp] theorem writeBody_traces (i : Nat) (b : Byte) (s : State) :
    (s.writeBody i b).traces = s.traces := rfl
@[simp] theorem writeBody_port (i : Nat) (b : Byte) (s : State) :
    (s.writeBody i b).port = s.port := rfl
@[simp] theorem writeBody_params (i : Nat) (b : Byte) (s : State) :
    (s.writeBody i b).params = s.params := rfl
@[simp] theorem dropFrame_mode (s : State) :
    (s.dropFrame).mode = s.mode := rfl
@[simp] theorem dropFrame_t (s : State) :
    (s.dropFrame).t = s.t := rfl
@[simp] theorem dropFrame_tw (s : State) :
    (s.dropFrame).tw = s.tw := rfl
@[simp] theorem dropFrame_p (s : State) :
    (s.dropFrame).p = s.p := rfl
@[simp] theorem dropFrame_np (s : State) :
    (s.dropFrame).np = s.np := rfl
@[simp] theorem dropFrame_povf (s : State) :
    (s.dropFrame).povf = s.povf := rfl
@[simp] theorem dropFrame_fsm (s : State) :
    (s.dropFrame).fsm = s.fsm := rfl
@[simp] theorem dropFrame_idx (s : State) :
    (s.dropFrame).idx = s.idx := rfl
@[simp] theorem dropFrame_hdr (s : State) :
    (s.dropFrame).hdr = [] := rfl
@[simp] theorem dropFrame_hcrc (s : State) :
    (s.dropFrame).hcrc = none := rfl
@[simp] theorem dropFrame_plen (s : State) :
    (s.dropFrame).plen = none := rfl
@[simp] theorem dropFrame_olen (s : State) :
    (s.dropFrame).olen = none := rfl
@[simp] theorem dropFrame_ptype (s : State) :
    (s.dropFrame).ptype = none := rfl
@[simp] theorem dropFrame_body (s : State) :
    (s.dropFrame).body = [] := rfl
@[simp] theorem dropFrame_input (s : State) :
    (s.dropFrame).input = s.input := rfl
@[simp] theorem dropFrame_results (s : State) :
    (s.dropFrame).results = s.results := rfl
@[simp] theorem dropFrame_traces (s : State) :
    (s.dropFrame).traces = s.traces := rfl
@[simp] theorem dropFrame_port (s : State) :
    (s.dropFrame).port = s.port := rfl
@[simp] theorem dropFrame_params (s : State) :
    (s.dropFrame).params = s.params := rfl
@[simp] theorem emitResult_mode (r : Result) (s : State) :
    (s.emitResult r).mode = s.mode := rfl
@[simp] theorem emitResult_t (r : Result) (s : State) :
    (s.emitResult r).t = s.t := rfl
@[simp] theorem emitResult_tw (r : Result) (s : State) :
    (s.emitResult r).tw = s.tw := rfl
@[simp] theorem emitResult_p (r : Result) (s : State) :
    (s.emitResult r).p = s.p := rfl
@[simp] theorem emitResult_np (r : Result) (s : State) :
    (s.emitResult r).np = s.np := rfl
@[simp] theorem emitResult_povf (r : Result) (s : State) :
    (s.emitResult r).povf = s.povf := rfl
@[simp] theorem emitResult_fsm (r : Result) (s : State) :
    (s.emitResult r).fsm = s.fsm := rfl
@[simp] theorem emitResult_idx (r : Result) (s : State) :
    (s.emitResult r).idx = s.idx := rfl
@[simp] theorem emitResult_hdr (r : Result) (s : State) :
    (s.emitResult r).hdr = s.hdr := rfl
@[simp] theorem emitResult_hcrc (r : Result) (s : State) :
    (s.emitResult r).hcrc = s.hcrc := rfl
@[simp] theorem emitResult_plen (r : Result) (s : State) :
    (s.emitResult r).plen = s.plen := rfl
@[simp] theorem emitResult_olen (r : Result) (s : State) :
    (s.emitResult r).olen = s.olen := rfl
@[simp] theorem emitResult_ptype (r : Result) (s : State) :
    (s.emitResult r).ptype = s.ptype := rfl
@[simp] theorem emitResult_body (r : Result) (s : State) :
    (s.emitResult r).body = s.body := rfl
@[simp] theorem emitResult_input (r : Result) (s : State) :
    (s.emitResult r).input = s.input := rfl
@[simp] theorem emitResult_results (r : Result) (s : State) :
    (s.emitResult r).results = s.results ++ [r] := rfl
@[simp] theorem emitResult_traces (r : Result) (s : State) :
    (s.emitResult r).traces = s.traces := rfl
@[simp] theorem emitResult_port (r : Result) (s : State) :
    (s.emitResult r).port = s.port := rfl
@[simp] theorem emitResult_params (r : Result) (s : State) :
    (s.emitResult r).params = s.params := rfl
@[simp] theorem emitTrace_mode (x : Trace) (s : State) :
    (s.emitTrace x).mode = s.mode := rfl
@[simp] theorem emitTrace_t (x : Trace) (s : State) :
    (s.emitTrace x).t = s.t := rfl
@[simp] theorem emitTrace_tw (x : Trace) (s : State) :
    (s.emitTrace x).tw = s.tw := rfl
@[simp] theorem emitTrace_p (x : Trace) (s : State) :
    (s.emitTrace x).p = s.p := rfl
@[simp] theorem emitTrace_np (x : Trace) (s : State) :
    (s.emitTrace x).np = s.np := rfl
@[simp] theorem emitTrace_povf (x : Trace) (s : State) :
    (s.emitTrace x).povf = s.povf := rfl
@[simp] theorem emitTrace_fsm (x : Trace) (s : State) :
    (s.emitTrace x).fsm = s.fsm := rfl
@[simp] theorem emitTrace_idx (x : Trace) (s : State) :
    (s.emitTrace x).idx = s.idx := rfl
@[simp] theorem emitTrace_hdr (x : Trace) (s : State) :
    (s.emitTrace x).hdr = s.hdr := rfl
@[simp] theorem emitTrace_hcrc (x : Trace) (s : State) :
    (s.emitTrace x).hcrc = s.hcrc := rfl
@[simp] theorem emitTrace_plen (x : Trace) (s : State) :
    (s.emitTrace x).plen = s.plen := rfl
@[simp] theorem emitTrace_olen (x : Trace) (s : State) :
    (s.emitTrace x).olen = s.olen := rfl
@[simp] theorem emitTrace_ptype (x : Trace) (s : State) :
    (s.emitTrace x).ptype = s.ptype := rfl
@[simp] theorem emitTrace_body (x : Trace) (s : State) :
    (s.emitTrace x).body = s.body := rfl
@[simp] theorem emitTrace_input (x : Trace) (s : State) :
    (s.emitTrace x).input = s.input := rfl
@[simp] theorem emitTrace_results (x : Trace) (s : State) :
    (s.emitTrace x).results = s.results := rfl
@[simp] theorem emitTrace_traces (x : Trace) (s : State) :
    (s.emitTrace x).traces = s.traces ++ [x] := rfl
@[simp] theorem emitTrace_port (x : Trace) (s : State) :
    (s.emitTrace x).port = s.port := rfl
@[simp] theorem emitTrace_params (x : Trace) (s : State) :
    (s.emitTrace x).params = s.params := rfl
@[simp] theorem setPort_mode (v : PortValue) (s : State) :
    (s.setPort v).mode = s.mode := rfl
@[simp] theorem setPort_t (v : PortValue) (s : State) :
    (s.setPort v).t = s.t := rfl
@[simp] theorem setPort_tw (v : PortValue) (s : State) :
    (s.setPort v).tw = s.tw := rfl
@[simp] theorem setPort_p (v : PortValue) (s : State) :
    (s.setPort v).p = s.p := rfl
@[simp] theorem setPort_np (v : PortValue) (s : State) :
    (s.setPort v).np = s.np := rfl
@[simp] theorem setPort_povf (v : PortValue) (s : State) :
    (s.setPort v).povf = s.povf := rfl
@[simp] theorem setPort_fsm (v : PortValue) (s : State) :
    (s.setPort v).fsm = s.fsm := rfl
@[simp] theorem setPort_idx (v : PortValue) (s : State) :
    (s.setPort v).idx = s.idx := rfl
@[simp] theorem setPort_hdr (v : PortValue) (s : State) :
    (s.setPort v).hdr = s.hdr := rfl
@[simp] theorem setPort_hcrc (v : PortValue) (s : State) :
    (s.setPort v).hcrc = s.hcrc := rfl
@[simp] theorem setPort_plen (v : PortValue) (s : State) :
    (s.setPort v).plen = s.plen := rfl
@[simp] theorem setPort_olen (v : PortValue) (s : State) :
    (s.setPort v).olen = s.olen := rfl
@[simp] theorem setPort_ptype (v : PortValue) (s : State) :
    (s.setPort v).ptype = s.ptype := rfl
@[simp] theorem setPort_body (v : PortValue) (s : State) :
    (s.setPort v).body = s.body := rfl
@[simp] theorem setPort_input (v : PortValue) (s : State) :
    (s.setPort v).input = s.input := rfl
@[simp] theorem setPort_results (v : PortValue) (s : State) :
    (s.setPort v).results = s.results := rfl
@[simp] theorem setPort_traces (v : PortValue) (s : State) :
    (s.setPort v).traces = s.traces := rfl
@[simp] theorem setPort_port (v : PortValue) (s : State) :
    (s.setPort v).port = some v := rfl
@[simp] theorem setPort_params (v : PortValue) (s : State) :
    (s.setPort v).params = s.params := rfl
@[simp] theorem setInput_mode (q : List Burst) (s : State) :
    (s.setInput q).mode = s.mode := rfl
@[simp] theorem setInput_t (q : List Burst) (s : State) :
    (s.setInput q).t = s.t := rfl
@[simp] theorem setInput_tw (q : List Burst) (s : State) :
    (s.setInput q).tw = s.tw := rfl
@[simp] theorem setInput_p (q : List Burst) (s : State) :
    (s.setInput q).p = s.p := rfl
@[simp] theorem setInput_np (q : List Burst) (s : State) :
    (s.setInput q).np = s.np := rfl
@[simp] theorem setInput_povf (q : List Burst) (s : State) :
    (s.setInput q).povf = s.povf := rfl
@[simp] theorem setInput_fsm (q : List Burst) (s : State) :
    (s.setInput q).fsm = s.fsm := rfl
@[simp] theorem setInput_idx (q : List Burst) (s : State) :
    (s.setInput q).idx = s.idx := rfl
@[simp] theorem setInput_hdr (q : List Burst) (s : State) :
    (s.setInput q).hdr = s.hdr := rfl
@[simp] theorem setInput_hcrc (q : List Burst) (s : State) :
    (s.setInput q).hcrc = s.hcrc := rfl
@[simp] theorem setInput_plen (q : List Burst) (s : State) :
    (s.setInput q).plen = s.plen := rfl
@[simp] theorem setInput_olen (q : List Burst) (s : State) :
    (s.setInput q).olen = s.olen := rfl
@[simp] theorem setInput_ptype (q : List Burst) (s : State) :
    (s.setInput q).ptype = s.ptype := rfl
@[simp] theorem setInput_body (q : List Burst) (s : State) :
    (s.setInput q).body = s.body := rfl
@[simp] theorem setInput_input (q : List Burst) (s : State) :
    (s.setInput q).input = q := rfl
@[simp] theorem setInput_results (q : List Burst) (s : State) :
    (s.setInput q).results = s.results := rfl
@[simp] theorem setInput_traces (q : List Burst) (s : State) :
    (s.setInput q).traces = s.traces := rfl
@[simp] theorem setInput_port (q : List Burst) (s : State) :
    (s.setInput q).port = s.port := rfl
@[simp] theorem setInput_params (q : List Burst) (s : State) :
    (s.setInput q).params = s.params := rfl
@[simp] theorem toReset_mode (s : State) : s.toReset.mode = State.reset.mode := rfl
@[simp] theorem toReset_t (s : State) : s.toReset.t = State.reset.t := rfl
@[simp] theorem toReset_tw (s : State) : s.toReset.tw = State.reset.tw := rfl
@[simp] theorem toReset_p (s : State) : s.toReset.p = State.reset.p := rfl
@[simp] theorem toReset_np (s : State) : s.toReset.np = State.reset.np := rfl
@[simp] theorem toReset_povf (s : State) : s.toReset.povf = State.reset.povf := rfl
@[simp] theorem toReset_fsm (s : State) : s.toReset.fsm = State.reset.fsm := rfl
@[simp] theorem toReset_idx (s : State) : s.toReset.idx = State.reset.idx := rfl
@[simp] theorem toReset_hdr (s : State) : s.toReset.hdr = State.reset.hdr := rfl
@[simp] theorem toReset_hcrc (s : State) : s.toReset.hcrc = State.reset.hcrc := rfl
@[simp] theorem toReset_plen (s : State) : s.toReset.plen = State.reset.plen := rfl
@[simp] theorem toReset_olen (s : State) : s.toReset.olen = State.reset.olen := rfl
@[simp] theorem toReset_ptype (s : State) : s.toReset.ptype = State.reset.ptype := rfl
@[simp] theorem toReset_body (s : State) : s.toReset.body = State.reset.body := rfl
@[simp] theorem toReset_input (s : State) : s.toReset.input = s.input := rfl
@[simp] theorem toReset_results (s : State) : s.toReset.results = s.results := rfl
@[simp] theorem toReset_traces (s : State) : s.toReset.traces = s.traces := rfl
@[simp] theorem toReset_port (s : State) : s.toReset.port = State.reset.port := rfl
@[simp] theorem toReset_params (s : State) : s.toReset.params = s.params := rfl

end Sys2Proof.Machine
end

