-- ==== Sys2Proof/Laws/Ops.lean ====
section
/-! SUPPORT. What the shared operations can do, each said once: computations that may fault, reading
operands, ranges, the CRC fold, the flags, and taking an outcome. -/

namespace Sys2Proof.Machine

variable {α β : Type}

/-! ### Computations that may fault -/

@[simp] theorem ok_bind (a : α) (f : α → Except Fault β) : (Except.ok a >>= f) = f a := rfl

@[simp] theorem error_bind (e : Fault) (f : α → Except Fault β) :
    ((Except.error e : Except Fault α) >>= f) = .error e := rfl

@[simp] theorem pure_ok (a : α) : (pure a : Except Fault α) = .ok a := rfl

theorem bind_eq_ok {x : Except Fault α} {f : α → Except Fault β} {b : β} :
    (x >>= f) = .ok b ↔ ∃ a, x = .ok a ∧ f a = .ok b := by
  cases x <;> simp

@[simp] theorem toOut_ok (s : State) : toOut (.ok s) = .next s := rfl

@[simp] theorem toOut_error (e : Fault) : toOut (.error e) = .fault e := rfl

theorem toOut_eq_next {x : Except Fault State} {t : State} : toOut x = .next t ↔ x = .ok t := by
  cases x <;> simp [toOut]

theorem toOut_ne_refused (x : Except Fault State) (r : Refusal) : toOut x ≠ .refused r := by
  cases x <;> simp [toOut]

theorem noStep_ne_next (t : State) : noStep ≠ .next t := by simp [noStep]

/-! ### Operands -/

theorem need_eq_ok {r : Reg} {v : Option α} {a : α} : need r v = .ok a ↔ v = some a := by
  cases v <;> simp [need]

theorem live_eq_ok {s : State} {r : Reg} {v : Option α} {a : α} :
    s.live r v = .ok a ↔ s.fsm ≠ .idle ∧ v = some a := by
  unfold State.live
  split <;> simp_all [need_eq_ok]

theorem readPlen_eq_ok {s : State} {v : BitVec 16} :
    s.readPlen = .ok v ↔ s.fsm ≠ .idle ∧ s.plen = some v := live_eq_ok

theorem readOlen_eq_ok {s : State} {v : Byte} :
    s.readOlen = .ok v ↔ s.fsm ≠ .idle ∧ s.olen = some v := live_eq_ok

theorem readPtype_eq_ok {s : State} {v : Byte} :
    s.readPtype = .ok v ↔ s.fsm ≠ .idle ∧ s.ptype = some v := live_eq_ok

theorem readHcrc_eq_ok {s : State} {v : Byte} :
    s.readHcrc = .ok v ↔ s.fsm ≠ .idle ∧ s.hcrc = some v := live_eq_ok

theorem readHdr_eq_ok {s : State} {i : Nat} {v : Byte} :
    s.readHdr i = .ok v ↔ i < 4 ∧ s.fsm ≠ .idle ∧ s.hdr.read i = some v := by
  unfold State.readHdr
  split <;> simp_all [Config.headerLen, live_eq_ok]

theorem readBody_eq_ok {s : State} {i : Nat} {v : Byte} :
    s.readBody i = .ok v ↔ i < 129 ∧ s.fsm ≠ .idle ∧ s.body.read i = some v := by
  unfold State.readBody
  split <;> simp_all [Config.bodyCap, live_eq_ok]

theorem readEntry_eq_ok {s : State} {k : Nat} {p : Entry} :
    s.readEntry k = .ok p ↔ k < s.params.maxFields ∧ s.p.read k = some p := by
  unfold State.readEntry
  split <;> simp_all [need_eq_ok]

theorem storeBody_eq_ok {s t : State} {i : Nat} {b : Byte} :
    s.storeBody i b = .ok t ↔ i < 129 ∧ t = s.writeBody i b := by
  unfold State.storeBody
  split <;> simp_all [Config.bodyCap, eq_comm]

theorem bodyLen_eq_ok {s : State} {l : Nat} :
    s.bodyLen = .ok l ↔
      ∃ pl ol, s.fsm ≠ .idle ∧ s.plen = some pl ∧ s.olen = some ol ∧ l = pl.toNat + ol.toNat := by
  simp only [State.bodyLen, bind_eq_ok, readPlen_eq_ok, readOlen_eq_ok, pure_ok, Except.ok.injEq]
  constructor
  · rintro ⟨pl, ⟨h, h1⟩, ol, ⟨-, h2⟩, h3⟩
    exact ⟨pl, ol, h, h1, h2, h3.symm⟩
  · rintro ⟨pl, ol, h, h1, h2, h3⟩
    exact ⟨pl, ⟨h, h1⟩, ol, ⟨h, h2⟩, h3.symm⟩

/-- A range is read exactly when each of its elements is. -/
theorem readRange_eq_ok {read : Nat → Except Fault α} {i n : Nat} {xs : List α} :
    readRange read i n = .ok xs ↔
      xs.length = n ∧ ∀ j x, xs[j]? = some x → read (i + j) = .ok x := by
  induction n generalizing i xs with
  | zero =>
    simp only [readRange, Except.ok.injEq]
    constructor
    · rintro rfl; simp
    · rintro ⟨h, -⟩; exact (List.length_eq_zero_iff.1 h).symm
  | succ n ih =>
    simp only [readRange, bind_eq_ok, pure_ok, Except.ok.injEq, ih]
    constructor
    · rintro ⟨x, hx, ys, ⟨hl, hy⟩, rfl⟩
      refine ⟨by simp [hl], fun j y hj => ?_⟩
      cases j with
      | zero => simp at hj; simpa [← hj] using hx
      | succ j => have := hy j y (by simpa using hj); rw [← this]; congr 1; omega
    · rintro ⟨hl, hx⟩
      cases xs with
      | nil => simp at hl
      | cons x ys =>
        refine ⟨x, by simpa using hx 0 x rfl, ys, ⟨by simpa using hl, fun j y hj => ?_⟩, rfl⟩
        have := hx (j + 1) y (by simpa using hj)
        rw [← this]; congr 1; omega

/-! ### The CRC -/

theorem tableEntry_eq_ok {t : Memory Byte} {i v : Byte} :
    tableEntry t i = .ok v ↔ t.read i.toNat = some v := need_eq_ok

/-- The loop of R120 over a total table is a left fold. -/
theorem crcFold_of_total {t : Memory Byte} {f : Byte → Byte}
    (h : ∀ i : Byte, t.read i.toNat = some (f i)) (c : Byte) (bs : List Byte) :
    crcFold t c bs = .ok (bs.foldl (fun c b => f (c ^^^ b)) c) := by
  induction bs generalizing c with
  | nil => rfl
  | cons b bs ih => simp [crcFold, tableEntry_eq_ok.2 (h (c ^^^ b)), ih]

/-- The engine over a total table, inside its range. -/
theorem crc8_of_total {t : Memory Byte} {f : Byte → Byte}
    (h : ∀ i : Byte, t.read i.toNat = some (f i)) {data : List Byte} {offset count : Nat}
    (hr : offset + count ≤ data.length) :
    crc8 t data offset count = .ok (crcOf f ((data.drop offset).take count)) := by
  have : ¬ offset + count > data.length := by omega
  simp [crc8, this, crcFold_of_total h, crcOf, Config.crcInit]

/-! ### Flags -/

theorem getLsbD_setWritten (tw : BitVec 256) (i : Byte) (j : Nat) :
    (setWritten tw i).getLsbD j = (tw.getLsbD j || decide (j = i.toNat)) := by
  have := i.isLt
  simp only [setWritten, BitVec.getLsbD_or, BitVec.getLsbD_twoPow]
  by_cases h : j = i.toNat
  · subst h; simp; omega
  · simp [h, Ne.symm h]

theorem leastUnwrittenFrom_eq_some {tw : BitVec 256} {fuel i k : Nat} :
    leastUnwrittenFrom tw fuel i = some k ↔
      i ≤ k ∧ k < i + fuel ∧ tw.getLsbD k = false ∧ ∀ j, i ≤ j → j < k → tw.getLsbD j = true := by
  induction fuel generalizing i with
  | zero => simp [leastUnwrittenFrom]; omega
  | succ fuel ih =>
    unfold leastUnwrittenFrom
    split
    · rename_i h
      rw [ih]
      constructor
      · rintro ⟨h1, h2, h3, h4⟩
        refine ⟨by omega, by omega, h3, fun j hj hk => ?_⟩
        rcases Nat.eq_or_lt_of_le hj with rfl | h5
        · exact h
        · exact h4 j h5 hk
      · rintro ⟨h1, h2, h3, h4⟩
        have : i ≠ k := fun e => by simp [e, h3] at h
        exact ⟨by omega, by omega, h3, fun j hj hk => h4 j (by omega) hk⟩
    · rename_i h
      simp only [Option.some.injEq]
      constructor
      · rintro rfl
        exact ⟨le_refl _, by omega, by simpa using h, fun j h1 h2 => absurd h1 (by omega)⟩
      · rintro ⟨h1, h2, h3, h4⟩
        by_contra hne
        exact h (h4 i (le_refl _) (by omega))

theorem leastUnwritten_eq_some {tw : BitVec 256} {k : Nat} :
    leastUnwritten tw = some k ↔
      k < 256 ∧ tw.getLsbD k = false ∧ ∀ j, j < k → tw.getLsbD j = true := by
  simp [leastUnwritten, leastUnwrittenFrom_eq_some]

theorem leastUnwritten_eq_none {tw : BitVec 256} :
    leastUnwritten tw = none ↔ ∀ i, i < 256 → tw.getLsbD i = true := by
  constructor
  · intro h i hi
    by_contra hc
    have hex : ∃ k, k < 256 ∧ tw.getLsbD k = false := ⟨i, hi, by simpa using hc⟩
    classical
    have := leastUnwritten_eq_some (tw := tw) (k := Nat.find hex)
    rw [h] at this
    refine absurd (this.2 ⟨(Nat.find_spec hex).1, (Nat.find_spec hex).2, fun j hj => ?_⟩) (by simp)
    have h1 := Nat.find_min hex hj
    have h2 := (Nat.find_spec hex).1
    by_contra h3
    exact h1 ⟨by omega, by simpa using h3⟩
  · intro h
    cases hk : leastUnwritten tw with
    | none => rfl
    | some k =>
      obtain ⟨h1, h2, -⟩ := leastUnwritten_eq_some.1 hk
      simp [h k h1] at h2

/-! ### Taking an outcome -/

/-- What taking an outcome writes: the record, and `FSM` or `MODE` (R261). -/
theorem takeOutcome_cases (r : Result) (s : State) :
    s.takeOutcome r = (s.emitResult r).setFsm .idle ∨
      s.takeOutcome r = (s.emitResult r).setMode .run ∨
      s.takeOutcome r = (s.emitResult r).setMode .halted := by
  cases r <;> simp [State.takeOutcome]

/-- The two halves of a frame's end (R149, R150) are one outcome taken (R261). -/
theorem frameEnd_emitResult (r : Result) (s : State)
    (h : s.takeOutcome r = (s.emitResult r).setFsm .idle) :
    frameEnd (s.emitResult r) = s.takeOutcome r := h.symm

/-! ### Lengths -/

theorem toNat_assembleLength (hi lo : Byte) :
    (assembleLength hi lo).toNat = hi.toNat * 256 + lo.toNat := by
  simp only [assembleLength, BitVec.toNat_append]
  rw [← Nat.shiftLeft_add_eq_or_of_lt lo.isLt, Nat.shiftLeft_eq]

theorem clampPlen_le (pl0 : Nat) : clampPlen pl0 ≤ 128 := by
  unfold clampPlen Config.bufferLength; split <;> omega

theorem bodyLength_le (pl0 ol0 : Nat) : bodyLength pl0 ol0 ≤ 128 := by
  unfold bodyLength clampPlen clampOlen Config.bufferLength
  split
  · omega
  · split <;> omega

/-- `LEN.CLAMP` writes the clamped lengths (R146). -/
theorem clampedTo_clamp (pl0 : BitVec 16) (ol0 : Byte) :
    ClampedTo pl0.toNat ol0.toNat (BitVec.ofNat 16 (clampPlen pl0.toNat))
      (BitVec.ofNat 8 (clampOlen pl0.toNat ol0.toNat)) := by
  have h1 := pl0.isLt
  have h2 := ol0.isLt
  unfold ClampedTo clampPlen clampOlen Config.bufferLength
  simp only [BitVec.toNat_ofNat]
  split
  · simp
  · split <;> constructor <;> omega

theorem ClampedTo.le {pl0 ol0 : Nat} {pl : BitVec 16} {ol : Byte} (h : ClampedTo pl0 ol0 pl ol) :
    pl.toNat ≤ 128 ∧ pl.toNat + ol.toNat ≤ 128 := by
  unfold ClampedTo at h; split at h
  · omega
  · split at h <;> omega

end Sys2Proof.Machine
end

