-- ==== Sys2Proof/Laws/Control.lean ====
section
/-! SUPPORT. What `CFG.CHECK` can say (R235): each check passes or decides. -/

namespace Sys2Proof.Machine

/-- An entry passes the checks of `START` exactly when it is legal (R24, R235). -/
theorem entryFault_none {n : NumOps Num} {k : Nat} {p : Entry} :
    entryFault n k p = none ↔ LegalEntry n p := by
  unfold entryFault LegalEntry SoundEntry Config.bits
  repeat' split
  all_goals simp_all
  all_goals try omega
  intro _ _ h; simp_all

/-- An entry that fails checks 3a to 3c is malformed (R235). -/
theorem entryFault_malformed {n : NumOps Num} {k : Nat} {p : Entry} (h : ¬ SoundEntry n p) :
    entryFault n k p = some (.paramMalformed k) := by
  unfold SoundEntry at h
  unfold entryFault Config.bits
  repeat' split
  all_goals simp_all

/-- An entry that fails only check 3d has a degenerate range (R206, R235). -/
theorem entryFault_degenerate {n : NumOps Num} {k : Nat} {p : Entry} (h : SoundEntry n p)
    (hd : p.rawMin = p.rawMax) : entryFault n k p = some (.divisionByZero k) := by
  obtain ⟨h1, h2, h3, h4⟩ := h
  have h5 : ¬ p.bitWidth.toNat = 0 := by omega
  have h6 : ¬ p.bitOffset.toNat + p.bitWidth.toNat > 72 := by omega
  simp [entryFault, Config.bits, h5, h6, h3, h4, hd]

/-- The entries from `k` on can be read and are legal. -/
def LegalFrom (s : State) (k n : Nat) : Prop :=
  ∀ j, k ≤ j → j < k + n → ∃ p, s.readEntry j = .ok p ∧ LegalEntry (numOps s.params.num) p

theorem legalFrom_zero {s : State} {n : Nat} (h : EntriesLegal s n) (hn : n ≤ s.params.maxFields) :
    LegalFrom s 0 n := by
  intro j _ hj
  obtain ⟨p, hp, hl⟩ := h j (by omega)
  exact ⟨p, readEntry_eq_ok.2 ⟨by omega, hp⟩, hl⟩

theorem checkEntries_none {s : State} {k n : Nat} (h : LegalFrom s k n) :
    checkEntries s k n = .ok none := by
  induction n generalizing k with
  | zero => rfl
  | succ n ih =>
    obtain ⟨p, hp, hl⟩ := h k (le_refl _) (by omega)
    simp [checkEntries, hp, entryFault_none.2 hl]
    exact ih fun j h1 h2 => h j (by omega) (by omega)

theorem checkEntries_some {s : State} {k n m : Nat} {r : Result} {p : Entry} (h : LegalFrom s k m)
    (hm : m < n) (hp : s.readEntry (k + m) = .ok p)
    (hr : entryFault (numOps s.params.num) (k + m) p = some r) :
    checkEntries s k n = .ok (some r) := by
  induction n generalizing k m with
  | zero => omega
  | succ n ih =>
    cases m with
    | zero => simp at hp hr; simp [checkEntries, hp, hr]
    | succ m =>
      obtain ⟨q, hq, hl⟩ := h k (le_refl _) (by omega)
      simp [checkEntries, hq, entryFault_none.2 hl]
      exact ih (k := k + 1) (m := m) (fun j h1 h2 => h j (by omega) (by omega)) (by omega)
        (by rw [← hp]; congr 1; omega) (by rw [← hr]; congr 1; omega)

/-- `CFG.CHECK` answers the verdict of R235. -/
theorem cfgCheck_of_verdict {s : State} {r : Result} (hn : s.np ≤ s.params.maxFields)
    (h : ConfigVerdict s r) : cfgCheck s = .ok r := by
  cases r <;> simp only [ConfigVerdict] at h
  case cfgOk n =>
    obtain ⟨⟨hw, ho, hl⟩, rfl⟩ := h
    simp [cfgCheck, leastUnwritten_eq_none.2 hw, ho, checkEntries_none (legalFrom_zero hl hn)]
  case crcTableMissing i => simp [cfgCheck, leastUnwritten_eq_some.2 h]
  case paramMalformed k =>
    obtain ⟨hw, ⟨ho, rfl⟩ | ⟨ho, hk, hl, p, hp, hs⟩⟩ := h
    · simp [cfgCheck, leastUnwritten_eq_none.2 hw, ho]
    · have hc := checkEntries_some (legalFrom_zero hl (by omega)) hk (p := p)
        (readEntry_eq_ok.2 ⟨by omega, by simpa using hp⟩) (entryFault_malformed hs)
      simp [cfgCheck, leastUnwritten_eq_none.2 hw, ho, hc]
  case divisionByZero k =>
    obtain ⟨hw, ho, hk, hl, p, hp, hs, hd⟩ := h
    have hc := checkEntries_some (legalFrom_zero hl (by omega)) hk (p := p)
      (readEntry_eq_ok.2 ⟨by omega, by simpa using hp⟩) (entryFault_degenerate hs hd)
    simp [cfgCheck, leastUnwritten_eq_none.2 hw, ho, hc]

/-- A table that is not legal has a first entry that is not. -/
theorem exists_first_illegal {s : State} {n : Nat}
    (hr : ∀ k, k < n → (s.p.read k).isSome = true) (h : ¬ EntriesLegal s n) :
    ∃ k p, k < n ∧ EntriesLegal s k ∧ s.p.read k = some p ∧
      ¬ LegalEntry (numOps s.params.num) p := by
  induction n with
  | zero => exact absurd (fun k hk => absurd hk (by omega)) h
  | succ n ih =>
    by_cases hl : EntriesLegal s n
    · obtain ⟨p, hp⟩ := Option.isSome_iff_exists.1 (hr n (by omega))
      refine ⟨n, p, by omega, hl, hp, fun hh => h fun k hk => ?_⟩
      rcases Nat.lt_succ_iff_lt_or_eq.1 hk with h1 | rfl
      · exact hl k h1
      · exact ⟨p, hp, hh⟩
    · obtain ⟨k, p, h1, h2⟩ := ih (fun k hk => hr k (by omega)) hl
      exact ⟨k, p, by omega, h2⟩

/-- Some verdict always holds where the entries below `NP` are there. -/
theorem exists_verdict {s : State} (hr : ∀ k, k < s.np → (s.p.read k).isSome = true) :
    ∃ r, ConfigVerdict s r := by
  cases hl : leastUnwritten s.tw with
  | some i => exact ⟨.crcTableMissing i, leastUnwritten_eq_some.1 hl⟩
  | none =>
    have hw : AllWritten s := leastUnwritten_eq_none.1 hl
    cases ho : s.povf with
    | true => exact ⟨.paramMalformed _, hw, .inl ⟨ho, rfl⟩⟩
    | false =>
      by_cases he : EntriesLegal s s.np
      · exact ⟨.cfgOk s.np, ⟨hw, ho, he⟩, rfl⟩
      · obtain ⟨k, p, h1, h2, h3, h4⟩ := exists_first_illegal hr he
        by_cases hs : SoundEntry (numOps s.params.num) p
        · exact ⟨.divisionByZero k, hw, ho, h1, h2, p, h3, hs, by_contra fun hh => h4 ⟨hs, hh⟩⟩
        · exact ⟨.paramMalformed k, hw, .inr ⟨ho, h1, h2, p, h3, hs⟩⟩

end Sys2Proof.Machine
end

