-- ==== Sys2Proof/Laws/Telegram.lean ====
section
/-! SUPPORT. The bit string (R97, R184, R185), the fields (R200, R201), and the decode (R180). -/

namespace Sys2Proof.Machine

theorem tgBitcat_ok {s : State} {bs : List Byte} (hf : s.fsm ≠ .idle) (hl : bs.length = 9)
    (hb : ∀ j, j < 9 → s.body.read (5 + j) = bs[j]?) : tgBitcat s = .ok (bitConcat bs) := by
  have : readRange s.readBody Config.leadings Config.dataBytes = .ok bs := by
    refine readRange_eq_ok.2 ⟨hl, fun j x hj => ?_⟩
    obtain ⟨h1, -⟩ := List.getElem?_eq_some_iff.1 hj
    exact readBody_eq_ok.2 ⟨by simp [Config.leadings]; omega, hf,
      by rw [show Config.leadings = 5 from rfl, hb j (by omega), hj]⟩
  simp [tgBitcat, this]

theorem toNat_concat_byte (v : BitString) (b : Byte) (h : v.toNat < 2 ^ 64) :
    ((v <<< 8) ||| b.zeroExtend 72).toNat = v.toNat * 256 + b.toNat := by
  have hb := b.isLt
  simp only [BitVec.toNat_or, BitVec.toNat_shiftLeft, BitVec.toNat_setWidth,
    BitVec.truncate_eq_setWidth]
  rw [Nat.mod_eq_of_lt (a := b.toNat) (by omega),
    Nat.mod_eq_of_lt (by rw [Nat.shiftLeft_eq]; omega), ← Nat.shiftLeft_add_eq_or_of_lt hb,
    Nat.shiftLeft_eq]

theorem natOfBytes_foldl (n : Nat) (bs : List Byte) :
    bs.foldl (fun n b => n * 256 + b.toNat) n = n * 256 ^ bs.length + natOfBytes bs := by
  induction bs generalizing n with
  | nil => simp [natOfBytes]
  | cons b bs ih =>
    simp only [natOfBytes, List.foldl_cons, List.length_cons]
    rw [ih, ih (0 * 256 + b.toNat)]
    ring

theorem natOfBytes_cons (b : Byte) (bs : List Byte) :
    natOfBytes (b :: bs) = 2 ^ (8 * bs.length) * b.toNat + natOfBytes bs := by
  rw [natOfBytes, List.foldl_cons, natOfBytes_foldl, pow_mul]
  norm_num [mul_comm]

theorem natOfBytes_lt (bs : List Byte) : natOfBytes bs < 2 ^ (8 * bs.length) := by
  induction bs with
  | nil => simp [natOfBytes]
  | cons b bs ih =>
    have hb := b.isLt
    have h2 : 2 ^ (8 * bs.length) * (b.toNat + 1) ≤ 2 ^ (8 * bs.length) * 256 :=
      Nat.mul_le_mul_left _ (by omega)
    rw [natOfBytes_cons, List.length_cons, Nat.mul_succ, pow_add]
    linarith

theorem toNat_foldl_concat (bs : List Byte) (v : BitString) (k : Nat) (hk : v.toNat < 256 ^ k)
    (h : k + bs.length ≤ 9) :
    (bs.foldl (fun (v : BitString) (b : Byte) => (v <<< 8) ||| b.zeroExtend 72) v).toNat =
      v.toNat * 256 ^ bs.length + natOfBytes bs := by
  induction bs generalizing v k with
  | nil => simp [natOfBytes]
  | cons b bs ih =>
    simp at h
    have h8 : v.toNat < 2 ^ 64 := by
      refine lt_of_lt_of_le hk ?_
      calc 256 ^ k ≤ 256 ^ 8 := Nat.pow_le_pow_right (by omega) (by omega)
        _ = 2 ^ 64 := by norm_num
    have hb := b.isLt
    simp only [List.foldl_cons, List.length_cons]
    rw [ih _ (k + 1) (by rw [toNat_concat_byte v b h8, pow_succ]; omega) (by omega),
      toNat_concat_byte v b h8, natOfBytes_cons, pow_mul]
    norm_num
    ring

/-- As one integer, `B` is the nine bytes, the first most significant (R185). -/
theorem bitConcat_toNat (bs : List Byte) (h : bs.length = 9) :
    (bitConcat bs).toNat = natOfBytes bs := by
  simpa [bitConcat] using toNat_foldl_concat bs 0 0 (by simp) (by omega)

/-- A bit of the number that bytes spell (R62, R63). -/
theorem natOfBytes_testBit (bs : List Byte) (k : Nat) (hk : k < 8 * bs.length) :
    (natOfBytes bs).testBit (8 * bs.length - 1 - k) =
      (bs[k / 8]'(by omega)).getLsbD (7 - k % 8) := by
  induction bs generalizing k with
  | nil => simp at hk
  | cons b bs ih =>
    rw [natOfBytes_cons, Nat.testBit_two_pow_mul_add _ (natOfBytes_lt bs)]
    simp only [List.length_cons] at hk ⊢
    by_cases h : k < 8
    · have h1 : k / 8 = 0 := by omega
      have h2 : ¬ 8 * (bs.length + 1) - 1 - k < 8 * bs.length := by omega
      simp only [h1, h2, if_false, List.getElem_cons_zero, BitVec.getLsbD]
      congr 1; omega
    · have h1 : k / 8 = (k - 8) / 8 + 1 := by omega
      have h2 : 8 * (bs.length + 1) - 1 - k < 8 * bs.length := by omega
      have h3 : 8 * (bs.length + 1) - 1 - k = 8 * bs.length - 1 - (k - 8) := by omega
      have h4 : 7 - (k - 8) % 8 = 7 - k % 8 := by omega
      simp only [h1, h2, if_true, List.getElem_cons_succ]
      rw [h3, ih (k - 8) (by omega), h4]

/-- `B[k]` (R97). -/
theorem bitConcat_bit (bs : List Byte) (h : bs.length = 9) (k : Nat) (hk : k < 72) :
    (bitConcat bs).getMsbD k = (bs[k / 8]'(by omega)).getLsbD (7 - k % 8) := by
  rw [← natOfBytes_testBit bs k (by omega), ← bitConcat_toNat bs h, h]
  simp [BitVec.getMsbD, hk, BitVec.getLsbD]

/-- A field as a shift and a mask (R201). -/
theorem fieldValue_eq (b : BitString) (off w : Nat) (h : off + w ≤ 72) :
    fieldValue b off w = b.toNat / 2 ^ (72 - off - w) % 2 ^ w := by
  induction w with
  | zero => simp [fieldValue, Nat.mod_one]
  | succ w ih =>
    have e : (b.getMsbD (off + w)).toNat = b.toNat / 2 ^ (72 - off - (w + 1)) % 2 := by
      have h1 : 71 - (off + w) = 72 - off - (w + 1) := by omega
      simp [BitVec.getMsbD, show off + w < 72 by omega, BitVec.getLsbD,
        Nat.testBit_eq_decide_div_mod_eq, h1]
      rcases Nat.mod_two_eq_zero_or_one (b.toNat / 2 ^ (72 - off - (w + 1))) with h | h <;> simp [h]
    rw [fieldValue, ih (by omega), e, show 72 - off - w = (72 - off - (w + 1)) + 1 by omega,
      pow_succ 2 (72 - off - (w + 1)), ← Nat.div_div_eq_div_mul]
    generalize b.toNat / 2 ^ (72 - off - (w + 1)) = x
    rw [pow_succ, mul_comm (2 ^ w) 2, Nat.mod_mul (x := x)]
    omega

/-- A legal entry is decoded as the closed form says (R201 to R205). -/
theorem fdField_ok {n : NumOps Num} {b : BitString} {p : Entry} (h : LegalEntry n p) :
    fdField n b p = .ok (measurementOf n b.toNat p) := by
  obtain ⟨⟨h1, h2, -⟩, h3⟩ := h
  have h4 : ¬ p.bitOffset.toNat + p.bitWidth.toNat > 72 := by omega
  have h5 : ¬ p.bitWidth.toNat = 0 := by omega
  have h6 : ¬ p.rawMin - p.rawMax = 0 := by omega
  simp only [fdField, fdExtract, Config.bits, h4, h5, fdSlope, fdOffset, h6, if_false, ok_bind,
    pure_ok, fieldValue_eq _ _ _ h2]
  rfl

/-- `FD.FIELDS` over a legal table (R200). -/
theorem fdFields_ok {b : BitString} {s : State} (hn : s.np ≤ s.params.maxFields)
    (h : EntriesLegal s s.np) : ∃ ms, fdFields b s = .ok ms ∧ MeasurementsOf s b.toNat ms := by
  let ms : List Measurement := (List.range s.np).map fun k =>
    match s.p.read k with
    | some p => measurementOf (numOps s.params.num) b.toNat p
    | none => ⟨[], .f64 0, []⟩
  refine ⟨ms, readRange_eq_ok.2 ⟨by simp [ms], ?_⟩, by simp [ms], ?_⟩
  · intro j x hj
    obtain ⟨h1, h2⟩ := List.getElem?_eq_some_iff.1 hj
    simp [ms] at h1
    obtain ⟨p, hp, hl⟩ := h j h1
    simp [ms, hp] at h2
    simp [readEntry_eq_ok.2 ⟨(by omega : j < s.params.maxFields), hp⟩, fdField_ok hl, h2]
  · intro k p hk hp
    simp [ms, hk, hp]

/-- What the decode of `bs`, the nine sensor bytes, answers: its tests in order (R180, R260). -/
def DecodeAnswer (s : State) (pt tt : Byte) (pl : BitVec 16) (bs : List Byte) (r : Result) : Prop :=
  if pt ≠ 0x0A then r = .none
  else if tt ≠ 0x24 then r = .none
  else if pl.toNat ≠ 15 then r = .unsupportedDataLength pl
  else ∃ ms, r = .measurements ms ∧ MeasurementsOf s (natOfBytes bs) ms

theorem tgDecode_ok {s : State} {pt tt : Byte} {pl : BitVec 16} {bs : List Byte}
    (hf : s.fsm ≠ .idle) (hp : s.ptype = some pt) (ht : s.body.read 0 = some tt)
    (hpl : s.plen = some pl)
    (hg : pt = 0x0A → tt = 0x24 → pl.toNat = 15 →
      bs.length = 9 ∧ (∀ j, j < 9 → s.body.read (5 + j) = bs[j]?) ∧
        s.np ≤ s.params.maxFields ∧ EntriesLegal s s.np) :
    ∃ r, tgDecode s = .ok r ∧ DecodeAnswer s pt tt pl bs r := by
  unfold tgDecode DecodeAnswer
  simp only [tgPtype, readPtype_eq_ok.2 ⟨hf, hp⟩, ok_bind, pure_ok, Config.radioAdvanced]
  by_cases h1 : pt = 0x0A
  · subst h1
    simp only [if_true, tgTtype, readBody_eq_ok.2 ⟨(by omega : 0 < 129), hf, ht⟩, ok_bind, pure_ok,
      Config.ttVld9]
    by_cases h2 : tt = 0x24
    · subst h2
      simp only [if_true, tgLguard, readPlen_eq_ok.2 ⟨hf, hpl⟩, ok_bind, pure_ok,
        Config.sensorDataLength]
      by_cases h3 : pl.toNat = 15
      · obtain ⟨g1, g2, g3, g4⟩ := hg rfl rfl h3
        obtain ⟨ms, m1, m2⟩ := fdFields_ok (b := bitConcat bs) g3 g4
        rw [bitConcat_toNat _ g1] at m2
        exact ⟨.measurements ms, by simp [h3, tgBitcat_ok hf g1 g2, m1], by simpa [h3] using m2⟩
      · exact ⟨_, by simp [h3]; rfl, by simp [h3]⟩
    · have h2' : ¬ tt = 36#8 := h2
      exact ⟨_, by simp [h2']; rfl, by simp [h2']⟩
  · have h1' : ¬ pt = 10#8 := h1
    exact ⟨_, by simp [h1']; rfl, by simp [h1']⟩

end Sys2Proof.Machine
end

