-- ==== Sys2Proof/Laws/Decode.lean ====
section
/-! SUPPORT. Each reader of the decoder and the writer it undoes: what a reader answers, both ways. -/

namespace Sys2Proof

open Sys2Proof.Machine (natOfBytes_cons natOfBytes_lt)

variable {bs tail : List Byte}

theorem takeByte_eq_some {b : Byte} : takeByte bs = some (b, tail) ↔ bs = b :: tail := by
  cases bs <;> simp [takeByte]

theorem takeBytes_eq_some {n : Nat} {xs : List Byte} :
    takeBytes n bs = some (xs, tail) ↔ xs.length = n ∧ bs = xs ++ tail := by
  induction n generalizing bs xs with
  | zero =>
    simp only [takeBytes, Option.some.injEq, Prod.mk.injEq]
    constructor
    · rintro ⟨rfl, rfl⟩; simp
    · rintro ⟨h, rfl⟩; simp [List.length_eq_zero_iff.1 h]
  | succ n ih =>
    cases bs with
    | nil =>
      simp only [takeBytes, reduceCtorEq, false_iff, not_and]
      intro h1 h2
      have := congrArg List.length h2
      simp at this; omega
    | cons b bs =>
      simp only [takeBytes, Option.map_eq_some_iff, Prod.exists, Prod.mk.injEq]
      constructor
      · rintro ⟨ys, t, h, rfl, rfl⟩
        obtain ⟨h1, rfl⟩ := ih.1 h
        simp [h1]
      · rintro ⟨h1, h2⟩
        cases xs with
        | nil => simp at h1
        | cons x xs =>
          simp only [List.cons_append, List.cons.injEq] at h2
          exact ⟨xs, tail, ih.2 ⟨by simpa using h1, h2.2⟩, by rw [h2.1], rfl⟩

theorem length_bytesOfNat (n v : Nat) : (bytesOfNat n v).length = n := by
  induction n with
  | zero => rfl
  | succ n ih => simp [bytesOfNat, ih]

theorem natOfBytes_bytesOfNat {n v : Nat} : natOfBytes (bytesOfNat n v) = v % 2 ^ (8 * n) := by
  induction n with
  | zero => simp [bytesOfNat, natOfBytes, Nat.mod_one]
  | succ n ih =>
    have e1 : (256 : Nat) ^ n = 2 ^ (8 * n) := by rw [show (256 : Nat) = 2 ^ 8 from rfl, ← pow_mul]
    rw [bytesOfNat, natOfBytes_cons, ih, length_bytesOfNat, BitVec.toNat_ofNat, e1,
      show 8 * (n + 1) = 8 * n + 8 by omega, pow_add, Nat.mod_mul]
    omega

theorem bytesOfNat_congr {n v w : Nat} (h : v % 2 ^ (8 * n) = w % 2 ^ (8 * n)) :
    bytesOfNat n v = bytesOfNat n w := by
  induction n generalizing v w with
  | zero => rfl
  | succ n ih =>
    have e1 : (256 : Nat) ^ n = 2 ^ (8 * n) := by rw [show (256 : Nat) = 2 ^ 8 from rfl, ← pow_mul]
    rw [show 8 * (n + 1) = 8 * n + 8 by omega, pow_add, Nat.mod_mul, Nat.mod_mul] at h
    have hp : 0 < 2 ^ (8 * n) := by positivity
    have h1 : v % 2 ^ (8 * n) = w % 2 ^ (8 * n) := by
      have := congrArg (· % 2 ^ (8 * n)) h
      simpa [Nat.add_mul_mod_self_left] using this
    have h2 : v / 2 ^ (8 * n) % 2 ^ 8 = w / 2 ^ (8 * n) % 2 ^ 8 := by
      rw [h1] at h
      exact Nat.eq_of_mul_eq_mul_left hp (Nat.add_left_cancel h)
    simp only [bytesOfNat, List.cons.injEq, e1]
    refine ⟨BitVec.eq_of_toNat_eq ?_, ih h1⟩
    simpa using h2

theorem bytesOfNat_natOfBytes (bs : List Byte) : bytesOfNat bs.length (natOfBytes bs) = bs := by
  induction bs with
  | nil => rfl
  | cons b bs ih =>
    have e1 : (256 : Nat) ^ bs.length = 2 ^ (8 * bs.length) := by
      rw [show (256 : Nat) = 2 ^ 8 from rfl, ← pow_mul]
    have hp : 0 < 2 ^ (8 * bs.length) := by positivity
    simp only [List.length_cons, bytesOfNat, natOfBytes_cons, List.cons.injEq, e1]
    refine ⟨?_, ?_⟩
    · rw [Nat.mul_add_div hp, Nat.div_eq_of_lt (natOfBytes_lt bs)]
      simp
    · rw [← bytesOfNat_congr (v := natOfBytes bs) (by simp), ih]

/-- A number read is one of `n` bytes, and its bytes were there. -/
theorem takeNat_eq_some {n v : Nat} :
    takeNat n bs = some (v, tail) ↔ v < 2 ^ (8 * n) ∧ bs = bytesOfNat n v ++ tail := by
  simp only [takeNat, Option.map_eq_some_iff, Prod.exists, Prod.mk.injEq, takeBytes_eq_some]
  constructor
  · rintro ⟨xs, t, ⟨rfl, rfl⟩, rfl, rfl⟩
    exact ⟨natOfBytes_lt xs, by rw [bytesOfNat_natOfBytes]⟩
  · rintro ⟨h, rfl⟩
    exact ⟨_, _, ⟨length_bytesOfNat n v, rfl⟩, by
      rw [natOfBytes_bytesOfNat, Nat.mod_eq_of_lt h], rfl⟩

theorem takeWord_eq_some {n : Nat} {v : BitVec (8 * n)} :
    takeWord n bs = some (v, tail) ↔ bs = putWord n v ++ tail := by
  simp only [takeWord, Option.map_eq_some_iff, Prod.exists, Prod.mk.injEq, takeNat_eq_some, putWord]
  constructor
  · rintro ⟨x, t, ⟨h, rfl⟩, rfl, rfl⟩
    rw [BitVec.toNat_ofNat, Nat.mod_eq_of_lt h]
  · rintro rfl
    exact ⟨v.toNat, tail, ⟨v.isLt, rfl⟩, by simp, rfl⟩

theorem takeBlob_eq_some {xs : List Byte} :
    takeBlob bs = some (xs, tail) ↔ xs.length ≤ maxBlob ∧ bs = putBlob xs ++ tail := by
  simp only [takeBlob, Option.bind_eq_bind, Option.bind_eq_some_iff, Prod.exists, takeByte_eq_some,
    takeBytes_eq_some, putBlob, maxBlob]
  constructor
  · rintro ⟨n, t, rfl, h, rfl⟩
    have := n.isLt
    refine ⟨by omega, ?_⟩
    rw [h]; simp
  · rintro ⟨h, rfl⟩
    exact ⟨_, _, rfl, by simp; omega, rfl⟩

theorem take7_eq_some {v : BitVec 7} : take7 bs = some (v, tail) ↔ bs = put7 v ++ tail := by
  simp only [take7, Option.bind_eq_bind, Option.bind_eq_some_iff, Prod.exists, takeByte_eq_some, put7]
  constructor
  · rintro ⟨b, t, rfl, h⟩
    split at h
    · rename_i hb
      simp only [Option.some.injEq, Prod.mk.injEq] at h
      obtain ⟨rfl, rfl⟩ := h
      have : BitVec.ofNat 8 (BitVec.ofNat 7 b.toNat).toNat = b := by
        apply BitVec.eq_of_toNat_eq
        simp; omega
      simp only [List.cons_append, List.nil_append, this]
    · simp at h
  · rintro rfl
    have h7 := v.isLt
    have h8 : (BitVec.ofNat 8 v.toNat).toNat = v.toNat := by simp; omega
    refine ⟨_, _, rfl, ?_⟩
    rw [h8, if_pos (by omega)]
    simp

theorem le_bytesFor (w : Nat) : w ≤ 8 * bytesFor w := by unfold bytesFor; omega

/-- An integer that fits `w` bits survives the bytes that hold them. -/
theorem toInt_ofInt_of_rawFits {w : Nat} {r : Int} (h : rawFits w r = true) :
    (BitVec.ofInt (8 * bytesFor w) r).toInt = r := by
  simp only [rawFits, Bool.and_eq_true, decide_eq_true_eq] at h
  have hp : (2 : Int) ^ w ≤ 2 ^ (8 * bytesFor w) :=
    pow_le_pow_right₀ (by norm_num) (le_bytesFor w)
  rw [BitVec.toInt_ofInt]
  apply Int.bmod_eq_of_le <;> push_cast <;> omega

/-- An integer read fits its width, and its bytes were there. -/
theorem takeRaw_eq_some {w : Nat} {r : Int} :
    takeRaw w bs = some (r, tail) ↔ rawFits w r = true ∧ bs = putRaw w r ++ tail := by
  simp only [takeRaw, Option.bind_eq_bind, Option.bind_eq_some_iff, Prod.exists, takeNat_eq_some,
    putRaw]
  constructor
  · rintro ⟨n, t, ⟨h, rfl⟩, h2⟩
    split at h2
    · rename_i hf
      simp only [Option.some.injEq, Prod.mk.injEq] at h2
      obtain ⟨rfl, rfl⟩ := h2
      refine ⟨hf, ?_⟩
      rw [BitVec.ofInt_toInt, BitVec.toNat_ofNat, Nat.mod_eq_of_lt h]
    · simp at h2
  · rintro ⟨h, rfl⟩
    refine ⟨(BitVec.ofInt (8 * bytesFor w) r).toNat, tail, ⟨BitVec.isLt _, rfl⟩, ?_⟩
    rw [BitVec.ofNat_toNat, BitVec.setWidth_eq, toInt_ofInt_of_rawFits h, if_pos h]

/-- A rational read is in lowest terms, and its bytes were there. -/
theorem takeRat_eq_some {q : Rat} :
    takeRat bs = some (q, tail) ↔ numFits .rational (.rat q) = true ∧ bs = putNum (.rat q) ++ tail := by
  simp only [takeRat, Option.bind_eq_bind, Option.bind_eq_some_iff, Prod.exists, takeNat_eq_some,
    takeRaw_eq_some, numFits, putNum, Bool.and_eq_true, decide_eq_true_eq, List.append_assoc]
  constructor
  · rintro ⟨num, _, ⟨h1, rfl⟩, den, t, ⟨h2, rfl⟩, h3⟩
    split at h3
    · rename_i hq
      simp only [Option.some.injEq, Prod.mk.injEq] at h3
      obtain ⟨rfl, rfl⟩ := h3
      rw [hq.1, hq.2]
      exact ⟨⟨h1, h2⟩, rfl⟩
    · simp at h3
  · rintro ⟨⟨h1, h2⟩, rfl⟩
    refine ⟨q.num, _, ⟨h1, rfl⟩, q.den, tail, ⟨h2, rfl⟩, ?_⟩
    rw [Rat.mkRat_self, if_pos ⟨rfl, rfl⟩]

/-- A number read is one of the unit's instance, and its bytes were there. -/
theorem takeNum_eq_some {n : Config.NumSel} {x : Num} :
    takeNum n bs = some (x, tail) ↔ numFits n x = true ∧ bs = putNum x ++ tail := by
  cases n <;> cases x <;> simp [takeNum, takeRat_eq_some, takeNat_eq_some, numFits, putNum]
  exact takeWord_eq_some (n := 8)

/-- An entry read is one that fits, and its bytes were there. -/
theorem takeEntry_eq_some {c : Config.Params} {e : Entry} :
    takeEntry c bs = some (e, tail) ↔ e.wf c = true ∧ bs = putEntry c e ++ tail := by
  simp only [takeEntry, Option.bind_eq_bind, Option.bind_eq_some_iff, Prod.exists, takeBlob_eq_some,
    take7_eq_some, takeRaw_eq_some, takeNum_eq_some, Option.some.injEq, Prod.mk.injEq, Entry.wf,
    Entry.fits, Bool.and_eq_true, decide_eq_true_eq, putEntry, List.append_assoc]
  constructor
  · rintro ⟨name, _, ⟨h1, rfl⟩, off, _, rfl, w, _, rfl, rmin, _, ⟨h2, rfl⟩, rmax, _, ⟨h3, rfl⟩,
      smin, _, ⟨h5, rfl⟩, smax, _, ⟨h6, rfl⟩, unit, _, ⟨h4, rfl⟩, rfl, rfl⟩
    exact ⟨⟨⟨h1, h4⟩, ⟨⟨h2, h3⟩, h5⟩, h6⟩, rfl⟩
  · rintro ⟨⟨⟨h1, h4⟩, ⟨⟨h2, h3⟩, h5⟩, h6⟩, rfl⟩
    exact ⟨_, _, ⟨h1, rfl⟩, _, _, rfl, _, _, rfl, _, _, ⟨h2, rfl⟩, _, _, ⟨h3, rfl⟩, _, _,
      ⟨h5, rfl⟩, _, _, ⟨h6, rfl⟩, _, _, ⟨h4, rfl⟩, rfl, rfl⟩

/-- What is left behind an instruction are the last bytes, and it took at least one. -/
theorem decode_suffix {c : Config.Params} {f : Fmt} {i : Instr} (h : decode c f bs = some (i, tail)) :
    ∃ used, used ≠ [] ∧ bs = used ++ tail := by
  cases f <;> simp only [decode] at h
  case event =>
    simp only [decodeEvent, Option.bind_eq_bind, Option.bind_eq_some_iff, Prod.exists,
      takeByte_eq_some] at h
    obtain ⟨id, bs, rfl, h⟩ := h
    suffices ∃ u, bs = u ++ tail from let ⟨u, hu⟩ := this; ⟨id :: u, by simp, by simp [hu]⟩
    split at h <;> simp only [Option.bind_eq_some_iff, Prod.exists, takeByte_eq_some,
      takeEntry_eq_some, Option.some.injEq, Prod.mk.injEq, reduceCtorEq] at h
    case h_2 => obtain ⟨i, _, rfl, v, _, rfl, -, rfl⟩ := h; exact ⟨[i, v], rfl⟩
    case h_3 => obtain ⟨e, _, ⟨-, rfl⟩, -, rfl⟩ := h; exact ⟨_, rfl⟩
    case h_6 => obtain ⟨b, _, rfl, -, rfl⟩ := h; exact ⟨[b], rfl⟩
    all_goals exact ⟨[], by simp [h.2]⟩
  case byte =>
    simp only [decodeByte, Option.bind_eq_bind, Option.bind_eq_some_iff, Prod.exists,
      takeByte_eq_some] at h
    obtain ⟨b, bs, rfl, h⟩ := h
    split at h <;> simp only [Option.some.injEq, Prod.mk.injEq] at h <;>
      exact ⟨[b], by simp, by simp [h.2]⟩
  case frame =>
    simp only [decodeFrame, Option.bind_eq_bind, Option.bind_eq_some_iff, Prod.exists,
      takeByte_eq_some] at h
    obtain ⟨s, _, rfl, hi, _, rfl, lo, _, rfl, ol, _, rfl, pt, _, rfl, hc, _, rfl, g, _, rfl, h⟩ := h
    split at h
    case isFalse => simp at h
    simp only [Option.bind_eq_some_iff, Prod.exists, takeBytes_eq_some, Option.some.injEq,
      Prod.mk.injEq] at h
    obtain ⟨rest, _, ⟨-, rfl⟩, -, rfl⟩ := h
    exact ⟨s :: hi :: lo :: ol :: pt :: hc :: g :: rest, by simp, by simp⟩
  case op =>
    simp only [decodeOp, Option.bind_eq_bind, Option.bind_eq_some_iff, Prod.exists,
      takeByte_eq_some] at h
    obtain ⟨id, bs, rfl, h⟩ := h
    suffices ∃ u, bs = u ++ tail from let ⟨u, hu⟩ := this; ⟨id :: u, by simp, by simp [hu]⟩
    split at h <;> simp only [Option.bind_eq_some_iff, Prod.exists, takeByte_eq_some,
      takeEntry_eq_some, takeNat_eq_some, takeBlob_eq_some, takeWord_eq_some, takeNum_eq_some,
      take7_eq_some, Option.some.injEq, Prod.mk.injEq, reduceCtorEq] at h
    case h_1 =>
      obtain ⟨d, _, ⟨-, rfl⟩, o, _, ⟨-, rfl⟩, n, _, ⟨-, rfl⟩, -, rfl⟩ := h
      exact ⟨_, by simp only [← List.append_assoc]; rfl⟩
    case h_2 =>
      obtain ⟨b, _, rfl, h⟩ := h
      split at h <;> simp only [Option.some.injEq, Prod.mk.injEq, reduceCtorEq] at h
      exact ⟨[b], by simp [h.2]⟩
    case h_7 => obtain ⟨p, _, rfl, o, _, rfl, -, rfl⟩ := h; exact ⟨_ ++ [o], by simp; rfl⟩
    case h_18 =>
      obtain ⟨b, _, rfl, o, _, rfl, w, _, rfl, -, rfl⟩ := h
      exact ⟨_, by simp only [← List.append_assoc]; rfl⟩
    case h_21 =>
      obtain ⟨b, _, rfl, o, _, ⟨-, rfl⟩, w, _, ⟨-, rfl⟩, -, rfl⟩ := h
      exact ⟨_, by simp only [← List.append_assoc]; rfl⟩
    case h_22 =>
      obtain ⟨e, _, ⟨-, rfl⟩, v, _, ⟨-, rfl⟩, -, rfl⟩ := h
      exact ⟨_, by simp only [← List.append_assoc]; rfl⟩
    all_goals first
      | (obtain ⟨-, rfl⟩ := h; exact ⟨[], rfl⟩)
      | (obtain ⟨b, _, rfl, -, rfl⟩ := h; exact ⟨[b], rfl⟩)
      | (obtain ⟨b, _, rfl, -, rfl⟩ := h; exact ⟨_, rfl⟩)
      | (obtain ⟨b, _, ⟨-, rfl⟩, -, rfl⟩ := h; exact ⟨_, rfl⟩)

end Sys2Proof
end

