-- ==== Sys2Proof/Laws/Fetch.lean ====
section
/-! SUPPORT. What the fetch of the next instruction can answer: the next input of a burst, an input
without a step, the input that goes in its place. -/

namespace Sys2Proof.Machine

variable {s : State} {b : Burst} {i : Instr} {tail : List Byte} {q : List Burst}

theorem takeStreamByte_eq_some {bs : List Byte} :
    takeStreamByte bs = some (i, tail) ↔ ∃ x, bs = x :: tail ∧ i = .byte x := by
  simp only [takeStreamByte, Option.bind_eq_bind, Option.bind_eq_some_iff, Prod.exists,
    takeByte_eq_some, Option.some.injEq, Prod.mk.injEq]
  constructor
  · rintro ⟨x, t, rfl, rfl, rfl⟩; exact ⟨x, rfl, rfl⟩
  · rintro ⟨x, rfl, rfl⟩; exact ⟨x, tail, rfl, rfl, rfl⟩

/-- The next input of a burst is what `NextIs` says. -/
theorem nextInput_eq_some : nextInput s b = some (i, tail) ↔ NextIs s b i tail := by
  unfold nextInput NextIs
  cases hs : isStream b.fmt <;> cases hf : s.inFrame <;>
    cases hd : decode s.params b.fmt b.bytes <;> simp [takeStreamByte_eq_some]

/-- The next input of a burst is one input only. -/
theorem NextIs.unique {j : Instr} {r : List Byte} (h : NextIs s b i tail) (h' : NextIs s b j r) :
    j = i ∧ r = tail := by
  have := (nextInput_eq_some.2 h).symm.trans (nextInput_eq_some.2 h')
  simp only [Option.some.injEq, Prod.mk.injEq] at this
  exact ⟨this.1.symm, this.2.symm⟩

/-- An input takes at least one byte, and the bytes behind it are those of the burst. -/
theorem NextIs.suffix (h : NextIs s b i tail) : ∃ used, used ≠ [] ∧ b.bytes = used ++ tail := by
  rcases h with ⟨-, h⟩ | ⟨x, -, h, -, -⟩
  · exact decode_suffix h
  · exact ⟨[x], by simp, h⟩

theorem hasNoStep_iff : hasNoStep i s = true ↔ exec i s = .refused .noStep := by
  unfold hasNoStep
  cases exec i s <;> simp

theorem hasNoStep_eq_false : hasNoStep i s = false ↔ exec i s ≠ .refused .noStep := by
  rw [← Bool.not_eq_true, ne_eq, hasNoStep_iff]

@[simp] theorem putBack_nil (f : Fmt) (q : List Burst) : putBack f [] q = q := rfl

theorem putBack_eq (f : Fmt) (left : List Byte) (q : List Burst) :
    putBack f left q = if left = [] then q else { fmt := f, bytes := left } :: q := rfl

theorem queueBytes_putBack (f : Fmt) (left : List Byte) (q : List Burst) :
    queueBytes (putBack f left q) = left.length + queueBytes q := by
  by_cases h : left = [] <;> simp [putBack, queueBytes, h]

theorem queueBytes_cons (b : Burst) (q : List Burst) :
    queueBytes (b :: q) = b.bytes.length + queueBytes q := by simp [queueBytes]

/-- An input is taken exactly where it has a step and the byte source holds nothing before it. -/
theorem offer_eq_taken {kept : List Burst} {f : Fmt} :
    offer s kept f i = .taken ↔
      (sentByByteSource f i = true → kept = []) ∧ exec i s ≠ .refused .noStep := by
  unfold offer
  rw [← hasNoStep_eq_false]
  by_cases h1 : sentByByteSource f i = true <;> by_cases h2 : kept = [] <;>
    by_cases h3 : hasNoStep i s = true <;> by_cases h4 : i = .ioerr <;> simp_all

/-- An input is gone exactly where it has no step and is the host's, or an `IOERR` with no byte held
before it. -/
theorem offer_eq_ignored {kept : List Burst} {f : Fmt} :
    offer s kept f i = .ignored ↔
      (sentByByteSource f i = true → i = .ioerr ∧ kept = []) ∧ exec i s = .refused .noStep := by
  unfold offer
  rw [← hasNoStep_iff]
  by_cases h1 : sentByByteSource f i = true <;> by_cases h2 : kept = [] <;>
    by_cases h3 : hasNoStep i s = true <;> by_cases h4 : i = .ioerr <;> simp_all

/-- An input stays with the byte source exactly where it is the byte source's and stands behind a byte
held, or is a byte without a step. -/
theorem offer_eq_held {kept : List Burst} {f : Fmt} :
    offer s kept f i = .held ↔ sentByByteSource f i = true ∧
      (kept = [] → i ≠ .ioerr ∧ exec i s = .refused .noStep) := by
  unfold offer
  rw [← hasNoStep_iff]
  by_cases h1 : sentByByteSource f i = true <;> by_cases h2 : kept = [] <;>
    by_cases h3 : hasNoStep i s = true <;> by_cases h4 : i = .ioerr <;> simp_all

/-- One round: the next input of the first burst decides. -/
theorem seek_cons {kept : List Burst} {n : Nat} (h : NextIs s b i tail) :
    seek s (n + 1) kept (b :: q) =
      match offer s kept b.fmt i with
      | .taken => .ok (i, kept ++ putBack b.fmt tail q)
      | .held => seek s n
          (kept ++ [{ fmt := b.fmt, bytes := b.bytes.take (b.bytes.length - tail.length) }])
          (putBack b.fmt tail q)
      | .ignored => seek s n kept (putBack b.fmt tail q) := by
  cases ho : offer s kept b.fmt i <;> simp [seek, nextInput_eq_some.2 h, ho]

/-- The search comes to every place up to which inputs have no step, with rounds enough left. -/
theorem seek_of_passed {kept rest : List Burst} (h : Passed s q kept rest) :
    ∃ n, seek s (queueBytes q + 1) [] q = seek s (queueBytes rest + 1 + n) kept rest := by
  induction h with
  | start => exact ⟨0, rfl⟩
  | @ignored kept r b i tail _ hn he hi ih =>
    obtain ⟨n, ih⟩ := ih
    obtain ⟨used, hu, hb⟩ := hn.suffix
    have hl := List.length_pos_iff.2 hu
    refine ⟨used.length - 1 + n, ih.trans ?_⟩
    have hc : queueBytes (b :: r) + 1 + n =
        queueBytes (putBack b.fmt tail r) + 1 + (used.length - 1 + n) + 1 := by
      rw [queueBytes_putBack, queueBytes_cons, hb, List.length_append]; omega
    rw [hc, seek_cons hn, offer_eq_ignored.2 ⟨hi, he⟩]
    rfl
  | @held kept r f used tail i _ hn hs hi ih =>
    obtain ⟨n, ih⟩ := ih
    obtain ⟨used', hu, hb⟩ := hn.suffix
    have hu : used ≠ [] := by rw [List.append_cancel_right hb]; exact hu
    have hl := List.length_pos_iff.2 hu
    refine ⟨used.length - 1 + n, ih.trans ?_⟩
    have ht : (used ++ tail).take ((used ++ tail).length - tail.length) = used := by simp
    have hc : queueBytes ({ fmt := f, bytes := used ++ tail } :: r) + 1 + n =
        queueBytes (putBack f tail r) + 1 + (used.length - 1 + n) + 1 := by
      rw [queueBytes_putBack, queueBytes_cons, List.length_append]; omega
    rw [hc, seek_cons hn, offer_eq_held.2 ⟨hs, hi⟩]
    simp only [ht]
    rfl

/-- What the search takes is the next input of some burst. -/
theorem seek_eq_ok {kept q' : List Burst} {n : Nat} (h : seek s n kept q = .ok (i, q')) :
    ∃ x r, NextIs s x i r := by
  induction n generalizing kept q with
  | zero => simp [seek] at h
  | succ n ih =>
    cases q with
    | nil => simp [seek] at h
    | cons b q =>
      cases hn : nextInput s b with
      | none => simp [seek, hn] at h
      | some p =>
        obtain ⟨k, t⟩ := p
        rw [seek_cons (nextInput_eq_some.1 hn)] at h
        split at h
        · simp only [Except.ok.injEq, Prod.mk.injEq] at h
          exact ⟨b, t, h.1 ▸ nextInput_eq_some.1 hn⟩
        · exact ih h
        · exact ih h

/-- What `fetch` answers is what the search answers. -/
theorem fetch_eq (hq : s.input ≠ []) :
    fetch s = match seek s (queueBytes s.input + 1) [] s.input with
      | .ok (i, q) => .ok (i, s.setInput q)
      | .error r => .error r := by
  obtain ⟨b, q, h⟩ := List.exists_cons_of_ne_nil hq
  cases hs : seek s (queueBytes s.input + 1) [] s.input <;> rw [h] at hs <;> simp [fetch, h, hs]

/-- Where inputs have no step up to `b`, the next input of `b` is taken if it has one (R68, R73). -/
theorem fetch_taken {kept : List Burst} (hp : Passed s s.input kept (b :: q))
    (hn : NextIs s b i tail) (hs : sentByByteSource b.fmt i = true → kept = [])
    (h : exec i s ≠ .refused .noStep) :
    fetch s = .ok (i, s.setInput (kept ++ putBack b.fmt tail q)) := by
  obtain ⟨n, hk⟩ := seek_of_passed hp
  have hq : s.input ≠ [] := by
    intro h0; rw [h0] at hk; rw [show ∀ m, m + 1 + n = m + n + 1 by omega, seek_cons hn,
      offer_eq_taken.2 ⟨hs, h⟩] at hk; simp [seek] at hk
  rw [fetch_eq hq, hk, show ∀ m, m + 1 + n = m + n + 1 by omega, seek_cons hn,
    offer_eq_taken.2 ⟨hs, h⟩]

/-- Where no input of the queue has a step, there is none (R230). -/
theorem fetch_none {kept : List Burst} (hp : Passed s s.input kept []) (hq : s.input ≠ []) :
    fetch s = .error .noStep := by
  obtain ⟨n, hk⟩ := seek_of_passed hp
  rw [fetch_eq hq, hk, show ∀ m, m + 1 + n = m + n + 1 by omega]
  rfl

/-- Bytes that spell no input are refused at their turn (K16). -/
theorem fetch_bad {kept : List Burst} (hp : Passed s s.input kept (b :: q))
    (hb : ∀ i tail, ¬ NextIs s b i tail) : fetch s = .error .badEncoding := by
  obtain ⟨n, hk⟩ := seek_of_passed hp
  have hn : nextInput s b = none := by
    cases h : nextInput s b with
    | none => rfl
    | some p => exact absurd (nextInput_eq_some.1 h) (hb _ _)
  have hk' : seek s (queueBytes s.input + 1) [] s.input = .error .badEncoding := by
    rw [hk, show ∀ m, m + 1 + n = m + n + 1 by omega, seek, hn]
  have hq : s.input ≠ [] := by
    intro h0; rw [h0] at hk'; simp [seek] at hk'
  rw [fetch_eq hq, hk']

/-- What `fetch` can answer: the next input of some burst, and a state that differs in the queue. -/
theorem fetch_eq_ok {t : State} (h : fetch s = .ok (i, t)) :
    ∃ x r q', NextIs s x i r ∧ t = s.setInput q' := by
  unfold fetch at h
  split at h
  · simp at h
  · split at h
    · rename_i hk
      simp only [Except.ok.injEq, Prod.mk.injEq] at h
      obtain ⟨rfl, rfl⟩ := h
      obtain ⟨x, r, hx⟩ := seek_eq_ok hk
      exact ⟨x, r, _, hx, rfl⟩
    · simp at h

end Sys2Proof.Machine
end

