-- ==== Sys2Proof/Laws/FrameSync.lean ====
section
/-! SUPPORT. What the two compound steps of the Frame Synchronizer do (R144, R149, R151), over a
total table. -/

namespace Sys2Proof.Machine

variable {s : State} {f : Byte → Byte} {h0 h1 h2 h3 : Byte}

theorem readHdr_ok {i : Nat} {v : Byte} (hi : i < 4) (hf : s.fsm ≠ .idle)
    (h : s.hdr.read i = some v) : s.readHdr i = .ok v := readHdr_eq_ok.2 ⟨hi, hf, h⟩

theorem readHeader_ok (hf : s.fsm ≠ .idle) (h : HeaderIs s h0 h1 h2 h3) :
    s.readHeader = .ok [h0, h1, h2, h3] := by
  obtain ⟨a, b, c, d⟩ := h
  simp [State.readHeader, Config.headerLen, readRange, readHdr_ok (i := 0) (by omega) hf a,
    readHdr_ok (i := 1) (by omega) hf b, readHdr_ok (i := 2) (by omega) hf c,
    readHdr_ok (i := 3) (by omega) hf d]

/-- The CRC of the header (R126). -/
theorem headerCrc_ok (ht : TableIs s f) (hf : s.fsm ≠ .idle) (h : HeaderIs s h0 h1 h2 h3) :
    headerCrc s = .ok (crcOf f [h0, h1, h2, h3]) := by
  simp [headerCrc, readHeader_ok hf h]
  rw [crc8_of_total ht (by simp [Config.headerLen])]
  rfl

theorem hdrFields_ok (hf : s.fsm ≠ .idle) (h : HeaderIs s h0 h1 h2 h3) :
    hdrFields s = .ok (s.setPtype h3, assembleLength h0 h1, h2) := by
  obtain ⟨a, b, c, d⟩ := h
  simp [hdrFields, readHdr_ok (i := 0) (by omega) hf a, readHdr_ok (i := 1) (by omega) hf b,
    readHdr_ok (i := 2) (by omega) hf c, readHdr_ok (i := 3) (by omega) hf d]

/-- A header CRC byte that matches (R144, R151). -/
theorem hdrCheck_good (ht : TableIs s f) (hf : s.fsm ≠ .idle) (h : HeaderIs s h0 h1 h2 h3) :
    hdrCheck (crcOf f [h0, h1, h2, h3]) s =
      .ok (bodyEnter (lenClamp (assembleLength h0 h1) h2
        ((s.setHcrc (crcOf f [h0, h1, h2, h3])).setPtype h3))) := by
  have h' : HeaderIs (s.setHcrc (crcOf f [h0, h1, h2, h3])) h0 h1 h2 h3 := h
  have ht' : TableIs (s.setHcrc (crcOf f [h0, h1, h2, h3])) f := ht
  have hf' : (s.setHcrc (crcOf f [h0, h1, h2, h3])).fsm ≠ .idle := hf
  simp [hdrCheck, headerCrc_ok ht' hf' h', hdrFields_ok hf' h']

/-- A header CRC byte that does not match (R144). -/
theorem hdrCheck_bad {b : Byte} (ht : TableIs s f) (hf : s.fsm ≠ .idle)
    (h : HeaderIs s h0 h1 h2 h3) (hb : b ≠ crcOf f [h0, h1, h2, h3]) :
    hdrCheck b s = .ok ((s.setHcrc b).rejectHeader [h0, h1, h2, h3] b) := by
  have h' : HeaderIs (s.setHcrc b) h0 h1 h2 h3 := h
  have ht' : TableIs (s.setHcrc b) f := ht
  have hf' : (s.setHcrc b).fsm ≠ .idle := hf
  simp [hdrCheck, headerCrc_ok ht' hf' h', readHeader_ok hf' h', Ne.symm hb]

/-- The guard of the operations inside an accepting `HDR.CHECK` (R145). -/
theorem headerAccepted_ok (hf : s.fsm = .readHeader) (hi : s.idx.toNat = 4) (ht : TableIs s f)
    (h : HeaderIs s h0 h1 h2 h3) (hc : s.hcrc = some (crcOf f [h0, h1, h2, h3])) :
    s.headerAccepted = true := by
  simp [State.headerAccepted, hf, hi, headerCrc_ok ht (by simp [hf]) h, hc]

variable {pl : BitVec 16} {ol pt hc b dc : Byte} {bs : List Byte}

theorem bodyLen_ok (hf : s.fsm = .readBody) (h1 : s.plen = some pl) (h2 : s.olen = some ol) :
    s.bodyLen = .ok (pl.toNat + ol.toNat) :=
  bodyLen_eq_ok.2 ⟨pl, ol, by simp [hf], h1, h2, rfl⟩

theorem readBody_range (hf : s.fsm ≠ .idle) (h : BodyIs s bs) (hl : bs.length ≤ 129) :
    readRange s.readBody 0 bs.length = .ok bs := by
  refine readRange_eq_ok.2 ⟨rfl, fun j x hj => ?_⟩
  obtain ⟨h1, -⟩ := List.getElem?_eq_some_iff.1 hj
  exact readBody_eq_ok.2 ⟨by omega, hf, by rw [Nat.zero_add, h j h1, hj]⟩

/-- `BODY.CHECK` compares the last byte with the CRC of the bytes before it (R149). -/
theorem bodyCheck_eq (hf : s.fsm = .readBody) (h1 : s.plen = some pl) (h2 : s.olen = some ol)
    (h3 : s.ptype = some pt) (h4 : s.hcrc = some hc) (h5 : pl.toNat + ol.toNat ≤ 128)
    (ht : TableIs s f) (hl : bs.length = pl.toNat + ol.toNat) (hb : BodyIs s (bs ++ [dc])) :
    bodyCheck s =
      if crcOf f bs = dc then
        (do
          let r ← tgDecode (s.emitTrace (.frameAccepted pl ol pt hc))
          pure ((s.emitTrace (.frameAccepted pl ol pt hc)).emitResult r))
      else .ok (s.emitResult .invalidDataCrc) := by
  have ha : s.fsm ≠ .idle := by simp [hf]
  have r1 : s.readBody (pl.toNat + ol.toNat) = .ok dc :=
    readBody_eq_ok.2 ⟨by omega, ha, by rw [hb _ (by simp; omega), ← hl]; simp⟩
  have r2 : readRange s.readBody 0 (pl.toNat + ol.toNat + 1) = .ok (bs ++ [dc]) := by
    have := readBody_range ha hb (by simp; omega)
    simpa [hl] using this
  have r3 : crc8 s.t (bs ++ [dc]) 0 (pl.toNat + ol.toNat) = .ok (crcOf f bs) := by
    rw [crc8_of_total ht (by simp; omega)]; simp [← hl]
  simp only [bodyCheck, bodyLen_ok hf h1 h2, r1, r2, r3, ok_bind]
  split
  · simp [readPlen_eq_ok.2 ⟨ha, h1⟩, readOlen_eq_ok.2 ⟨ha, h2⟩, readPtype_eq_ok.2 ⟨ha, h3⟩,
      readHcrc_eq_ok.2 ⟨ha, h4⟩]
  · rfl

/-- A data CRC byte that does not match: the packet type is not even looked at (R253). -/
theorem bodyCheck_bad (hf : s.fsm = .readBody) (h1 : s.plen = some pl) (h2 : s.olen = some ol)
    (h5 : pl.toNat + ol.toNat ≤ 128) (ht : TableIs s f) (hl : bs.length = pl.toNat + ol.toNat)
    (hb : BodyIs s (bs ++ [dc])) (hne : dc ≠ crcOf f bs) :
    bodyCheck s = .ok (s.emitResult .invalidDataCrc) := by
  have ha : s.fsm ≠ .idle := by simp [hf]
  have r1 : s.readBody (pl.toNat + ol.toNat) = .ok dc :=
    readBody_eq_ok.2 ⟨by omega, ha, by rw [hb _ (by simp; omega), ← hl]; simp⟩
  have r2 : readRange s.readBody 0 (pl.toNat + ol.toNat + 1) = .ok (bs ++ [dc]) := by
    have := readBody_range ha hb (by simp; omega)
    simpa [hl] using this
  have r3 : crc8 s.t (bs ++ [dc]) 0 (pl.toNat + ol.toNat) = .ok (crcOf f bs) := by
    rw [crc8_of_total ht (by simp; omega)]; simp [← hl]
  simp [bodyCheck, bodyLen_ok hf h1 h2, r1, r2, r3, Ne.symm hne]

/-- Storing the next body byte (R148). -/
theorem bodyIs_write (h : BodyIs s bs) (hi : s.idx.toNat = bs.length) :
    BodyIs (s.writeBody s.idx.toNat b) (bs ++ [b]) := by
  intro i hlt
  simp at hlt
  simp only [writeBody_body, Memory.read_write]
  by_cases h' : i = s.idx.toNat
  · simp [h', hi]
  · simp [h']; rw [h i (by omega), List.getElem?_append_left (by omega)]

/-- A body byte before the last one is stored and counted (R148). -/
theorem bodyStore_more (hf : s.fsm = .readBody) (h1 : s.plen = some pl) (h2 : s.olen = some ol)
    (h5 : pl.toNat + ol.toNat ≤ 128) (hi : s.idx.toNat < pl.toNat + ol.toNat) :
    bodyStore b s = .ok (s.writeBody s.idx.toNat b).incIdx := by
  simp [bodyStore, bodyLen_ok hf h1 h2,
    storeBody_eq_ok.2 ⟨(by omega : s.idx.toNat < 129), rfl⟩, hi]

/-- The last body byte is stored, checked, and ends the attempt (R148 to R150). -/
theorem bodyStore_last (hf : s.fsm = .readBody) (h1 : s.plen = some pl) (h2 : s.olen = some ol)
    (h5 : pl.toNat + ol.toNat ≤ 128) (hi : s.idx.toNat = pl.toNat + ol.toNat) :
    bodyStore b s = (do
      let t ← bodyCheck (s.writeBody s.idx.toNat b)
      pure (frameEnd t)) := by
  have hn : ¬ (s.writeBody s.idx.toNat b).idx.toNat < pl.toNat + ol.toNat := by simp; omega
  simp only [bodyStore, bodyLen_ok hf h1 h2,
    storeBody_eq_ok.2 ⟨(by omega : s.idx.toNat < 129), rfl⟩, ok_bind, if_neg hn, pure_ok]

end Sys2Proof.Machine
end

