-- ==== Sys2Proof/Laws/Frames.lean ====
section
/-! SUPPORT. What the bytes of a frame do one after another (R140, R152): the header, then the body
buffer. -/

namespace Sys2Proof.Machine

variable {s : State} {f : Byte → Byte} {h0 h1 h2 h3 b : Byte} {bs more : List Byte}

/-- The four header bytes, stored from `IDX = 0` (R142, R143). -/
def withHeader (h0 h1 h2 h3 : Byte) (s : State) : State :=
  hdrStore h3 (hdrStore h2 (hdrStore h1 (hdrStore h0 (seekSync s))))

@[simp] theorem withHeader_fsm : (withHeader h0 h1 h2 h3 s).fsm = .readHeader := by
  simp [withHeader, hdrStore, seekSync]

@[simp] theorem withHeader_idx : (withHeader h0 h1 h2 h3 s).idx = 4 := by
  simp only [withHeader, hdrStore, seekSync, incIdx_idx, writeHdr_idx, setPos_idx]
  decide

@[simp] theorem withHeader_t : (withHeader h0 h1 h2 h3 s).t = s.t := by
  simp [withHeader, hdrStore, seekSync]

theorem withHeader_read (j : Nat) : (withHeader h0 h1 h2 h3 s).hdr.read j =
    if j = 0 then some h0 else if j = 1 then some h1 else if j = 2 then some h2
    else if j = 3 then some h3 else s.hdr.read j := by
  simp only [withHeader, hdrStore, seekSync, incIdx_hdr, writeHdr_hdr, incIdx_idx, writeHdr_idx,
    setPos_idx, setPos_hdr, Memory.read_write]
  have e1 : ((0 : BitVec 8) + 1).toNat = 1 := by decide
  have e2 : ((0 : BitVec 8) + 1 + 1).toNat = 2 := by decide
  have e3 : ((0 : BitVec 8) + 1 + 1 + 1).toNat = 3 := by decide
  have e0 : (0 : BitVec 8).toNat = 0 := by decide
  rw [e0, e1, e2, e3]
  split
  · subst_vars; rfl
  · split
    · subst_vars; rfl
    · split
      · subst_vars; rfl
      · split
        · subst_vars; rfl
        · simp [*]

theorem withHeader_is : HeaderIs (withHeader h0 h1 h2 h3 s) h0 h1 h2 h3 := by
  simp [HeaderIs, withHeader_read]

/-- The sync byte and the header are taken, the header CRC byte comes next (R142, R143). -/
theorem takeFrame_header (hf : s.fsm = .seekSync) :
    takeFrame (Config.sync :: h0 :: h1 :: h2 :: h3 :: more) s =
      takeFrame more (withHeader h0 h1 h2 h3 s) := by
  simp [takeFrame, byteStep, hf, seekSync, hdrStore, State.inFrame, withHeader]

/-- After a header that matches, the body buffer comes next (R144). -/
theorem takeFrame_good (ht : TableIs s f) (hf : s.fsm = .readHeader) (hi : s.idx = 4)
    (h : HeaderIs s h0 h1 h2 h3) :
    takeFrame (crcOf f [h0, h1, h2, h3] :: more) s =
      takeFrame more (bodyEnter (lenClamp (assembleLength h0 h1) h2
        ((s.setHcrc (crcOf f [h0, h1, h2, h3])).setPtype h3))) := by
  have : ¬ s.idx.toNat < 4 := by simp [hi]
  simp only [takeFrame, byteStep, hf, this, if_false, hdrCheck_good ht (by simp [hf]) h, ok_bind]
  simp [State.inFrame, bodyEnter]

/-- After a header that does not match, nothing more is taken (R153). -/
theorem takeFrame_bad (ht : TableIs s f) (hf : s.fsm = .readHeader) (hi : s.idx = 4)
    (h : HeaderIs s h0 h1 h2 h3) (hb : b ≠ crcOf f [h0, h1, h2, h3]) :
    takeFrame (b :: more) s =
      .ok (((s.setHcrc b).rejectHeader [h0, h1, h2, h3] b).leaveBytes more) := by
  have : ¬ s.idx.toNat < 4 := by simp [hi]
  simp only [takeFrame, byteStep, hf, this, if_false, hdrCheck_bad ht (by simp [hf]) h hb, ok_bind]
  simp [State.inFrame, State.rejectHeader]

/-- Body bytes stored one after another (R148). -/
def storeAll : List Byte → State → State
  | [], s => s
  | b :: bs, s => storeAll bs (s.writeBody s.idx.toNat b).incIdx

/-- Storing body bytes changes `BODY` and `IDX` only. -/
theorem storeAll_same (bs : List Byte) (s : State) :
    storeAll bs s = { s with body := (storeAll bs s).body, idx := (storeAll bs s).idx } := by
  induction bs generalizing s with
  | nil => rfl
  | cons b bs ih => rw [storeAll, ih]; rfl

theorem storeAll_idx (bs : List Byte) (s : State) (h : s.idx.toNat + bs.length ≤ 128) :
    (storeAll bs s).idx.toNat = s.idx.toNat + bs.length := by
  induction bs generalizing s with
  | nil => rfl
  | cons b bs ih =>
    simp only [List.length_cons] at h
    have h1 : (s.writeBody s.idx.toNat b).incIdx.idx.toNat = s.idx.toNat + 1 := by
      simp; omega
    rw [storeAll, ih _ (by omega), h1, List.length_cons]; omega

theorem storeAll_body (bs : List Byte) (s : State) (h : s.idx.toNat + bs.length ≤ 128) (j : Nat) :
    (storeAll bs s).body.read j =
      if s.idx.toNat ≤ j ∧ j < s.idx.toNat + bs.length then bs[j - s.idx.toNat]?
      else s.body.read j := by
  induction bs generalizing s with
  | nil => simp [storeAll]
  | cons b bs ih =>
    simp only [List.length_cons] at h
    have h1 : (s.writeBody s.idx.toNat b).incIdx.idx.toNat = s.idx.toNat + 1 := by
      simp; omega
    rw [storeAll, ih _ (by omega), h1]
    simp only [List.length_cons, incIdx_body, writeBody_body, Memory.read_write]
    by_cases h2 : j = s.idx.toNat
    · subst h2; simp
    · by_cases h3 : s.idx.toNat + 1 ≤ j ∧ j < s.idx.toNat + 1 + bs.length
      · have h4 : s.idx.toNat ≤ j ∧ j < s.idx.toNat + (bs.length + 1) := by omega
        rw [if_pos h3, if_pos h4, show j - s.idx.toNat = (j - (s.idx.toNat + 1)) + 1 by omega,
          List.getElem?_cons_succ]
      · have h4 : ¬ (s.idx.toNat ≤ j ∧ j < s.idx.toNat + (bs.length + 1)) := by omega
        rw [if_neg h3, if_neg h4, if_neg h2]

/-- The body bytes before the last one are stored (R148). -/
theorem takeFrame_body {pl : BitVec 16} {ol : Byte} (hf : s.fsm = .readBody)
    (h1 : s.plen = some pl) (h2 : s.olen = some ol) (h5 : pl.toNat + ol.toNat ≤ 128)
    (hl : s.idx.toNat + bs.length ≤ pl.toNat + ol.toNat) :
    takeFrame (bs ++ more) s = takeFrame more (storeAll bs s) := by
  induction bs generalizing s with
  | nil => rfl
  | cons b bs ih =>
    simp only [List.length_cons] at hl
    have hi : (s.writeBody s.idx.toNat b).incIdx.idx.toNat = s.idx.toNat + 1 := by
      simp; omega
    simp only [List.cons_append, takeFrame, byteStep, hf, storeAll]
    rw [bodyStore_more hf h1 h2 h5 (by omega)]
    simp only [ok_bind]
    rw [if_pos (by simp [State.inFrame, hf])]
    exact ih hf h1 h2 (by omega)

/-- The last byte ends the frame, and nothing more is taken (R150, R152). -/
theorem takeFrame_last {pl : BitVec 16} {ol : Byte} (hf : s.fsm = .readBody)
    (h1 : s.plen = some pl) (h2 : s.olen = some ol) (h5 : pl.toNat + ol.toNat ≤ 128)
    (hl : s.idx.toNat = pl.toNat + ol.toNat) :
    takeFrame [b] s = (do
      let t ← bodyCheck (s.writeBody s.idx.toNat b)
      pure (frameEnd t)) := by
  simp only [takeFrame, byteStep, hf]
  rw [bodyStore_last hf h1 h2 h5 hl]
  cases bodyCheck (s.writeBody s.idx.toNat b) with
  | error e => rfl
  | ok t => simp [frameEnd, State.inFrame, State.leaveBytes]

end Sys2Proof.Machine
end

