-- ==== Sys2Proof/Laws/PerInstr.lean ====
section
/-! SUPPORT. One statement about each instruction as syntax: its encoding begins with the byte that
the opcode table gives its row. -/

namespace Sys2Proof.Laws.EncodingHead

/-- The first byte of a row's encoding: the event id (R110), the byte itself (R113), the sync byte
(R90), or the operation id (R112). -/
def rowHead : Instr → Byte
  | .reset => 0x00
  | .cfgCrcWrite _ _ => 0x01
  | .cfgParamPush _ => 0x02
  | .start => 0x03
  | .readFrame => 0x04
  | .byte _ => 0x05
  | .ioerr => 0x06
  | .seekSync => 0x55
  | .seekSkip b => b
  | .fVld9 _ _ _ => 0x55
  | .fVld9BadLen _ _ _ _ => 0x55
  | .fRadioOther _ _ _ _ _ => 0x55
  | .fOther _ _ _ _ _ _ => 0x55
  | .crc8 _ _ _ => 0x80
  | .hdrStore _ => 0x92
  | .hdrCheck _ => 0x93
  | .hdrFields => 0x94
  | .lenClamp _ _ => 0x95
  | .bodyEnter => 0x96
  | .bodyStore _ => 0x97
  | .bodyCheck => 0x98
  | .frameEnd => 0x99
  | .tgDecode => 0xA0
  | .tgPtype => 0xA1
  | .tgTtype => 0xA2
  | .tgLguard => 0xA3
  | .tgBitcat => 0xA4
  | .fdFields _ => 0xB0
  | .fdExtract _ _ _ => 0xB1
  | .fdSlope _ => 0xB2
  | .fdOffset _ => 0xB3
  | .fdScale _ _ _ => 0xB4
  | .fdEmit _ _ => 0xB5
  | .cfgCheck => 0xC0

/-- The encoding of an instruction begins with its row's byte. -/
def Statement (i : Instr) : Prop := ∀ c, (encode c i).head? = some (rowHead i)

theorem reset : Statement .reset := fun _ => rfl

theorem cfgCrcWrite (i v : Byte) : Statement (.cfgCrcWrite i v) := fun _ => rfl

theorem cfgParamPush (e : Entry) : Statement (.cfgParamPush e) := fun _ => rfl

theorem start : Statement .start := fun _ => rfl

theorem readFrame : Statement .readFrame := fun _ => rfl

theorem byte (b : Byte) : Statement (.byte b) := fun _ => rfl

theorem ioerr : Statement .ioerr := fun _ => rfl

theorem seekSync : Statement .seekSync := fun _ => rfl

theorem seekSkip (b : Byte) : Statement (.seekSkip b) := fun _ => rfl

theorem fVld9 (ol hcrc : Byte) (rest : List Byte) : Statement (.fVld9 ol hcrc rest) := fun _ => rfl

theorem fVld9BadLen (pl : BitVec 16) (ol hcrc : Byte) (rest : List Byte) :
    Statement (.fVld9BadLen pl ol hcrc rest) := fun _ => rfl

theorem fRadioOther (pl : BitVec 16) (ol hcrc g : Byte) (rest : List Byte) :
    Statement (.fRadioOther pl ol hcrc g rest) := fun _ => rfl

theorem fOther (pl : BitVec 16) (ol pt hcrc g : Byte) (rest : List Byte) :
    Statement (.fOther pl ol pt hcrc g rest) := fun _ => rfl

theorem crc8 (offset count : Nat) (data : List Byte) : Statement (.crc8 offset count data) := fun _ => rfl

theorem hdrStore (b : Byte) : Statement (.hdrStore b) := fun _ => rfl

theorem hdrCheck (b : Byte) : Statement (.hdrCheck b) := fun _ => rfl

theorem hdrFields : Statement .hdrFields := fun _ => rfl

theorem lenClamp (pl0 : BitVec 16) (ol0 : Byte) : Statement (.lenClamp pl0 ol0) := fun _ => rfl

theorem bodyEnter : Statement .bodyEnter := fun _ => rfl

theorem bodyStore (b : Byte) : Statement (.bodyStore b) := fun _ => rfl

theorem bodyCheck : Statement .bodyCheck := fun _ => rfl

theorem frameEnd : Statement .frameEnd := fun _ => rfl

theorem tgDecode : Statement .tgDecode := fun _ => rfl

theorem tgPtype : Statement .tgPtype := fun _ => rfl

theorem tgTtype : Statement .tgTtype := fun _ => rfl

theorem tgLguard : Statement .tgLguard := fun _ => rfl

theorem tgBitcat : Statement .tgBitcat := fun _ => rfl

theorem fdFields (b : BitString) : Statement (.fdFields b) := fun _ => rfl

theorem fdExtract (b : BitString) (off w : BitVec 7) : Statement (.fdExtract b off w) := fun _ => rfl

theorem fdSlope (p : Entry) : Statement (.fdSlope p) := fun _ => rfl

theorem fdOffset (p : Entry) : Statement (.fdOffset p) := fun _ => rfl

theorem fdScale (raw : BitVec 72) (slope offset : Num) :
    Statement (.fdScale raw slope offset) := fun _ => rfl

theorem fdEmit (p : Entry) (value : Num) : Statement (.fdEmit p value) := fun _ => rfl

theorem cfgCheck : Statement .cfgCheck := fun _ => rfl

end Sys2Proof.Laws.EncodingHead
end

