-- ==== Sys2Proof/Tests/Slice0.lean ====
section
/-! SUPPORT. Tests: ill-formed terms are refused; every row's bytes, written out from the spec's
encodings, decode to it; the spec's own vectors (95_test_vectors.md), one step each; and for every
statement of Obligations.lean with hypotheses a state and operands that meet them. -/

namespace Sys2Proof.Tests

open Sys2Proof.Machine

set_option Elab.async false

/-! ### Small states -/

/-- The state of a `next` outcome. -/
def after : Out → Option State
  | .next s => some s
  | .fault _ => none
  | .refused _ => none

/-- The spec's default parameters (R9, R10). -/
abbrev c0 : Config.Params := Config.Params.default

/-- The table `TID` of 95_test_vectors.md. -/
def tid : Memory Byte := (List.range 256).map fun i => (i, BitVec.ofNat 8 i)

/-- `P[0]` of `PTEST`, with one-letter tags. -/
def p0 : Entry :=
  { name := [0x74], bitOffset := 0, bitWidth := 9, rawMin := 0, rawMax := 511
    scaleMin := .f64 0xC044000000000000, scaleMax := .f64 0x404E000000000000, unit := [0x43] }

/-- `P[1]` of `PTEST`. -/
def p1 : Entry :=
  { name := [0x68], bitOffset := 9, bitWidth := 8, rawMin := 0, rawMax := 200
    scaleMin := .f64 0, scaleMax := .f64 0x4059000000000000, unit := [0x25] }

/-- The entry `(10, 250, -20.0, 80.0)` of V-SC-13. -/
def p13 : Entry :=
  { name := [], bitOffset := 0, bitWidth := 8, rawMin := 10, rawMax := 250
    scaleMin := .f64 0xC034000000000000, scaleMax := .f64 0x4054000000000000, unit := [] }

/-- Configured, before `START`. -/
def loaded : State :=
  { State.reset with t := tid, tw := BitVec.allOnes 256, p := [(0, p0), (1, p1)], np := 2 }

/-- Configured and started. -/
def ready : State := loaded.setMode .run

/-- In an attempt, waiting for a sync byte. -/
def seeking : State := ready.setFsm .seekSync

/-- The bytes of an array, from index 0. -/
def bytes (bs : List Byte) : Memory Byte := (List.range bs.length).zip bs

/-- In the header, its first bytes stored. -/
def inHeader (h : List Byte) : State :=
  { ready with fsm := .readHeader, idx := BitVec.ofNat 8 h.length, hdr := bytes h }

/-- The header `00 0F 02 0A` with its CRC byte accepted, at the end of `HDR.CHECK`. -/
def accepted : State := (inHeader [0x00, 0x0F, 0x02, 0x0A]).setHcrc 0x07

/-- In the body of a frame with these lengths and packet type, `n` bytes counted, `b` stored. -/
def inBody (pl : BitVec 16) (ol pt : Byte) (n : Nat) (b : List Byte) : State :=
  { accepted with
      fsm := .readBody, idx := BitVec.ofNat 8 n, plen := some pl, olen := some ol
      ptype := some pt, body := bytes b }

/-- The body bytes of program P1. -/
def p1Body : List Byte :=
  [0x24, 0x01, 0x02, 0x03, 0x04, 0x80, 0x32, 0, 0, 0, 0, 0, 0, 0, 0, 0x01, 0x2D]

/-! ### Ill-formed terms (WellFormed.lean) -/

theorem test_wf_skip_of_sync : (Instr.seekSkip 0x55).wf c0 = false := by decide
theorem test_wf_vld_length : (Instr.fVld9 0 0 [1, 2]).wf c0 = false := by decide
theorem test_wf_badlen_is_fifteen :
    (Instr.fVld9BadLen 15 0 0 (List.replicate 15 0)).wf c0 = false := by decide
theorem test_wf_badlen_length : (Instr.fVld9BadLen 1 0 0 [1, 2]).wf c0 = false := by decide
theorem test_wf_radio_type : (Instr.fRadioOther 1 0 0 0x24 [0]).wf c0 = false := by decide
theorem test_wf_radio_length : (Instr.fRadioOther 1 0 0 0 []).wf c0 = false := by decide
theorem test_wf_other_type : (Instr.fOther 1 0 0x0A 0 0 [0]).wf c0 = false := by decide
theorem test_wf_other_length : (Instr.fOther 1 0 1 0 0 [0, 0]).wf c0 = false := by decide
theorem test_wf_crc_offset : (Instr.crc8 65536 0 []).wf c0 = false := by decide
theorem test_wf_crc_count : (Instr.crc8 0 65536 []).wf c0 = false := by decide
theorem test_wf_crc_data : (Instr.crc8 0 0 (List.replicate 256 0)).wf c0 = false := by decide +kernel
theorem test_wf_entry_name :
    (Instr.cfgParamPush { p0 with name := List.replicate 256 0 }).wf c0 = false := by decide +kernel
theorem test_wf_entry_unit :
    (Instr.fdSlope { p0 with unit := List.replicate 256 0 }).wf c0 = false := by decide +kernel
theorem test_wf_entry_raw_min :
    (Instr.fdOffset { p0 with rawMin := -2147483649 }).wf c0 = false := by decide
theorem test_wf_entry_raw_max :
    (Instr.fdEmit { p0 with rawMax := 2147483648 } (.f64 0)).wf c0 = false := by decide
theorem test_wf_entry_raw_edges :
    (Instr.cfgParamPush { p0 with rawMin := -2147483648, rawMax := 2147483647 }).wf c0 = true := by
  decide

/-- A unit built with rationals and 40-bit raw ranges (R9, R10). -/
def cRat : Config.Params := { c0 with rawRangeW := 40, num := .rational }

/-- A unit built with another instance of `Num`. -/
def cOther : Config.Params := { c0 with num := .other 7 }

/-- An entry of the unit of `cRat`. -/
def pRat : Entry :=
  { name := [], bitOffset := 0, bitWidth := 8, rawMin := 10, rawMax := 549755813887
    scaleMin := .rat (-1 / 3), scaleMax := .rat 80, unit := [] }

theorem test_wf_scale_is_of_the_num : (Instr.cfgParamPush { p0 with scaleMin := .rat 1 }).wf c0 = false ∧
    (Instr.cfgParamPush { p0 with scaleMax := .other 1 }).wf c0 = false ∧
    (Instr.fdEmit p0 (.rat 0)).wf c0 = false ∧ (Instr.fdScale 0 (.rat 0) (.f64 0)).wf c0 = false ∧
    (Instr.fdScale 0 (.f64 0) (.rat 0)).wf c0 = false := by decide
theorem test_wf_rational : (Instr.cfgParamPush pRat).wf cRat = true ∧
    (Instr.cfgParamPush { pRat with rawMax := 549755813888 }).wf cRat = false ∧
    (Instr.cfgParamPush { pRat with scaleMax := .f64 0 }).wf cRat = false ∧
    (Instr.cfgParamPush { pRat with scaleMax := .other 0 }).wf cRat = false := by decide +kernel
theorem test_wf_number_size : (Instr.fdScale 0 (.rat (2 ^ 255)) (.rat 0)).wf cRat = false ∧
    (Instr.fdScale 0 (.rat 0) (.rat (mkRat 1 (2 ^ 256)))).wf cRat = false ∧
    (Instr.fdScale 0 (.other 0) (.other (2 ^ 256))).wf cOther = false ∧
    (Instr.fdScale 0 (.f64 0) (.other 0)).wf cOther = false ∧
    (Instr.fdScale 0 (.rat 0) (.other 0)).wf cOther = false := by decide +kernel

/-! ### Decoding, byte by byte (R90, R103, R110, R112, R113) -/

/-- The bytes of `p0`, its fields in the order of R24. -/
def p0Bytes : List Byte :=
  [1, 0x74, 0, 9, 0, 0, 0, 0, 0, 0, 0x01, 0xFF, 0xC0, 0x44, 0, 0, 0, 0, 0, 0, 0x40, 0x4E, 0, 0, 0,
    0, 0, 0, 1, 0x43]

theorem test_decode_events :
    decode c0 .event [0x00] = some (.reset, []) ∧
      decode c0 .event [0x01, 0x0F, 0x2D] = some (.cfgCrcWrite 0x0F 0x2D, []) ∧
      decode c0 .event (0x02 :: p0Bytes) = some (.cfgParamPush p0, []) ∧
      decode c0 .event [0x03] = some (.start, []) ∧ decode c0 .event [0x04] = some (.readFrame, []) ∧
      decode c0 .event [0x05, 0xAA] = some (.byte 0xAA, []) ∧
      decode c0 .event [0x06, 0x00] = some (.ioerr, [0x00]) ∧ decode c0 .event [0x07] = none := by
  decide +kernel

theorem test_decode_bytes :
    decode c0 .byte [0x55] = some (.seekSync, []) ∧
      decode c0 .byte [0x54, 0x55] = some (.seekSkip 0x54, [0x55]) := by decide

theorem test_decode_frames :
    decode c0 .frame (0x55 :: 0x00 :: 0x0F :: 0x02 :: 0x0A :: 0x07 :: (p1Body ++ [0xBE])) =
        some (.fVld9 0x02 0x07 (p1Body.drop 1 ++ [0xBE]), []) ∧
      decode c0 .frame [0x55, 0x00, 0x01, 0x00, 0x0A, 0x0B, 0x24, 0x24] =
        some (.fVld9BadLen 1 0 0x0B [0x24], []) ∧
      decode c0 .frame [0x55, 0x00, 0x00, 0x01, 0x0A, 0x0B, 0x22, 0x22, 0x99] =
        some (.fRadioOther 0 1 0x0B 0x22 [0x22], [0x99]) ∧
      decode c0 .frame [0x55, 0x00, 0x01, 0x00, 0x01, 0x6C, 0x08, 0x38] =
        some (.fOther 1 0 1 0x6C 0x08 [0x38], []) ∧
      decode c0 .frame [0x54, 0x00, 0x01, 0x00, 0x01, 0x6C, 0x08, 0x38] = none := by decide +kernel

theorem test_decode_ops :
    decode c0 .op [0x80, 2, 0xAA, 0xBB, 0, 1, 0, 3] = some (.crc8 1 3 [0xAA, 0xBB], []) ∧
      decode c0 .op [0x90, 0x54] = some (.seekSkip 0x54, []) ∧
      decode c0 .op [0x91] = some (.seekSync, []) ∧
      decode c0 .op [0x92, 7] = some (.hdrStore 7, []) ∧
      decode c0 .op [0x93, 7] = some (.hdrCheck 7, []) ∧ decode c0 .op [0x94] = some (.hdrFields, []) ∧
      decode c0 .op [0x95, 0x01, 0x02, 0x03] = some (.lenClamp 0x0102 3, []) ∧
      decode c0 .op [0x96] = some (.bodyEnter, []) ∧ decode c0 .op [0x97, 7] = some (.bodyStore 7, []) ∧
      decode c0 .op [0x98] = some (.bodyCheck, []) ∧ decode c0 .op [0x99] = some (.frameEnd, []) ∧
      decode c0 .op [0x9A] = none := by decide +kernel

theorem test_decode_telegram_ops :
    decode c0 .op [0xA0] = some (.tgDecode, []) ∧ decode c0 .op [0xA1] = some (.tgPtype, []) ∧
      decode c0 .op [0xA2] = some (.tgTtype, []) ∧ decode c0 .op [0xA3] = some (.tgLguard, []) ∧
      decode c0 .op [0xA4] = some (.tgBitcat, []) ∧ decode c0 .op [0xC0] = some (.cfgCheck, []) := by
  decide

theorem test_decode_field_ops :
    decode c0 .op [0xB0, 0x12, 0x34, 0x56, 0x78, 0x9A, 0xBC, 0xDE, 0xF0, 0x0F] =
        some (.fdFields 0x123456789ABCDEF00F, []) ∧
      decode c0 .op [0xB1, 0x80, 0x80, 0, 0, 0, 0, 0, 0, 0x01, 71, 1] =
        some (.fdExtract 0x808000000000000001 71 1, []) ∧
      decode c0 .op (0xB2 :: p0Bytes) = some (.fdSlope p0, []) ∧
      decode c0 .op (0xB3 :: p0Bytes) = some (.fdOffset p0, []) ∧
      decode c0 .op ([0xB4, 0, 0, 0, 0, 0, 0, 0, 0, 0x80] ++ [0x3F, 0xE0, 0, 0, 0, 0, 0, 0] ++
          [0xC0, 0x44, 0, 0, 0, 0, 0, 0]) =
        some (.fdScale 128 (.f64 0x3FE0000000000000) (.f64 0xC044000000000000), []) ∧
      decode c0 .op (0xB5 :: p0Bytes ++ [0x40, 0x49, 0, 0, 0, 0, 0, 0x01]) =
        some (.fdEmit p0 (.f64 0x4049000000000001), []) := by decide +kernel

/-- Raw ranges of 40 bits are five bytes, rationals a numerator and a denominator (entry 10). -/
theorem test_decode_rational_entry : decode cRat .op (0xB2 :: 0 :: 0 :: 8 :: 0 :: 0 :: 0 :: 0 :: 0x0A ::
      0x7F :: 0xFF :: 0xFF :: 0xFF :: 0xFF :: (List.replicate 32 0xFF ++ List.replicate 31 0 ++ 0x03 ::
      List.replicate 31 0 ++ 0x50 :: List.replicate 31 0 ++ [0x01, 0])) =
    some (.fdSlope pRat, []) := by decide +kernel

/-- R39, R153: inside a header the bytes of a frame are `BYTE` events, and noise before a sync byte is
skipped byte by byte. -/
theorem test_stream_bytes :
    nextInput (inHeader [0x00]) ⟨.frame, [0x55, 0x00, 0x01, 0x00, 0x01, 0x6C, 0x08, 0x38]⟩ =
        some (.byte 0x55, [0x00, 0x01, 0x00, 0x01, 0x6C, 0x08, 0x38]) ∧
      nextInput seeking ⟨.frame, [0x11, 0x55]⟩ = some (.byte 0x11, [0x55]) := by decide +kernel

/-- R230, R61: `READ_FRAME` has no step in an attempt and is gone; the next byte is the one behind it. -/
theorem test_ignored_input : (after (step (seeking.setInput
      [⟨.event, [0x04, 0x05, 0x55]⟩, ⟨.event, [0x05, 0xAA]⟩]))).map (fun s => (s.fsm, s.input)) =
    some (.readHeader, [⟨.event, [0x05, 0xAA]⟩]) := by decide +kernel

/-- Program P4 in `HALTED`: `READ` and `BYTES 55` have no step, the byte is not consumed, `RESET` is
taken (R230, R238, R239). -/
theorem test_reset_behind_ignored : (after (step ((ready.setMode .halted).setInput
      [⟨.event, [0x04, 0x05, 0x55, 0x00]⟩]))).map (fun s => (s.mode, s.input)) =
    some (.unconfigured, [⟨.event, [0x05, 0x55]⟩]) := by decide +kernel

/-- R113: 0x90 and 0x91 are no `OPID8` rows, so as table words they are bytes that `SEEK.SKIP` takes. -/
theorem test_table_word_of_skip : decodeTableWord 8 0x90 = some (.seekSkip 0x90) ∧
    decodeTableWord 8 0x91 = some (.seekSkip 0x91) ∧
    decodeTableWord 8 0x92 = some (.hdrStore 0) := by decide +kernel

/-- The prefix word of R103 has its first byte most significant. -/
theorem test_table_word_of_vld9 :
    decodeTableWord 56 0x55000F000A0024 = some (.fVld9 0 0 (List.replicate 15 0)) := by
  decide +kernel

/-! ### The spec's vectors, one step each (95_test_vectors.md) -/

/-- `RESET` in `HALTED` gives `UNCONFIGURED` (R233). -/
theorem test_reset : (after (exec .reset (ready.setMode .halted))).map (·.mode) =
    some .unconfigured := by decide +kernel

/-- V-CFG-14, the second write. -/
theorem test_crc_write : (after (exec (.cfgCrcWrite 5 0x22) (State.reset.writeCrc 5 0x11))).map
    (fun s => (s.t, s.tw)) = some ([(5, 0x22)], 0x20) := by decide +kernel

/-- R232: the second push is `P[1]`. -/
theorem test_param_push : (after (exec (.cfgParamPush p1) (State.reset.pushEntry p0))).map
    (fun s => (s.p, s.np)) = some ([(0, p0), (1, p1)], 2) := by decide +kernel

/-- V-CFG-3. -/
theorem test_start_without_table : (after (exec .start State.reset)).map
    (fun s => (s.mode, s.results)) = some (.halted, [.crcTableMissing 0]) := by decide +kernel

/-- P1: two good entries. -/
theorem test_start : (after (exec .start loaded)).map (fun s => (s.mode, s.results)) =
    some (.run, [.cfgOk 2]) := by decide +kernel

/-- V-CFG-8: check 3a comes before 3d. -/
theorem test_cfg_check_order : (after (exec .cfgCheck
    { loaded with p := [(0, { p0 with bitWidth := 0, rawMax := 0 })], np := 1 })).map (·.port) =
    some (some (.verdict (.paramMalformed 0))) := by decide +kernel

/-- V-CFG-9: an infinite scale value. -/
theorem test_cfg_check_infinite : (after (exec .cfgCheck
    { loaded with p := [(0, { p0 with scaleMax := .f64 0x7FF0000000000000 })], np := 1 })).map (·.port) =
    some (some (.verdict (.paramMalformed 0))) := by decide +kernel

/-- R236. -/
theorem test_read_frame : (after (exec .readFrame ready)).map (·.fsm) = some .seekSync := by
  decide +kernel

/-- V-CFG-12. -/
theorem test_read_frame_in_attempt : after (exec .readFrame (inHeader [])) = none := by
  decide +kernel

/-- V-SYN-6 and V-SYN-7. -/
theorem test_byte_seek : (after (exec (.byte 0x56) seeking)).map (·.fsm) = some .seekSync ∧
    (after (exec (.byte 0x55) seeking)).map (fun s => (s.fsm, s.idx)) = some (.readHeader, 0) := by
  decide +kernel

/-- V-CFG-15. -/
theorem test_ioerr : (after (exec .ioerr seeking)).map (fun s => (s.fsm, s.results)) =
    some (.idle, [.frameSyncFailure .seekSync]) := by decide +kernel

/-- V-SYN-7 and V-SYN-6 as rows of their own. -/
theorem test_seek_rows : (after (exec .seekSync seeking)).map (·.fsm) = some .readHeader ∧
    (after (exec (.seekSkip 0xD5) seeking)).map (·.fsm) = some .seekSync := by decide +kernel

/-- P1's frame, whole. -/
theorem test_vld9 : (after (exec (.fVld9 2 7 (p1Body.drop 1 ++ [0xBE])) seeking)).map
    (fun s => (s.fsm, s.idx, s.results)) =
    some (.idle, 17, [.measurements [⟨[0x74], .f64 0x402432190C864320, [0x43]⟩,
      ⟨[0x68], .f64 0x4049000000000000, [0x25]⟩]]) := by decide +kernel

/-- P1's frame with a header CRC byte of 06: five bytes after the sync byte are gone (V-SYN-2). -/
theorem test_vld9_bad_header : (after (exec (.fVld9 2 6 (p1Body.drop 1 ++ [0xBE])) seeking)).map
    (fun s => (s.fsm, s.traces, s.results, s.input.map fun b => b.bytes.length)) =
    some (.seekSync, [.headerCrcMismatch [0x00, 0x0F, 0x02, 0x0A] 0x06], [], [36]) := by
  decide +kernel

/-- V-BDY-5, program P5. -/
theorem test_badlen : (after (exec (.fVld9BadLen 0 1 0x0B [0x24]) seeking)).map (·.results) =
    some [.unsupportedDataLength 0] := by decide +kernel

/-- P5, the empty frame. -/
theorem test_radio_other : (after (exec (.fRadioOther 0 0 0x0A 0x00 []) seeking)).map
    (fun s => (s.results, s.traces)) = some ([.none], [.frameAccepted 0 0 0x0A 0x0A]) := by
  decide +kernel

/-- V-TG-7 shortened: the packet filter comes before the length guard. -/
theorem test_other : (after (exec (.fOther 1 0 0x01 0x00 0x24 [0x24]) seeking)).map (·.results) =
    some [.none] := by decide +kernel

/-- V-CRC-3 and V-CRC-12. -/
theorem test_crc8 : (after (exec (.crc8 0 4 [0x00, 0x0F, 0x02, 0x0A]) ready)).map (·.port) =
      some (some (.crc 0x07)) ∧
    (after (exec (.crc8 6 0 [0x10, 0x20, 0x30, 0x40, 0x50]) ready)).map (·.port) =
      some (some .outOfRange) := by decide +kernel

/-- V-CRC-8. -/
theorem test_crc8_range : (after (exec (.crc8 1 3 [0x10, 0x20, 0x30, 0x40, 0x50]) ready)).map
    (·.port) = some (some (.crc 0x50)) := by decide +kernel

/-- R143: `IDX = 2`, `BYTE(0x07)`. -/
theorem test_hdr_store : (after (exec (.hdrStore 0x07) (inHeader [0x00, 0x0F]))).map
    (fun s => (s.hdr.read 2, s.idx)) = some (some 0x07, 3) := by decide +kernel

/-- V-SYN-1. -/
theorem test_hdr_check : (after (exec (.hdrCheck 0x07) (inHeader [0x00, 0x0F, 0x02, 0x0A]))).map
    (fun s => (s.fsm, s.idx, s.plen, s.olen)) = some (.readBody, 0, some 15, some 2) := by
  decide +kernel

/-- V-SYN-5: a 0x55 in `HDR[0]` is data; the length is clamped. -/
theorem test_hdr_check_sync : (after (exec (.hdrCheck 0x54) (inHeader [0x55, 0x00, 0x01, 0x00]))).map
    (fun s => (s.fsm, s.plen, s.olen)) = some (.readBody, some 128, some 0) := by decide +kernel

/-- R145. -/
theorem test_hdr_fields : (after (exec .hdrFields accepted)).map (fun s => (s.ptype, s.port)) =
    some (some 0x0A, some (.lengths 15 2)) := by decide +kernel

/-- V-CLP-1 and V-CLP-2. -/
theorem test_len_clamp :
    (after (exec (.lenClamp 200 5) (accepted.setPtype 0x0A))).map (fun s => (s.plen, s.olen)) =
      some (some 128, some 0) ∧
    (after (exec (.lenClamp 100 50) (accepted.setPtype 0x0A))).map (fun s => (s.plen, s.olen)) =
      some (some 100, some 28) := by decide +kernel

/-- V-CLP-9 and V-CLP-13. -/
theorem test_len_clamp_edges :
    (after (exec (.lenClamp 65535 255) (accepted.setPtype 0x0A))).map (fun s => (s.plen, s.olen)) =
      some (some 128, some 0) ∧
    (after (exec (.lenClamp 15 114) (accepted.setPtype 0x0A))).map (fun s => (s.plen, s.olen)) =
      some (some 15, some 113) := by decide +kernel

/-- R147. -/
theorem test_body_enter : (after (exec .bodyEnter ((accepted.setPtype 0x0A).setLens 15 2))).map
    (fun s => (s.fsm, s.idx)) = some (.readBody, 0) := by decide +kernel

/-- V-BDY-3: the only body byte is the data CRC. -/
theorem test_body_store : (after (exec (.bodyStore 0x00) (inBody 0 0 0x0A 0 []))).map
    (fun s => (s.fsm, s.results)) = some (.idle, [.none]) := by decide +kernel

/-- V-BDY-2 and V-BDY-4. -/
theorem test_body_store_bad : (after (exec (.bodyStore 0x01) (inBody 0 0 0x0A 0 []))).map
    (fun s => (s.fsm, s.results, s.traces)) = some (.idle, [.invalidDataCrc], []) := by
  decide +kernel

/-- V-BDY-5. -/
theorem test_body_check : (after (exec .bodyCheck (inBody 0 1 0x0A 1 [0x24, 0x24]))).map
    (fun s => (s.fsm, s.results)) = some (.readBody, [.unsupportedDataLength 0]) := by
  decide +kernel

/-- Fields that `START` refuses run alone (R201, entry 9). -/
theorem test_fd_extract_open : (after (exec (.fdExtract 0 73 0) ready)).isSome = true ∧
    (after (exec (.fdExtract 0 72 1) ready)).isSome = true := ⟨rfl, rfl⟩

/-- R204 in exact arithmetic: 100 * (1/3) - 40. -/
theorem test_fd_scale_rational : (after (exec (.fdScale 100 (.rat (1 / 3)) (.rat (-40)))
    { ready with params := cRat })).map (·.port) = some (some (.num (.rat (-20 / 3)))) := by
  decide +kernel

theorem test_frame_end : (after (exec .frameEnd (inBody 0 1 0x0A 1 [0x24, 0x24]))).map (·.fsm) =
    some .idle := by decide +kernel

/-- V-TG-5 and V-TG-8. -/
theorem test_tg_decode :
    (after (exec .tgDecode (inBody 15 0 0x0A 15 (0x22 :: List.replicate 15 0)))).map (·.results) =
      some [.none] ∧
    (after (exec .tgDecode (inBody 15 0 0x8A 15 (0x24 :: List.replicate 15 0)))).map (·.results) =
      some [.none] := by decide +kernel

theorem test_tg_filters :
    (after (exec .tgPtype (inBody 0 0 0x0B 0 []))).map (·.port) = some (some .decodeEnded) ∧
      (after (exec .tgTtype (inBody 0 0 0x0A 0 [0x24]))).map (·.port) =
        some (some (.telegramType 0x24)) ∧
      (after (exec .tgLguard (inBody 15 0 0x0A 0 []))).map (·.port) =
        some (some (.dataLength 9)) := by decide +kernel

/-- V-TG-3 and V-TG-4. -/
theorem test_tg_lguard :
    (after (exec .tgLguard (inBody 16 0 0x0A 0 []))).map (·.results) =
      some [.unsupportedDataLength 16] ∧
    (after (exec .tgLguard (inBody 1 0 0x0A 0 []))).map (·.results) =
      some [.unsupportedDataLength 1] := by decide +kernel

/-- V-TG-10. -/
theorem test_tg_bitcat : (after (exec .tgBitcat (inBody 15 0 0x0A 15 ([0, 0, 0, 0, 0] ++
    [0x12, 0x34, 0x56, 0x78, 0x9A, 0xBC, 0xDE, 0xF0, 0x0F] ++ [0])))).map (·.port) =
    some (some (.bits 0x123456789ABCDEF00F)) := by decide +kernel

/-- V-EX-1, V-EX-6. -/
theorem test_fd_extract :
    (after (exec (.fdExtract 0x808000000000000001 0 9) ready)).map (·.port) =
      some (some (.raw 257)) ∧
    (after (exec (.fdExtract 0x808000000000000001 71 1) ready)).map (·.port) =
      some (some (.raw 1)) := by decide +kernel

/-- V-EX-14, V-EX-17. -/
theorem test_fd_extract_wide :
    (after (exec (.fdExtract 0x123456789ABCDEF00F 17 10) ready)).map (·.port) =
      some (some (.raw 691)) ∧
    (after (exec (.fdExtract 0x123456789ABCDEF00F 0 72) ready)).map (·.port) =
      some (some (.raw 335812727670730321935)) := by decide +kernel

/-- V-SC-13: slope and offset. -/
theorem test_fd_slope_offset :
    (after (exec (.fdSlope p13) ready)).map (·.port) = some (some (.num (.f64 0x3FDAAAAAAAAAAAAB))) ∧
    (after (exec (.fdOffset p13) ready)).map (·.port) = some (some (.num (.f64 0x4088595555555555))) := by
  decide +kernel

/-- V-SC-14 and V-SC-18. -/
theorem test_fd_scale :
    (after (exec (.fdScale 130 (.f64 0x3FDAAAAAAAAAAAAB) (.f64 0x4088595555555555)) ready)).map (·.port) =
      some (some (.num (.f64 0x408A0AAAAAAAAAAA))) ∧
    (after (exec (.fdScale (BitVec.allOnes 72) (.f64 0x3FF0000000000000) (.f64 0)) ready)).map (·.port) =
      some (some (.num (.f64 0x4470000000000000))) := by decide +kernel

/-- V-SC-6 and V-SC-8, through `FD.FIELDS`. -/
theorem test_fd_fields : (after (exec (.fdFields 0x803200000000000000) ready)).map (·.port) =
    some (some (.measurements [⟨[0x74], .f64 0x402432190C864320, [0x43]⟩,
      ⟨[0x68], .f64 0x4049000000000000, [0x25]⟩])) := by decide +kernel

/-- R205. -/
theorem test_fd_emit : (after (exec (.fdEmit p0 (.f64 0x402432190C864320)) ready)).map (·.port) =
    some (some (.measurement ⟨[0x74], .f64 0x402432190C864320, [0x43]⟩)) := by decide +kernel

/-! ### Witnesses: states and operands that meet the hypotheses of each statement -/

theorem tid_read : ∀ i : Byte, tid.read i.toNat = some i := by decide +kernel

theorem ready_table : TableIs ready id := tid_read

theorem ready_entries : EntriesLegal ready 2 := by
  intro k hk
  have : k = 0 ∨ k = 1 := by omega
  rcases this with rfl | rfl
  · exact ⟨p0, rfl, by unfold LegalEntry SoundEntry; decide +kernel⟩
  · exact ⟨p1, rfl, by unfold LegalEntry SoundEntry; decide +kernel⟩

theorem loaded_good : ConfigGood loaded := ⟨by unfold AllWritten; decide +kernel, rfl, ready_entries⟩

theorem tid_isSome (i : Nat) :
    (tid.read i).isSome = (decide (i < 256) && (BitVec.allOnes 256).getLsbD i) := by
  by_cases h : i < 256
  · have := tid_read (BitVec.ofNat 8 i)
    rw [BitVec.toNat_ofNat, Nat.mod_eq_of_lt h] at this
    simp only [this, Option.isSome_some, BitVec.getLsbD_allOnes, h, decide_true, Bool.and_self]
  · rw [Memory.read_eq_none tid 256 (by decide +kernel) (by omega)]
    simp [h]

theorem loaded_entries (k : Nat) : (loaded.p.read k).isSome = decide (k < loaded.np) := by
  match k with
  | 0 => rfl
  | 1 => rfl
  | n + 2 => simp [loaded, Memory.read_cons]

theorem loaded_fits (k : Nat) (p : Entry) (h : loaded.p.read k = some p) : p.fits c0 = true := by
  match k with
  | 0 => cases h; decide +kernel
  | 1 => cases h; decide +kernel
  | n + 2 => simp [loaded, Memory.read_cons] at h

/-- The invariant holds of the configured unit, before and after `START`, and in an attempt. -/
theorem loaded_inv : UnitInv loaded :=
  ⟨⟨by decide +kernel, by decide +kernel, rfl, rfl, tid_isSome, loaded_entries, loaded_fits,
      by decide +kernel,
      by simp [loaded, State.reset], by simp [loaded, State.reset]⟩,
    by simp [LengthInv, loaded, State.reset], by simp [SequencerInv, loaded, State.reset],
    fun _ => rfl, fun h => absurd h (by decide +kernel)⟩

theorem ready_inv : UnitInv ready :=
  ⟨loaded_inv.1, loaded_inv.2.1, loaded_inv.2.2.1, fun _ => rfl, fun _ => loaded_good⟩

theorem seeking_inv : UnitInv seeking :=
  ⟨loaded_inv.1, loaded_inv.2.1, ⟨nofun, nofun⟩, fun h => absurd rfl h, fun _ => loaded_good⟩

theorem witness_CrcWriteStoresOneEntry : State.reset.mode = .unconfigured := rfl

/-- Room for one more entry, and a full table. -/
theorem witness_ParamPushAppendsOrOverflows :
    ({ loaded with np := 15 } : State).mode = .unconfigured ∧
      ({ loaded with np := 15 } : State).np < loaded.params.maxFields ∧
      ¬ ({ loaded with np := 16 } : State).np < loaded.params.maxFields := by decide +kernel

/-- Every verdict, the least and the greatest unwritten index. -/
theorem witness_ConfigVerdicts :
    ConfigVerdict loaded (.cfgOk 2) ∧ ConfigVerdict State.reset (.crcTableMissing 0) ∧
      ConfigVerdict { loaded with tw := BitVec.allOnes 256 >>> 1 } (.crcTableMissing 255) ∧
      ConfigVerdict { loaded with povf := true } (.paramMalformed 16) ∧
      ConfigVerdict { loaded with p := [(0, { p0 with bitOffset := 68 })], np := 1 }
        (.paramMalformed 0) ∧
      ConfigVerdict { loaded with p := [(0, { p0 with rawMax := 0 })], np := 1 }
        (.divisionByZero 0) := by
  refine ⟨⟨loaded_good, rfl⟩, ⟨by omega, rfl, by omega⟩, by unfold ConfigVerdict; decide +kernel,
    ⟨loaded_good.1, .inl ⟨rfl, rfl⟩⟩,
    ⟨loaded_good.1, .inr ⟨rfl, by decide, fun k hk => absurd hk (by omega), _, rfl, ?_⟩⟩,
    ⟨loaded_good.1, rfl, by decide, fun k hk => absurd hk (by omega), _, rfl, ?_, rfl⟩⟩
  · unfold SoundEntry; decide +kernel
  · unfold SoundEntry; decide +kernel

theorem witness_StartFollowsTheVerdict : loaded.mode = .unconfigured ∧
    loaded.np ≤ loaded.params.maxFields ∧ ConfigVerdict loaded (.cfgOk 2) :=
  ⟨rfl, by decide +kernel, witness_ConfigVerdicts.1⟩

theorem witness_CfgCheckHandsBackTheVerdict : State.reset.np ≤ State.reset.params.maxFields ∧
    ConfigVerdict State.reset (.crcTableMissing 0) := ⟨by decide, witness_ConfigVerdicts.2.1⟩

theorem witness_ConfigVerdictIsUnique : loaded.np ≤ loaded.params.maxFields ∧
    ∀ k, k < loaded.np → (loaded.p.read k).isSome = true := by decide +kernel

theorem witness_StartInRunGuaranteesTables :
    UnitInv loaded ∧ ∃ t, exec .start loaded = .next t ∧ t.mode = .run := by
  refine ⟨loaded_inv, loaded.takeOutcome (.cfgOk 2), ?_, rfl⟩
  simp [exec, execStart, cfgCheck_of_verdict (by decide +kernel) witness_ConfigVerdicts.1,
    show loaded.mode = .unconfigured from rfl]

theorem witness_ReadFrameStartsWithEmptyBuffers : ready.mode = .run ∧ ready.fsm = .idle :=
  ⟨rfl, rfl⟩

/-- `SEEK_SYNC`, `READ_HEADER` and `READ_BODY`. -/
theorem witness_IoErrorEndsTheAttempt :
    (seeking.mode = .run ∧ seeking.fsm ≠ .idle) ∧
      ((inHeader []).mode = .run ∧ (inHeader []).fsm ≠ .idle) ∧
      ((inBody 0 0 0 0 []).mode = .run ∧ (inBody 0 0 0 0 []).fsm ≠ .idle) := by decide +kernel

/-- An event, a frame and a byte, each in a state that accepts it and in one that does not. -/
theorem witness_AcceptanceTableIsExact :
    (Instr.start.fmt = .event ∧ accepts loaded .start = true ∧ accepts ready .start = false) ∧
      ((Instr.fOther 0 0 0 0 0 []).fmt = .frame ∧ accepts seeking (.fOther 0 0 0 0 0 []) = true ∧
        accepts ready (.fOther 0 0 0 0 0 []) = false) ∧
      (Instr.seekSync.fmt = .byte ∧ ModeInv seeking ∧ accepts seeking .seekSync = true ∧
        ModeInv ready ∧ accepts ready .seekSync = false) ∧
      (Instr.seekSkip 0x54).fmt = .byte ∧ accepts seeking (.seekSkip 0x54) = true ∧
        accepts seeking (.seekSkip 0x55) = false :=
  ⟨by decide +kernel, by decide +kernel,
    ⟨rfl, seeking_inv.2.2.2, by decide +kernel, ready_inv.2.2.2, by decide +kernel⟩,
    by decide +kernel⟩

theorem witness_TablesAreFrozenAfterStart : ready.mode ≠ .unconfigured ∧ Instr.readFrame ≠ .reset ∧
    exec .readFrame ready = .next ready.beginAttempt := by
  refine ⟨by decide +kernel, by decide, ?_⟩
  simp [exec, execReadFrame, ready, loaded, State.reset]

/-- An event that emits nothing, `START`, and one that ends an attempt. -/
theorem witness_OneResultPerRequest :
    exec .readFrame ready = .next ready.beginAttempt ∧
      exec .ioerr seeking = .next (seeking.takeOutcome (.frameSyncFailure .seekSync)) ∧
      exec .start loaded = .next (loaded.takeOutcome (.cfgOk 2)) := by
  refine ⟨witness_TablesAreFrozenAfterStart.2.2, ?_, ?_⟩
  · simp [exec, execIoerr, State.inAttempt, seeking, ready, loaded, State.reset]
  · simp [exec, execStart, cfgCheck_of_verdict (by decide +kernel) witness_ConfigVerdicts.1,
      show loaded.mode = .unconfigured from rfl]

/-- In range up to the last byte, and out of range by one. -/
theorem witness_CrcOfTheRangeOrOutOfRange : TableIs ready id ∧
    5 + 0 ≤ [(0x10 : Byte), 0x20, 0x30, 0x40, 0x50].length ∧
    ¬ 6 + 0 ≤ [(0x10 : Byte), 0x20, 0x30, 0x40, 0x50].length ∧
    State.reset.t.read (0xFF : Byte).toNat = none := ⟨ready_table, by decide, by decide, rfl⟩

theorem witness_CrcIsIncremental : (∀ i : Byte, tid.read i.toNat = some (id i)) ∧
    [(0x10 : Byte), 0x20][0 + 1]? = some 0x20 := ⟨tid_read, rfl⟩

/-- Two different sequences and the same range. -/
theorem witness_CrcDependsOnlyOnTheRange : (∀ i, i < 256 → tid.read i = tid.read i) ∧
    1 + 2 ≤ [(1 : Byte), 2, 3].length ∧ 0 + 2 ≤ [(2 : Byte), 3].length ∧
    ∀ j, j < 2 → [(1 : Byte), 2, 3][1 + j]? = [(2 : Byte), 3][0 + j]? :=
  ⟨fun _ _ => rfl, by decide, by decide, by decide⟩

theorem witness_CrcOfShortRanges : 2 ≤ [(1 : Byte), 2].length ∧ [(1 : Byte), 2][1]? = some 2 ∧
    tid.read (2 : Byte).toNat = some 2 := ⟨by decide, rfl, tid_read 2⟩

/-- The last header byte, the header CRC byte, the sync search, the body. -/
theorem witness_ByteDispatchesOnPosition :
    ((inHeader [0, 0, 0]).mode = .run ∧ (inHeader [0, 0, 0]).fsm ≠ .idle ∧
        (inHeader [0, 0, 0]).idx.toNat ≤ 4) ∧
      (accepted.mode = .run ∧ accepted.fsm ≠ .idle ∧ accepted.idx.toNat ≤ 4) ∧
      (seeking.mode = .run ∧ seeking.fsm ≠ .idle ∧ seeking.fsm ≠ .readHeader) ∧
      (inBody 0 0 0 0 []).fsm ≠ .readHeader := by decide +kernel

theorem witness_SyncSearchSkipsUntilSync : seeking.mode = .run ∧ seeking.fsm = .seekSync ∧
    (0x54 : Byte) ≠ 0x55 := by decide +kernel

theorem witness_HeaderByteIsStoredAndCounted :
    ((inHeader []).fsm = .readHeader ∧ (inHeader []).idx.toNat < 4) ∧
      ((inHeader [0, 0, 0]).fsm = .readHeader ∧ (inHeader [0, 0, 0]).idx.toNat < 4) := by
  decide +kernel

theorem accepted_header : HeaderIs accepted 0x00 0x0F 0x02 0x0A := ⟨rfl, rfl, rfl, rfl⟩

theorem witness_MatchingHeaderEntersBody : accepted.fsm = .readHeader ∧ accepted.idx.toNat = 4 ∧
    TableIs accepted id ∧ HeaderIs accepted 0x00 0x0F 0x02 0x0A :=
  ⟨rfl, rfl, tid_read, accepted_header⟩

theorem witness_MismatchingHeaderResynchronizes :
    accepted.fsm = .readHeader ∧ accepted.idx.toNat = 4 ∧ TableIs accepted id ∧
      HeaderIs accepted 0x00 0x0F 0x02 0x0A ∧ (0x06 : Byte) ≠ crcOf id [0x00, 0x0F, 0x02, 0x0A] :=
  ⟨rfl, rfl, tid_read, accepted_header, by decide⟩

theorem witness_HeaderFieldsAreAssembled : accepted.fsm = .readHeader ∧ accepted.idx.toNat = 4 ∧
    TableIs accepted id ∧ HeaderIs accepted 0x00 0x0F 0x02 0x0A ∧
    accepted.hcrc = some (crcOf id [0x00, 0x0F, 0x02, 0x0A]) :=
  ⟨rfl, rfl, tid_read, accepted_header, by decide +kernel⟩

/-- The state of the last witness with a packet type; the edges of the three cases of R146. -/
theorem witness_LengthsAreClamped : (accepted.setPtype 0x0A).fsm = .readHeader ∧
    (accepted.setPtype 0x0A).idx.toNat = 4 ∧ TableIs (accepted.setPtype 0x0A) id ∧
    HeaderIs (accepted.setPtype 0x0A) 0x00 0x0F 0x02 0x0A ∧
    (accepted.setPtype 0x0A).hcrc = some (crcOf id [0x00, 0x0F, 0x02, 0x0A]) ∧
    (accepted.setPtype 0x0A).ptype = some 0x0A ∧
    ClampedTo 129 0 128 0 ∧ ClampedTo 128 5 128 0 ∧ ClampedTo 127 2 127 1 ∧
    ClampedTo 127 1 127 1 ∧ ClampedTo 0 255 0 128 ∧ ClampedTo 128 0 128 0 := by
  refine ⟨rfl, rfl, tid_read, accepted_header, by decide +kernel, rfl, ?_⟩
  unfold ClampedTo
  decide

theorem witness_BodyIsEnteredAtItsStart :
    ∃ s, s = (accepted.setPtype 0x0A).setLens 15 2 ∧ s.fsm = .readHeader ∧ s.idx.toNat = 4 ∧
      TableIs s id ∧ HeaderIs s 0x00 0x0F 0x02 0x0A ∧
      s.hcrc = some (crcOf id [0x00, 0x0F, 0x02, 0x0A]) ∧ s.ptype = some 0x0A ∧
      s.plen = some 15 ∧ s.olen = some 2 :=
  ⟨_, rfl, rfl, rfl, tid_read, accepted_header, by decide +kernel, rfl, rfl, rfl⟩

/-- The first and the last byte that is only stored, at the greatest lengths. -/
theorem witness_BodyByteIsStoredAndCounted :
    ((inBody 127 1 0 0 []).fsm = .readBody ∧ (inBody 127 1 0 0 []).idx.toNat < 127 + 1) ∧
      (inBody 127 1 0 127 []).plen = some 127 ∧ (inBody 127 1 0 127 []).olen = some 1 ∧
      (127 : BitVec 16).toNat + (1 : Byte).toNat ≤ 128 ∧
      (inBody 127 1 0 127 []).idx.toNat < (127 : BitVec 16).toNat + (1 : Byte).toNat := by
  decide +kernel

/-- The body of two bytes `24 00`, whose CRC is 0x24. -/
theorem small_body : BodyIs (inBody 1 1 0x0A 2 [0x24, 0x00]) [0x24, 0x00] := by
  unfold BodyIs; decide +kernel

theorem witness_BadDataCrcEndsTheAttempt :
    ∃ s, s = inBody 1 1 0x0A 2 [0x24, 0x00] ∧ s.fsm = .readBody ∧ s.plen = some 1 ∧
      s.olen = some 1 ∧ (1 : BitVec 16).toNat + (1 : Byte).toNat ≤ 128 ∧
      s.idx.toNat = (1 : BitVec 16).toNat + (1 : Byte).toNat ∧ TableIs s id ∧
      [(0x24 : Byte), 0x00].length = (1 : BitVec 16).toNat + (1 : Byte).toNat ∧
      BodyIs s [0x24, 0x00] ∧ (0x25 : Byte) ≠ crcOf id [0x24, 0x00] :=
  ⟨_, rfl, rfl, rfl, rfl, by decide, rfl, tid_read, rfl, small_body, by decide⟩

/-- A data CRC byte that matches, and one that does not. -/
theorem witness_BodyCheckDecidesOnTheDataCrc :
    ∃ s, s = inBody 1 1 0x0A 2 [0x24, 0x00, 0x24] ∧ s.fsm = .readBody ∧ s.plen = some 1 ∧
      s.olen = some 1 ∧ s.ptype = some 0x0A ∧ s.hcrc = some 0x07 ∧
      s.idx.toNat = (1 : BitVec 16).toNat + (1 : Byte).toNat ∧ TableIs s id ∧
      BodyIs s ([0x24, 0x00] ++ [0x24]) ∧ (0x24 : Byte) = crcOf id [0x24, 0x00] ∧
      BodyIs (inBody 1 1 0x0A 2 [0x24, 0x00, 0x25]) ([0x24, 0x00] ++ [0x25]) ∧
      s.np ≤ s.params.maxFields ∧ EntriesLegal s s.np :=
  ⟨_, rfl, rfl, rfl, rfl, rfl, rfl, rfl, tid_read, by unfold BodyIs; decide +kernel, by decide,
    by unfold BodyIs; decide +kernel, by decide +kernel, ready_entries⟩

theorem witness_GoodDataCrcDecodesAndEnds :
    ∃ s, s = inBody 1 1 0x0A 2 [0x24, 0x00] ∧ s.fsm = .readBody ∧ s.plen = some 1 ∧
      s.olen = some 1 ∧ s.ptype = some 0x0A ∧ s.hcrc = some 0x07 ∧
      s.idx.toNat = (1 : BitVec 16).toNat + (1 : Byte).toNat ∧ TableIs s id ∧
      BodyIs s [0x24, 0x00] ∧ s.np ≤ s.params.maxFields ∧ EntriesLegal s s.np :=
  ⟨_, rfl, rfl, rfl, rfl, rfl, rfl, rfl, tid_read, small_body, by decide +kernel, ready_entries⟩

theorem witness_FrameEndReturnsToIdle :
    ∃ s, s = inBody 0 0 0x0A 0 [0x00] ∧ s.fsm = .readBody ∧ s.plen = some 0 ∧ s.olen = some 0 ∧
      s.idx.toNat = (0 : BitVec 16).toNat + (0 : Byte).toNat ∧
      s.body.read s.idx.toNat = some 0x00 := ⟨_, rfl, rfl, rfl, rfl, rfl, by decide +kernel⟩

/-- Packet types that pass and that do not. -/
theorem witness_PacketTypeFilterPassesOnlyRadioAdvanced :
    (inBody 0 0 0x0A 0 []).fsm ≠ .idle ∧ (inBody 0 0 0x0A 0 []).ptype = some 0x0A ∧
      (inBody 0 0 0x8A 0 []).ptype = some 0x8A ∧
      seeking.fsm ≠ .idle ∧ seeking.ptype = none := by decide +kernel

theorem witness_TelegramTypeFilterReadsBodyZero :
    (inBody 0 0 0x0A 0 [0x24]).fsm ≠ .idle ∧
      (inBody 0 0 0x0A 0 [0x24]).body.read 0 = some 0x24 ∧
      (inBody 0 0 0x0A 0 [0x22]).body.read 0 = some 0x22 ∧
      (inBody 0 0 0x0A 0 []).fsm ≠ .idle ∧ (inBody 0 0 0x0A 0 []).body.read 0 = none := by
  decide +kernel

/-- 15, and its neighbours. -/
theorem witness_LengthGuardAdmitsOnlyFifteen :
    (inBody 15 0 0x0A 0 []).fsm ≠ .idle ∧ (inBody 15 0 0x0A 0 []).plen = some 15 ∧
      (inBody 14 0 0x0A 0 []).plen = some 14 ∧ (inBody 16 0 0x0A 0 []).plen = some 16 ∧
      accepted.fsm ≠ .idle ∧ accepted.plen = none := by
  decide +kernel

theorem witness_BitStringIsMostSignificantFirst :
    (inBody 15 0 0x0A 15 (0x24 :: List.replicate 14 0x0F)).fsm ≠ .idle ∧
      ∀ j : Fin 9, (inBody 15 0 0x0A 15 (0x24 :: List.replicate 14 0x0F)).body.read (5 + j.val) =
        some 0x0F := by decide +kernel

/-- A frame that passes every test, with its sensor bytes. -/
theorem witness_DecodeTestsInOrder :
    ∃ s, s = inBody 15 2 0x0A 17 p1Body ∧ s.fsm ≠ .idle ∧ s.ptype = some 0x0A ∧
      s.body.read 0 = some 0x24 ∧ s.plen = some 15 ∧
      [(0x80 : Byte), 0x32, 0, 0, 0, 0, 0, 0, 0].length = 9 ∧
      (∀ j, j < 9 → s.body.read (5 + j) = [(0x80 : Byte), 0x32, 0, 0, 0, 0, 0, 0, 0][j]?) ∧
      s.np ≤ s.params.maxFields ∧ EntriesLegal s s.np :=
  ⟨_, rfl, by decide +kernel, rfl, by decide +kernel, rfl, rfl, by decide +kernel,
    by decide +kernel, ready_entries⟩

theorem witness_FieldsFollowTableOrder :
    ready.np ≤ ready.params.maxFields ∧ EntriesLegal ready ready.np :=
  ⟨by decide +kernel, ready_entries⟩

/-- The widest field and the last bit. -/
theorem witness_ExtractedFieldIsShiftAndMask :
    (1 ≤ (72 : BitVec 7).toNat ∧ (0 : BitVec 7).toNat + (72 : BitVec 7).toNat ≤ 72) ∧
      (1 ≤ (1 : BitVec 7).toNat ∧ (71 : BitVec 7).toNat + (1 : BitVec 7).toNat ≤ 72) := by decide

/-- An empty field, and the first and the last bit beyond `B`. -/
theorem witness_ExtractOutsideTheTable :
    (0 : BitVec 7).toNat = 0 ∧ (72 : BitVec 7).toNat + (1 : BitVec 7).toNat > 72 ∧
      (127 : BitVec 7).toNat + (127 : BitVec 7).toNat > 72 := by decide

theorem witness_SlopeAndOffsetFormulas : p13.rawMin ≠ p13.rawMax ∧
    ({ p13 with rawMax := 10 } : Entry).rawMin = ({ p13 with rawMax := 10 } : Entry).rawMax := by
  decide

/-- An entry with `raw_min = 0` at both ends, and one without at `raw_min`. -/
theorem witness_RationalClosedForm : ((0 : Int) ≠ 255 ∧ ((0 : Nat) : Int) = 0 ∧
    ((255 : Nat) : Int) = 255) ∧ ((10 : Int) ≠ 250 ∧ ((10 : Nat) : Int) = 10) := by decide

theorem witness_SmallIntegersConvertExactly :
    (2 ^ 53 : Int).natAbs ≤ 2 ^ 53 ∧ (-(2 ^ 53) : Int).natAbs ≤ 2 ^ 53 := by decide

/-- 1.0 and 100.0; an infinity, a NaN and both zeros. -/
theorem witness_RoundToNearestEven : f64Value 0x3FF0000000000000 = some 1 ∧
    f64Value 0x4059000000000000 = some 100 ∧ (100 : Rat) ≠ 0 ∧
    F64.unpack 0x7FF0000000000000 = .inf false ∧ F64.unpack 0xFFF0000000000000 = .inf (!false) ∧
    F64.unpack 0x7FF8000000000000 = .nan ∧ f64Value (f64Zero true) = some 0 ∧
    f64Value (f64Zero false) = some 0 := by
  refine ⟨?_, ?_, by norm_num, by decide +kernel, by decide +kernel, by decide +kernel, ?_, ?_⟩
  · have : F64.unpack 0x3FF0000000000000 = .fin false (2 ^ 52) (-52) := by decide +kernel
    simp only [f64Value, this, signed]; norm_num
  · have : F64.unpack 0x4059000000000000 = .fin false 7036874417766400 (-46) := by decide +kernel
    simp only [f64Value, this, signed]; norm_num
  · have : F64.unpack (f64Zero true) = .fin true 0 (-1074) := by decide +kernel
    simp [f64Value, this, signed]
  · have : F64.unpack (f64Zero false) = .fin false 0 (-1074) := by decide +kernel
    simp [f64Value, this, signed]

/-- The largest finite value and half a unit of its last place: their sum is the limit, and the unit's
sum is the infinity (R210). With a little less it is the largest finite value. -/
theorem witness_OverflowAtTheLimit : f64Value 0x7FEFFFFFFFFFFFFF = some ((2 ^ 53 - 1) * 2 ^ 971) ∧
    f64Value 0x7C90000000000000 = some (2 ^ 970) ∧
    f64Limit ≤ |((2 ^ 53 - 1) * 2 ^ 971 : Rat) + 2 ^ 970| ∧
    F64.unpack (f64Add 0x7FEFFFFFFFFFFFFF 0x7C90000000000000) = .inf false ∧
    f64Add 0x7FEFFFFFFFFFFFFF 0x7C8FFFFFFFFFFFFF = 0x7FEFFFFFFFFFFFFF := by
  refine ⟨?_, ?_, ?_, by decide +kernel, by decide +kernel⟩
  · have : F64.unpack 0x7FEFFFFFFFFFFFFF = .fin false (2 ^ 53 - 1) 971 := by decide +kernel
    simp only [f64Value, this, signed]; norm_num
  · have : F64.unpack 0x7C90000000000000 = .fin false (2 ^ 52) 918 := by decide +kernel
    simp only [f64Value, this, signed]
    rw [show (970 : Nat) = 52 + 918 from rfl, pow_add]; norm_num
  · rw [abs_of_nonneg (by positivity), f64Limit, pow_succ _ 970, pow_succ _ 53]
    generalize (2 : Rat) ^ 970 = x; exact le_of_eq (by ring)

/-- `0.0 - (-0.0) = +0.0` (R210). -/
theorem test_signed_zero : f64Sub (f64Zero false) (f64Zero true) = f64Zero false ∧
    f64Mul (f64Zero true) 0x3FF0000000000000 = f64Zero true := by decide +kernel

theorem witness_VldFrameYieldsMeasurements :
    seeking.mode = .run ∧ seeking.fsm = .seekSync ∧ TableIs seeking id ∧
      seeking.np ≤ seeking.params.maxFields ∧ EntriesLegal seeking seeking.np ∧
      (Instr.fVld9 2 0x07 (p1Body.drop 1 ++ [0xBE])).wf c0 = true ∧
      (0x07 : Byte) = crcOf id [0, 15, 2, 0x0A] ∧
      0x24 :: (p1Body.drop 1 ++ [0xBE]) = p1Body ++ [crcOf id p1Body] :=
  ⟨rfl, rfl, tid_read, by decide +kernel, ready_entries, by decide +kernel, by decide,
    by decide +kernel⟩

/-- A length of 0 with an optional byte (program P5). -/
theorem witness_BadLengthFrameIsUnsupported :
    seeking.mode = .run ∧ seeking.fsm = .seekSync ∧ TableIs seeking id ∧
      (Instr.fVld9BadLen ((0 : Byte) ++ (0 : Byte)) 1 0x0B [0x24]).wf c0 = true ∧
      (0x0B : Byte) = crcOf id [0, 0, 1, 0x0A] ∧ [0x24, 0x24] = [0x24] ++ [crcOf id [0x24]] :=
  ⟨rfl, rfl, tid_read, by decide, by decide, by decide⟩

theorem witness_OtherFramesAreIgnored :
    seeking.mode = .run ∧ seeking.fsm = .seekSync ∧ TableIs seeking id ∧
      [0x22, 0x22] = [0x22] ++ [crcOf id [0x22]] ∧
      (Instr.fRadioOther ((0 : Byte) ++ (1 : Byte)) 0 0x0B 0x22 [0x22]).wf c0 = true ∧
      (0x0B : Byte) = crcOf id [0, 1, 0, 0x0A] ∧
      (Instr.fOther ((0 : Byte) ++ (1 : Byte)) 0 0x01 0x00 0x22 [0x22]).wf c0 = true ∧
      (0x00 : Byte) = crcOf id [0, 1, 0, 0x01] :=
  ⟨rfl, rfl, tid_read, by decide, by decide, by decide, by decide, by decide⟩

theorem witness_RejectedFrameCostsSixBytes :
    seeking.mode = .run ∧ seeking.fsm = .seekSync ∧ TableIs seeking id ∧
      (Instr.fOther 1 0 0x01 0x55 0x08 [0x38]).fmt = .frame ∧
      encode c0 (.fOther 1 0 0x01 0x55 0x08 [0x38]) =
        0x55 :: 0x00 :: 0x01 :: 0x00 :: 0x01 :: 0x55 :: [0x08, 0x38] ∧
      (0x55 : Byte) ≠ crcOf id [0x00, 0x01, 0x00, 0x01] :=
  ⟨rfl, rfl, tid_read, rfl, by decide, by decide⟩

theorem witness_FrameEqualsItsBytes :
    seeking.mode = .run ∧ seeking.fsm = .seekSync ∧ TableIs seeking id ∧
      (Instr.fOther 1 0 0x01 0x00 0x08 [0x38]).wf c0 = true ∧
      encode c0 (.fOther 1 0 0x01 0x00 0x08 [0x38]) =
        0x55 :: 0x00 :: 0x01 :: 0x00 :: 0x01 :: crcOf id [0x00, 0x01, 0x00, 0x01] :: [0x08, 0x38] :=
  ⟨rfl, rfl, tid_read, by decide, by decide⟩

/-- The shortest and the longest frame. -/
theorem witness_FrameLengthBounds :
    (Instr.fOther 0 0 0 0 0 []).wf c0 = true ∧ (encode c0 (.fOther 0 0 0 0 0 [])).length = 7 ∧
      (Instr.fOther 129 0 0 0 0 (List.replicate 128 0)).wf c0 = true ∧
      (encode c0 (.fOther 129 0 0 0 0 (List.replicate 128 0))).length = 135 := by decide +kernel

theorem witness_DecodeOfEncodeIsTheInstruction :
    (Instr.cfgParamPush p0).wf c0 = true ∧ (Instr.fVld9 2 0x07 (p1Body.drop 1 ++ [0xBE])).wf c0 = true ∧
      (Instr.crc8 65535 65535 []).wf c0 = true := by decide +kernel

theorem witness_DecodedBytesAreTheEncoding :
    decode c0 .op [0x91] = some (.seekSync, []) ∧ decode c0 .byte [0x55] = some (.seekSync, []) := by
  decide

theorem witness_FrameClassFollowsTheTable : decode c0 .frame
    (0x55 :: 0x00 :: 0x0F :: 0x02 :: 0x0A :: 0x07 :: 0x24 :: (p1Body.drop 1 ++ [0xBE])) =
    some (.fVld9 0x02 0x07 (p1Body.drop 1 ++ [0xBE]), []) := by decide +kernel

/-- Between two attempts: a `BYTE`, a `START`, and the `READ_FRAME` for the next attempt. -/
def between : State := ready.setInput [⟨.event, [0x05, 0x22, 0x03, 0x04]⟩]

/-- The clauses: an empty queue; a queue in which nothing has a step; bytes that spell no input, behind
an event without a step; and, behind a byte that is held and an event that is ignored, an input that
has a step. -/
theorem witness_StepRunsTheDecodedInstruction :
    (ready.setInput []).input = [] ∧
      (∃ s, s = ready.setInput [⟨.event, [0x03]⟩] ∧ Passed s s.input [] []) ∧
      (∃ s, s = ready.setInput [⟨.event, [0x03, 0x07]⟩] ∧ Passed s s.input [] [⟨.event, [0x07]⟩] ∧
        ∀ i tail, ¬ NextIs s ⟨.event, [0x07]⟩ i tail) ∧
      Passed between between.input [⟨.event, [0x05, 0x22]⟩] [⟨.event, [0x04]⟩] ∧
        NextIs between ⟨.event, [0x04]⟩ .readFrame [] ∧
        sentByByteSource .event .readFrame = false ∧ exec .readFrame between ≠ .refused .noStep := by
  have hs : ∀ q, exec .start (ready.setInput q) = .refused .noStep := by
    intro q; simp [exec, execStart, noStep, ready]
  have hb : exec (.byte 0x22) between = .refused .noStep := by
    simp [exec, execByte, noStep, State.inAttempt, between, ready, loaded, State.reset]
  have hr : exec .readFrame between = .next between.beginAttempt := by
    simp [exec, execReadFrame, between, ready, loaded, State.reset]
  have hn : nextInput (ready.setInput [⟨.event, [0x03, 0x07]⟩]) ⟨.event, [0x07]⟩ = none := by
    decide +kernel
  refine ⟨rfl, ⟨_, rfl, ?_⟩, ⟨_, rfl, ?_, fun i tail h => (by cases hn.symm.trans (nextInput_eq_some.2 h))⟩,
    ?_, nextInput_eq_some.1 (by decide +kernel), rfl, by simp [hr]⟩
  · exact .ignored (i := .start) (tail := []) .start (nextInput_eq_some.1 (by decide +kernel)) (hs _)
      (by decide)
  · exact .ignored (i := .start) (tail := [0x07]) .start (nextInput_eq_some.1 (by decide +kernel))
      (hs _) (by decide)
  · have h1 : Passed between between.input [⟨.event, [0x05, 0x22]⟩] [⟨.event, [0x03, 0x04]⟩] :=
      .held (i := .byte 0x22) (used := [0x05, 0x22]) (tail := [0x03, 0x04]) .start
        (nextInput_eq_some.1 (by decide +kernel)) rfl fun _ => ⟨by decide, hb⟩
    exact .ignored (i := .start) (tail := [0x04]) h1 (nextInput_eq_some.1 (by decide +kernel)) (hs _)
      (by decide)

theorem witness_EveryStepKeepsTheInvariant : UnitInv (ready.setInput [⟨.event, [0x04]⟩]) ∧
    ∃ t, step (ready.setInput [⟨.event, [0x04]⟩]) = .next t := by
  have h : exec .readFrame (ready.setInput [⟨.event, [0x04]⟩]) =
      .next (ready.setInput [⟨.event, [0x04]⟩]).beginAttempt := by
    simp [exec, execReadFrame, ready, loaded, State.reset]
  have h0 : exec .readFrame (ready.setInput []) = .next (ready.setInput []).beginAttempt := by
    simp [exec, execReadFrame, ready, loaded, State.reset]
  refine ⟨ready_inv, (ready.setInput []).beginAttempt, ?_⟩
  rw [step, fetch_taken (b := ⟨.event, [0x04]⟩) (i := .readFrame) (tail := []) (q := []) .start
    (nextInput_eq_some.1 (by decide +kernel)) (by decide) (fun e => by cases h.symm.trans e)]
  exact h0

/-- An accepted frame; a sequence with inputs that have no step. -/
theorem witness_AcceptedEventsComplete : (UnitInv seeking ∧
    accepts seeking (.fVld9 2 0x07 (p1Body.drop 1 ++ [0xBE])) = true) ∧
    ∀ i ∈ [Instr.readFrame, .byte 0x55, .cfgParamPush p0, .reset],
      i.fmt ≠ .op ∧ i.wf seeking.params = true :=
  ⟨⟨seeking_inv, by decide +kernel⟩, by decide +kernel⟩

/-- Two states with one configuration and different pasts, and an attempt that ends. -/
theorem witness_NoCarryOverBetweenAttempts :
    SameConfig ready { ready with idx := 4, results := [.none], hcrc := some 0x55 } ∧
      ready.mode = .run ∧ ready.fsm = .idle ∧
      (∀ i ∈ [Instr.byte 0x55, .ioerr], fromByteSource i = true) ∧
      (after (runAll [.readFrame, .byte 0x55, .ioerr] ready)).map (·.results) =
        some [.frameSyncFailure .readHeader] := by
  refine ⟨by simp [SameConfig], rfl, rfl, ?_, by decide +kernel⟩
  intro i hi
  rcases List.mem_cons.1 hi with rfl | hi
  · rfl
  · rw [List.mem_singleton.1 hi]; rfl

theorem witness_ParametersAndQueueAreNotWritten : exec .reset ready = .next ready.toReset := rfl

end Sys2Proof.Tests
end

section
/-! Scope (00_scope.md), O60: what a step may do to the fields that are the model's own, `params`
and `input` (R9, R10, R39). Each compound step is inverted once, into the named updates of the state it
makes; that no update but `leaveBytes` writes the queue is then read off the updates. -/

namespace Sys2Proof.Proofs.Scope

open Sys2Proof Sys2Proof.Machine

variable {s t : State} {o : Out} {α : Type}

/-! ### What each compound step can answer -/

theorem hdrFields_cases {pl : BitVec 16} {ol : Byte} (h : hdrFields s = .ok (t, pl, ol)) :
    ∃ pt, t = s.setPtype pt := by
  simp only [hdrFields, bind_eq_ok, pure_ok, Except.ok.injEq, Prod.mk.injEq] at h
  obtain ⟨_, -, _, -, _, -, pt, -, ht, -⟩ := h
  exact ⟨pt, ht.symm⟩

/-- `HDR.CHECK` enters the body or rejects the header (R144). -/
theorem hdrCheck_cases {b : Byte} (h : hdrCheck b s = .ok t) :
    (∃ pt pl ol, t = bodyEnter (lenClamp pl ol ((s.setHcrc b).setPtype pt))) ∨
      ∃ hdr, t = (s.setHcrc b).rejectHeader hdr b := by
  simp only [hdrCheck, bind_eq_ok] at h
  obtain ⟨c, -, h⟩ := h
  split at h
  · simp only [bind_eq_ok, pure_ok, Except.ok.injEq, Prod.exists] at h
    obtain ⟨u, pl, ol, hu, rfl⟩ := h
    obtain ⟨pt, rfl⟩ := hdrFields_cases hu
    exact .inl ⟨pt, pl, ol, rfl⟩
  · simp only [bind_eq_ok, pure_ok, Except.ok.injEq] at h
    obtain ⟨hdr, -, rfl⟩ := h
    exact .inr ⟨hdr, rfl⟩

/-- `BODY.CHECK` only emits: the trace and the `Result` of the decode, or `InvalidDataCrc` (R149). -/
theorem bodyCheck_cases (h : bodyCheck s = .ok t) :
    (∃ x r, t = (s.emitTrace x).emitResult r) ∨ t = s.emitResult .invalidDataCrc := by
  simp only [bodyCheck, bind_eq_ok] at h
  obtain ⟨_, -, _, -, _, -, _, -, h⟩ := h
  split at h
  · simp only [bind_eq_ok, pure_ok, Except.ok.injEq] at h
    obtain ⟨_, -, _, -, _, -, _, -, r, -, rfl⟩ := h
    exact .inl ⟨_, r, rfl⟩
  · exact .inr (by simpa using h.symm)

/-- `BODY.STORE` counts the byte, or checks the body and ends the frame (R148). -/
theorem bodyStore_cases {b : Byte} (h : bodyStore b s = .ok t) :
    t = (s.writeBody s.idx.toNat b).incIdx ∨
      ∃ u, bodyCheck (s.writeBody s.idx.toNat b) = .ok u ∧ t = frameEnd u := by
  simp only [bodyStore, bind_eq_ok, storeBody_eq_ok] at h
  obtain ⟨_, -, _, ⟨-, rfl⟩, h⟩ := h
  split at h
  · exact .inl (by simpa using h.symm)
  · simp only [bind_eq_ok, pure_ok, Except.ok.injEq] at h
    obtain ⟨u, hu, rfl⟩ := h
    exact .inr ⟨u, hu, rfl⟩

/-- A test of the decoder run alone writes the port, and emits its `Result` if it has one. -/
theorem runTest_cases {v : Except Fault (Verdict α)} {port : α → PortValue}
    (h : runTest v port s = .ok t) :
    (∃ x, t = s.setPort x) ∨ ∃ r x, t = (s.emitResult r).setPort x := by
  simp only [runTest, bind_eq_ok] at h
  obtain ⟨verdict, -, h⟩ := h
  cases verdict with
  | go x => exact .inl ⟨port x, by simpa using h.symm⟩
  | ends r => exact .inr ⟨r, .decodeEnded, by simpa using h.symm⟩

/-! ### Parameters and queue kept -/

/-- The parameters and the input queue are the same in both states. -/
def KeepsLanes (s t : State) : Prop := t.params = s.params ∧ t.input = s.input

theorem hdrCheck_keepsLanes {b : Byte} (h : hdrCheck b s = .ok t) : KeepsLanes s t := by
  obtain ⟨pt, pl, ol, rfl⟩ | ⟨hdr, rfl⟩ := hdrCheck_cases h <;> exact ⟨rfl, rfl⟩

theorem bodyCheck_keepsLanes (h : bodyCheck s = .ok t) : KeepsLanes s t := by
  obtain ⟨x, r, rfl⟩ | rfl := bodyCheck_cases h <;> exact ⟨rfl, rfl⟩

theorem bodyStore_keepsLanes {b : Byte} (h : bodyStore b s = .ok t) : KeepsLanes s t := by
  obtain rfl | ⟨u, hu, rfl⟩ := bodyStore_cases h
  · exact ⟨rfl, rfl⟩
  · obtain ⟨hparams, hinput⟩ := bodyCheck_keepsLanes hu
    exact ⟨hparams, hinput⟩

theorem takeOutcome_keepsLanes (r : Result) (s : State) : KeepsLanes s (s.takeOutcome r) := by
  obtain h | h | h := takeOutcome_cases r s <;> rw [h] <;> exact ⟨rfl, rfl⟩

theorem runTest_keepsLanes {v : Except Fault (Verdict α)} {port : α → PortValue}
    (h : runTest v port s = .ok t) : KeepsLanes s t := by
  obtain ⟨x, rfl⟩ | ⟨r, x, rfl⟩ := runTest_cases h <;> exact ⟨rfl, rfl⟩

theorem byteStep_keepsLanes {b : Byte} (h : byteStep b s = .ok t) : KeepsLanes s t := by
  unfold byteStep at h
  split at h
  case h_1 => cases h; exact ⟨rfl, rfl⟩
  case h_2 => split at h <;> cases h <;> exact ⟨rfl, rfl⟩
  case h_3 =>
    split at h
    · cases h; exact ⟨rfl, rfl⟩
    · exact hdrCheck_keepsLanes h
  case h_4 => exact bodyStore_keepsLanes h

theorem leaveBytes_params (bs : List Byte) (s : State) : (s.leaveBytes bs).params = s.params := by
  unfold State.leaveBytes
  split <;> rfl

/-- A frame may put bytes back in the queue, but it does not write the parameters either. -/
theorem takeFrame_params {bs : List Byte} (h : takeFrame bs s = .ok t) : t.params = s.params := by
  induction bs generalizing s with
  | nil => cases h; rfl
  | cons b bs ih =>
    simp only [takeFrame, bind_eq_ok] at h
    obtain ⟨u, hu, h⟩ := h
    rw [← (byteStep_keepsLanes hu).1]
    split at h
    · exact ih h
    · cases h; exact leaveBytes_params bs u

/-! ### From the steps to the answers of instructions -/

/-- Every next state that the answer `o` gives keeps the parameters and the queue of `s`. -/
def OutKeepsLanes (s : State) (o : Out) : Prop := ∀ t, o = .next t → KeepsLanes s t

theorem outKeepsLanes_next (h : KeepsLanes s t) : OutKeepsLanes s (.next t) := by
  rintro _ ⟨⟩; exact h

theorem outKeepsLanes_guard {c : Prop} [Decidable c] (h : OutKeepsLanes s o) :
    OutKeepsLanes s (if c then o else noStep) := by
  split
  · exact h
  · exact fun t ht => absurd ht (noStep_ne_next t)

theorem outKeepsLanes_toOut {x : Except Fault State} (h : ∀ t, x = .ok t → KeepsLanes s t) :
    OutKeepsLanes s (toOut x) :=
  fun t ht => h t (toOut_eq_next.1 ht)

/-- An operation that computes a value, then puts it into the state by `g`. -/
theorem outKeepsLanes_bind {x : Except Fault α} {g : α → State} (h : ∀ a, KeepsLanes s (g a)) :
    OutKeepsLanes s (toOut (do let a ← x; pure (g a))) :=
  outKeepsLanes_toOut fun t ht => by
    obtain ⟨a, -, hg⟩ := bind_eq_ok.1 ht
    cases hg; exact h a

theorem execCrc8_keepsLanes (offset count : Nat) (data : List Byte) (s : State) :
    OutKeepsLanes s (execCrc8 offset count data s) := by
  unfold execCrc8
  split
  · exact outKeepsLanes_next ⟨rfl, rfl⟩
  · exact outKeepsLanes_next ⟨rfl, rfl⟩
  · rintro t ⟨⟩

theorem execHdrFields_keepsLanes (s : State) : OutKeepsLanes s (execHdrFields s) := by
  refine outKeepsLanes_guard (outKeepsLanes_toOut fun t ht => ?_)
  simp only [bind_eq_ok, pure_ok, Except.ok.injEq, Prod.exists] at ht
  obtain ⟨u, pl, ol, hu, rfl⟩ := ht
  obtain ⟨pt, rfl⟩ := hdrFields_cases hu
  exact ⟨rfl, rfl⟩

theorem execCfgParamPush_keepsLanes (e : Entry) (s : State) :
    OutKeepsLanes s (execCfgParamPush e s) := by
  refine outKeepsLanes_guard (outKeepsLanes_next ?_)
  split <;> exact ⟨rfl, rfl⟩

/-- The meaning of a frame is one for all four rows: its bytes are taken in `SEEK_SYNC` (R104). -/
theorem exec_frame {i : Instr} (hi : i.fmt = .frame) (s : State) :
    exec i s = if s.seeking then toOut (takeFrame (encode s.params i) s) else noStep := by
  cases i with
  | fVld9 ol hcrc rest => rfl
  | fVld9BadLen pl ol hcrc rest => rfl
  | fRadioOther pl ol hcrc g rest => rfl
  | fOther pl ol pt hcrc g rest => rfl
  | _ => cases hi

theorem exec_frame_params {i : Instr} (hi : i.fmt = .frame) (h : exec i s = .next t) :
    t.params = s.params := by
  rw [exec_frame hi] at h
  split at h
  · exact takeFrame_params (toOut_eq_next.1 h)
  · exact absurd h (noStep_ne_next t)

/-- Every instruction that is not a frame keeps the parameters and the queue. -/
theorem exec_keepsLanes {i : Instr} (hi : i.fmt ≠ .frame) (s : State) :
    OutKeepsLanes s (exec i s) := by
  cases i with
  | reset => exact outKeepsLanes_next ⟨rfl, rfl⟩
  | cfgCrcWrite k v => exact outKeepsLanes_guard (outKeepsLanes_next ⟨rfl, rfl⟩)
  | cfgParamPush e => exact execCfgParamPush_keepsLanes e s
  | start => exact outKeepsLanes_guard (outKeepsLanes_bind fun r => takeOutcome_keepsLanes r s)
  | readFrame => exact outKeepsLanes_guard (outKeepsLanes_next ⟨rfl, rfl⟩)
  | byte b => exact outKeepsLanes_guard (outKeepsLanes_toOut fun _ => byteStep_keepsLanes)
  | ioerr => exact outKeepsLanes_guard (outKeepsLanes_next (takeOutcome_keepsLanes _ s))
  | seekSync => exact outKeepsLanes_guard (outKeepsLanes_next ⟨rfl, rfl⟩)
  | seekSkip b => exact outKeepsLanes_guard (outKeepsLanes_next ⟨rfl, rfl⟩)
  | fVld9 ol hcrc rest => exact absurd rfl hi
  | fVld9BadLen pl ol hcrc rest => exact absurd rfl hi
  | fRadioOther pl ol hcrc g rest => exact absurd rfl hi
  | fOther pl ol pt hcrc g rest => exact absurd rfl hi
  | crc8 offset count data => exact execCrc8_keepsLanes offset count data s
  | hdrStore b => exact outKeepsLanes_guard (outKeepsLanes_next ⟨rfl, rfl⟩)
  | hdrCheck b => exact outKeepsLanes_guard (outKeepsLanes_toOut fun _ => hdrCheck_keepsLanes)
  | hdrFields => exact execHdrFields_keepsLanes s
  | lenClamp pl0 ol0 => exact outKeepsLanes_guard (outKeepsLanes_next ⟨rfl, rfl⟩)
  | bodyEnter => exact outKeepsLanes_guard (outKeepsLanes_next ⟨rfl, rfl⟩)
  | bodyStore b => exact outKeepsLanes_guard (outKeepsLanes_toOut fun _ => bodyStore_keepsLanes)
  | bodyCheck => exact outKeepsLanes_guard (outKeepsLanes_toOut fun _ => bodyCheck_keepsLanes)
  | frameEnd => exact outKeepsLanes_guard (outKeepsLanes_next ⟨rfl, rfl⟩)
  | tgDecode => exact outKeepsLanes_bind fun _ => ⟨rfl, rfl⟩
  | tgPtype => exact outKeepsLanes_toOut fun _ => runTest_keepsLanes
  | tgTtype => exact outKeepsLanes_toOut fun _ => runTest_keepsLanes
  | tgLguard => exact outKeepsLanes_toOut fun _ => runTest_keepsLanes
  | tgBitcat => exact outKeepsLanes_bind fun _ => ⟨rfl, rfl⟩
  | fdFields b => exact outKeepsLanes_bind fun _ => ⟨rfl, rfl⟩
  | fdExtract b off w => exact outKeepsLanes_next ⟨rfl, rfl⟩
  | fdSlope p => exact outKeepsLanes_bind fun _ => ⟨rfl, rfl⟩
  | fdOffset p => exact outKeepsLanes_bind fun _ => ⟨rfl, rfl⟩
  | fdScale raw slope offset => exact outKeepsLanes_next ⟨rfl, rfl⟩
  | fdEmit p value => exact outKeepsLanes_next ⟨rfl, rfl⟩
  | cfgCheck => exact outKeepsLanes_bind fun _ => ⟨rfl, rfl⟩

/-- Settles O60: a frame is its byte steps, which write no parameters; every other instruction is a
composition of state updates that keep parameters and queue. -/
theorem parametersAndQueueAreNotWritten : Obligations.ParametersAndQueueAreNotWritten := by
  intro s t i h
  by_cases hi : i.fmt = .frame
  · exact ⟨exec_frame_params hi h, fun hne => absurd hi hne⟩
  · obtain ⟨hparams, hinput⟩ := exec_keepsLanes hi s t h
    exact ⟨hparams, fun _ => hinput⟩

end Sys2Proof.Proofs.Scope
end

section
/-! Scope (00_scope.md), O49: a frame with a good header CRC is its `BYTE` events one after another (R2,
R90, R152). `takeFrame` and `runAll` make the same byte step; they can differ only where `takeFrame`
stops before its bytes are used up. A frame as long as its header says, behind a header that is
accepted, leaves `READ_HEADER` and `READ_BODY` with its last byte and not before. -/

namespace Sys2Proof.Proofs.Scope

open Sys2Proof Sys2Proof.Machine

variable {s t : State} {b h0 h1 h2 h3 : Byte} {bs : List Byte}

/-! ### The two ways to take bytes -/

/-- Taking the bytes as one frame and as `BYTE` events gives one answer. -/
def FrameAgrees (bs : List Byte) (s : State) : Prop :=
  toOut (takeFrame bs s) = runAll (bs.map Instr.byte) s

/-- An attempt is in progress: an event `BYTE` is its byte step (R140, R230). -/
theorem exec_byte (hm : s.mode = .run) (hf : s.fsm ≠ .idle) :
    exec (.byte b) s = toOut (byteStep b s) :=
  if_pos (by simp [State.inAttempt, hm, hf])

/-- The last byte: no byte is left that `takeFrame` could put back. -/
theorem frameAgrees_singleton (hm : s.mode = .run) (hf : s.fsm ≠ .idle) : FrameAgrees [b] s := by
  simp only [FrameAgrees, List.map_cons, List.map_nil, takeFrame, runAll, exec_byte hm hf]
  cases byteStep b s with
  | error e => rfl
  | ok t => simp [State.leaveBytes]

/-- A byte after which the unit is inside the frame. -/
theorem frameAgrees_cons (hm : s.mode = .run) (hf : s.fsm ≠ .idle) (hb : byteStep b s = .ok t)
    (ht : t.inFrame = true) (h : FrameAgrees bs t) : FrameAgrees (b :: bs) s := by
  simp only [FrameAgrees, List.map_cons, takeFrame, runAll, exec_byte hm hf, hb, ok_bind, toOut_ok,
    if_pos ht]
  exact h

/-! ### The header -/

@[simp] theorem seekSync_mode : (seekSync s).mode = s.mode := rfl
@[simp] theorem seekSync_fsm : (seekSync s).fsm = .readHeader := rfl
@[simp] theorem seekSync_idx : (seekSync s).idx = 0 := rfl
@[simp] theorem hdrStore_mode : (hdrStore b s).mode = s.mode := rfl
@[simp] theorem hdrStore_fsm : (hdrStore b s).fsm = s.fsm := rfl
@[simp] theorem hdrStore_idx : (hdrStore b s).idx = s.idx + 1 := rfl

@[simp] theorem withHeader_mode : (withHeader h0 h1 h2 h3 s).mode = s.mode := by simp [withHeader]

theorem byteStep_sync (hf : s.fsm = .seekSync) : byteStep Config.sync s = .ok (seekSync s) := by
  simp [byteStep, hf]

theorem byteStep_header (hf : s.fsm = .readHeader) (hi : s.idx.toNat < 4) :
    byteStep b s = .ok (hdrStore b s) := by
  simp [byteStep, hf, hi]

theorem byteStep_headerCrc (hf : s.fsm = .readHeader) (hi : s.idx = 4) :
    byteStep b s = hdrCheck b s := by
  simp [byteStep, hf, hi]

theorem byteStep_body (hf : s.fsm = .readBody) : byteStep b s = bodyStore b s := by
  simp [byteStep, hf]

theorem inFrame_of_readHeader (hf : s.fsm = .readHeader) : s.inFrame = true := by
  simp [State.inFrame, hf]

theorem inFrame_of_readBody (hf : s.fsm = .readBody) : s.inFrame = true := by
  simp [State.inFrame, hf]

/-- A header byte is stored, and the unit is still in the header (R143). -/
theorem frameAgrees_hdrStore (hm : s.mode = .run) (hf : s.fsm = .readHeader) (hi : s.idx.toNat < 4)
    (h : FrameAgrees bs (hdrStore b s)) : FrameAgrees (b :: bs) s :=
  frameAgrees_cons hm (by simp [hf]) (byteStep_header hf hi) (inFrame_of_readHeader hf) h

/-- The sync byte and the four header bytes (R142, R143). -/
theorem frameAgrees_header (hm : s.mode = .run) (hf : s.fsm = .seekSync)
    (h : FrameAgrees bs (withHeader h0 h1 h2 h3 s)) :
    FrameAgrees (Config.sync :: h0 :: h1 :: h2 :: h3 :: bs) s := by
  refine frameAgrees_cons hm (by simp [hf]) (byteStep_sync hf) (inFrame_of_readHeader (by simp)) ?_
  refine frameAgrees_hdrStore (by simp [hm]) (by simp) (by simp) ?_
  refine frameAgrees_hdrStore (by simp [hm]) (by simp) (by simp) ?_
  refine frameAgrees_hdrStore (by simp [hm]) (by simp) (by simp) ?_
  exact frameAgrees_hdrStore (by simp [hm]) (by simp) (by simp) h

/-! ### The body -/

/-- The unit is in the body of a frame and takes `n` more bytes, the data CRC byte counted (R148). -/
def BodyWants (s : State) (n : Nat) : Prop :=
  s.mode = .run ∧ s.fsm = .readBody ∧ ∃ pl ol, s.plen = some pl ∧ s.olen = some ol ∧
    pl.toNat + ol.toNat ≤ 128 ∧ s.idx.toNat + n = pl.toNat + ol.toNat + 1

/-- A body byte that is not the last one: one byte less is wanted (R148). -/
theorem bodyWants_byteStep {n : Nat} (h : BodyWants s (n + 2)) :
    ∃ t, byteStep b s = .ok t ∧ BodyWants t (n + 1) := by
  obtain ⟨hm, hf, pl, ol, hpl, hol, hle, hidx⟩ := h
  refine ⟨_, (byteStep_body hf).trans (bodyStore_more hf hpl hol hle (by omega)),
    hm, hf, pl, ol, hpl, hol, hle, ?_⟩
  have hsucc : (s.idx + 1).toNat = s.idx.toNat + 1 := by bv_omega
  rw [incIdx_idx, writeBody_idx, hsucc]
  omega

/-- As many bytes as the body wants. -/
theorem frameAgrees_body (h : BodyWants s (b :: bs).length) : FrameAgrees (b :: bs) s := by
  induction bs generalizing s b with
  | nil =>
    obtain ⟨hm, hf, -⟩ := h
    exact frameAgrees_singleton hm (by simp [hf])
  | cons c cs ih =>
    obtain ⟨t, hstep, hwants⟩ := bodyWants_byteStep (b := b) h
    have ⟨hm, hf, _⟩ := h
    have ⟨_, hf', _⟩ := hwants
    exact frameAgrees_cons hm (by simp [hf]) hstep (inFrame_of_readBody hf') (ih hwants)

/-! ### The lengths of a frame -/

theorem assembleLength_extractLsb' (pl : BitVec 16) :
    assembleLength (pl.extractLsb' 8 8) (pl.extractLsb' 0 8) = pl := by
  apply BitVec.eq_of_toNat_eq
  rw [toNat_assembleLength]
  simp only [BitVec.extractLsb'_toNat, Nat.shiftRight_eq_div_pow]
  omega

/-- Behind its header CRC byte a well-formed frame has the body its header announces, clamped, and the
data CRC byte (R90, R94, R95). -/
theorem length_body_of_encode {c : Config.Params} {i : Instr} (hi : i.fmt = .frame)
    (hwf : i.wf c = true) (he : encode c i = Config.sync :: h0 :: h1 :: h2 :: h3 :: b :: bs) :
    bs.length = bodyLength (assembleLength h0 h1).toNat h2.toNat + 1 := by
  have key : ∀ (pl : BitVec 16) (ol pt hcrc g : Byte) (rest : List Byte),
      frameBytes pl ol pt hcrc (g :: rest) = Config.sync :: h0 :: h1 :: h2 :: h3 :: b :: bs →
      bodyFits pl ol rest = true →
      bs.length = bodyLength (assembleLength h0 h1).toNat h2.toNat + 1 := by
    intro pl ol pt hcrc g rest hbytes hfits
    simp only [frameBytes, List.cons.injEq] at hbytes
    obtain ⟨-, rfl, rfl, rfl, -, -, rfl⟩ := hbytes
    rw [assembleLength_extractLsb', List.length_cons, of_decide_eq_true hfits]
  cases i with
  | fVld9 ol hcrc rest => exact key _ _ _ _ _ _ he hwf
  | fVld9BadLen pl ol hcrc rest => exact key _ _ _ _ _ _ he (Bool.and_eq_true_iff.1 hwf).2
  | fRadioOther pl ol hcrc g rest => exact key _ _ _ _ _ _ he (Bool.and_eq_true_iff.1 hwf).2
  | fOther pl ol pt hcrc g rest => exact key _ _ _ _ _ _ he (Bool.and_eq_true_iff.1 hwf).2
  | _ => cases hi

theorem toNat_clampPlen (pl0 : Nat) : (BitVec.ofNat 16 (clampPlen pl0)).toNat = clampPlen pl0 := by
  have := clampPlen_le pl0
  rw [BitVec.toNat_ofNat, Nat.mod_eq_of_lt (by omega)]

theorem toNat_clampOlen (pl0 : Nat) (ol0 : Byte) :
    (BitVec.ofNat 8 (clampOlen pl0 ol0.toNat)).toNat = clampOlen pl0 ol0.toNat := by
  have := bodyLength_le pl0 ol0.toNat
  rw [bodyLength] at this
  rw [BitVec.toNat_ofNat, Nat.mod_eq_of_lt (by omega)]

/-- After `LEN.CLAMP` and `BODY.ENTER` the unit wants the clamped lengths and the data CRC byte (R146,
R147). -/
theorem bodyWants_bodyEnter (hm : s.mode = .run) (pl0 : BitVec 16) (ol0 : Byte) :
    BodyWants (bodyEnter (lenClamp pl0 ol0 s)) (bodyLength pl0.toNat ol0.toNat + 1) := by
  have hle := bodyLength_le pl0.toNat ol0.toNat
  refine ⟨hm, rfl, _, _, rfl, rfl, ?_, ?_⟩
  · rw [toNat_clampPlen, toNat_clampOlen]; exact hle
  · rw [toNat_clampPlen, toNat_clampOlen]; exact Nat.zero_add _

/-! ### The frame -/

/-- A frame behind a good header CRC, with as many bytes as its header announces. -/
theorem frameAgrees_good {f : Byte → Byte} (hm : s.mode = .run) (hf : s.fsm = .seekSync)
    (ht : TableIs s f) (hlen : bs.length = bodyLength (assembleLength h0 h1).toNat h2.toNat + 1) :
    FrameAgrees (Config.sync :: h0 :: h1 :: h2 :: h3 :: crcOf f [h0, h1, h2, h3] :: bs) s := by
  have htable : TableIs (withHeader h0 h1 h2 h3 s) f := by simpa [TableIs] using ht
  have hcheck := (byteStep_headerCrc (by simp) (by simp)).trans
    (hdrCheck_good htable (by simp) withHeader_is)
  refine frameAgrees_header hm hf ?_
  refine frameAgrees_cons (by simp [hm]) (by simp) hcheck (inFrame_of_readBody rfl) ?_
  obtain ⟨b, bs, rfl⟩ := List.exists_cons_of_length_eq_add_one hlen
  refine frameAgrees_body ?_
  rw [hlen]
  exact bodyWants_bodyEnter (by simp [hm]) _ _

/-- Settles O49: the header is accepted, so the frame and its `BYTE` events go through the same byte
steps up to the last byte, which both answer alike. -/
theorem frameEqualsItsBytes : Obligations.FrameEqualsItsBytes := by
  intro s f i h0 h1 h2 h3 rest hm hf ht hi hwf he
  have hseeking : s.seeking = true := by simp [State.seeking, hm, hf]
  rw [exec_frame hi, if_pos hseeking, he]
  exact frameAgrees_good hm hf ht (length_body_of_encode hi hwf he)

end Sys2Proof.Proofs.Scope
end

section
/-! State (10_state.md), O1 and O57, and the first half of O56: the invariant of R43 at reset, and one rule
for each update that the units make. An update of the outputs, the port or the queue is not seen by the
invariant at all, so the rules are about the writes of the configuration and the steps of the sequencer. -/

namespace Sys2Proof.Proofs.Invariant

open Sys2Proof Sys2Proof.Machine

variable {s : State} {b : Byte}

/-! ### Reset -/

/-- Settles O1: each register of `State.reset` is the table's entry, and an empty array reads nothing. -/
theorem resetStateHasTheSpecValues : Obligations.ResetStateHasTheSpecValues :=
  ⟨rfl, rfl, rfl, fun _ => BitVec.getLsbD_zero, rfl, rfl, Memory.read_nil, Memory.read_nil,
    Memory.read_nil, rfl, rfl, rfl, rfl, Memory.read_nil, rfl, rfl⟩

/-- Empty arrays hold nothing, the unit is in `IDLE` and not in `RUN`: every clause has nothing to ask. -/
theorem unitInv_toReset (s : State) : UnitInv s.toReset := by
  obtain ⟨htwf, hpwf, hhdrwf, hbodywf⟩ := reset_memory_wf
  refine ⟨⟨htwf, hpwf, hhdrwf, hbodywf, fun i => ?_, fun k => ?_, nofun, Nat.zero_le _, nofun, nofun⟩,
    ⟨nofun, nofun⟩, ⟨nofun, nofun⟩, fun _ => rfl, nofun⟩
  · simp [State.reset]
  · simp [State.reset]

/-- Settles O57: the reset state is what `RESET` makes of itself. -/
theorem resetSatisfiesTheInvariant : Obligations.ResetSatisfiesTheInvariant :=
  unitInv_toReset State.reset

/-! ### Storage -/

theorem isSome_read_write {α : Type} (m : Memory α) (i j : Nat) (v : α) :
    ((m.write i v).read j).isSome = (decide (j = i) || (m.read j).isSome) := by
  rw [Memory.read_write]
  by_cases h : j = i <;> simp [h]

/-- `T[i]` and its mark are written together (R22, R231). -/
theorem storageInv_writeCrc (h : StorageInv s) (i v : Byte) : StorageInv (s.writeCrc i v) := by
  obtain ⟨htwf, hpwf, hhdrwf, hbodywf, ht, hp, hfits, hnp, hhdr, hbody⟩ := h
  refine ⟨Memory.wf_write _ _ _ htwf, hpwf, hhdrwf, hbodywf, fun j => ?_, hp, hfits, hnp, hhdr, hbody⟩
  rw [writeCrc_t, writeCrc_tw, isSome_read_write, ht, getLsbD_setWritten]
  by_cases hj : j = i.toNat
  · have : j < 256 := hj ▸ i.isLt
    simp [hj ▸ this, hj]
  · simp [hj]

/-- An entry is appended where there is room for it (R23, R24, R232). -/
theorem storageInv_pushEntry {e : Entry} (h : StorageInv s) (hroom : s.np < s.params.maxFields)
    (he : e.fits s.params = true) : StorageInv (s.pushEntry e) := by
  obtain ⟨htwf, hpwf, hhdrwf, hbodywf, ht, hp, hfits, hnp, hhdr, hbody⟩ := h
  refine ⟨htwf, Memory.wf_write _ _ _ hpwf, hhdrwf, hbodywf, ht, fun k => ?_, fun k p hk => ?_, hroom,
    hhdr, hbody⟩
  · rw [pushEntry_p, pushEntry_np, isSome_read_write, hp, ← Bool.decide_or, decide_eq_decide]
    omega
  · rw [pushEntry_p, Memory.read_write] at hk
    split at hk
    · cases hk; exact he
    · exact hfits k p hk

/-- A write inside a space keeps the array inside it (R60). -/
theorem lt_of_isSome_read_write {α : Type} {m : Memory α} {n i : Nat} {v : α}
    (h : ∀ j, (m.read j).isSome = true → j < n) (hi : i < n) (j : Nat)
    (hj : ((m.write i v).read j).isSome = true) : j < n := by
  rw [isSome_read_write, Bool.or_eq_true, decide_eq_true_eq] at hj
  obtain rfl | hj := hj
  · exact hi
  · exact h j hj

theorem storageInv_writeHdr (h : StorageInv s) {i : Nat} (hi : i < 4) :
    StorageInv (s.writeHdr i b) := by
  obtain ⟨htwf, hpwf, hhdrwf, hbodywf, ht, hp, hfits, hnp, hhdr, hbody⟩ := h
  exact ⟨htwf, hpwf, Memory.wf_write _ _ _ hhdrwf, hbodywf, ht, hp, hfits, hnp,
    lt_of_isSome_read_write hhdr hi, hbody⟩

theorem storageInv_writeBody (h : StorageInv s) {i : Nat} (hi : i < 129) :
    StorageInv (s.writeBody i b) := by
  obtain ⟨htwf, hpwf, hhdrwf, hbodywf, ht, hp, hfits, hnp, hhdr, hbody⟩ := h
  exact ⟨htwf, hpwf, hhdrwf, Memory.wf_write _ _ _ hbodywf, ht, hp, hfits, hnp, hhdr,
    lt_of_isSome_read_write hbody hi⟩

theorem storageInv_dropFrame (h : StorageInv s) : StorageInv s.dropFrame := by
  obtain ⟨htwf, hpwf, -, -, ht, hp, hfits, hnp, -, -⟩ := h
  exact ⟨htwf, hpwf, rfl, rfl, ht, hp, hfits, hnp, nofun, nofun⟩

/-! ### Lengths -/

theorem lengthInv_lenClamp (pl0 : BitVec 16) (ol0 : Byte) (s : State) :
    LengthInv (lenClamp pl0 ol0 s) := by
  obtain ⟨hpl, hsum⟩ := (clampedTo_clamp pl0 ol0).le
  exact ⟨by rintro _ ⟨⟩; exact hpl, by rintro _ _ ⟨⟩ ⟨⟩; exact hsum⟩

/-! ### Mode and sequencer -/

/-- In `IDLE` and in `SEEK_SYNC` nothing is promised of the frame data registers. -/
theorem sequencerInv_of_not_inFrame (hh : s.fsm ≠ .readHeader) (hb : s.fsm ≠ .readBody) :
    SequencerInv s :=
  ⟨fun h => absurd h hh, fun h => absurd h hb⟩

/-- In `READ_HEADER` the header bytes before `IDX` are promised, and nothing else (R43 (c)). -/
theorem sequencerInv_of_readHeader (hf : s.fsm = .readHeader) (hidx : s.idx.toNat ≤ 4)
    (hstored : ∀ i, i < s.idx.toNat → (s.hdr.read i).isSome = true) : SequencerInv s :=
  ⟨fun _ => ⟨hidx, hstored⟩, fun hbody => absurd (hf.symm.trans hbody) nofun⟩

theorem modeInv_of_run (hm : s.mode = .run) (hgood : ConfigGood s) : ModeInv s :=
  ⟨fun h => absurd hm h, fun _ => hgood⟩

theorem modeInv_of_idle (hf : s.fsm = .idle) (hm : s.mode ≠ .run) : ModeInv s :=
  ⟨fun _ => hf, fun h => absurd h hm⟩

/-- An attempt is in progress only in `RUN`, with a configuration that was checked (R43 (a), (b)). -/
theorem run_of_fsm_ne_idle (h : UnitInv s) (hf : s.fsm ≠ .idle) : s.mode = .run ∧ ConfigGood s := by
  obtain ⟨-, -, -, hidle, hgood⟩ := h
  have hm : s.mode = .run := by_contra fun hm => hf (hidle hm)
  exact ⟨hm, hgood hm⟩

theorem idle_of_mode_ne_run (h : UnitInv s) (hm : s.mode ≠ .run) : s.fsm = .idle := by
  obtain ⟨-, -, -, hidle, -⟩ := h
  exact hidle hm

/-! ### Configuration -/

theorem unitInv_writeCrc (h : UnitInv s) (hm : s.mode = .unconfigured) (i v : Byte) :
    UnitInv (s.writeCrc i v) := by
  have hne : s.mode ≠ .run := by simp [hm]
  have hf := idle_of_mode_ne_run h hne
  obtain ⟨hstorage, hlength, -, -⟩ := h
  exact ⟨storageInv_writeCrc hstorage i v, hlength,
    sequencerInv_of_not_inFrame (by simp [hf]) (by simp [hf]), modeInv_of_idle hf hne⟩

theorem unitInv_pushEntry {e : Entry} (h : UnitInv s) (hm : s.mode = .unconfigured)
    (hroom : s.np < s.params.maxFields) (he : e.fits s.params = true) : UnitInv (s.pushEntry e) := by
  have hne : s.mode ≠ .run := by simp [hm]
  have hf := idle_of_mode_ne_run h hne
  obtain ⟨hstorage, hlength, hseq, -⟩ := h
  exact ⟨storageInv_pushEntry hstorage hroom he, hlength, hseq, modeInv_of_idle hf hne⟩

theorem unitInv_setOverflow (h : UnitInv s) (hm : s.mode = .unconfigured) : UnitInv s.setOverflow := by
  have hne : s.mode ≠ .run := by simp [hm]
  have hf := idle_of_mode_ne_run h hne
  obtain ⟨hstorage, hlength, hseq, -⟩ := h
  exact ⟨hstorage, hlength, hseq, modeInv_of_idle hf hne⟩

theorem unitInv_setMode_halted (h : UnitInv s) (hf : s.fsm = .idle) : UnitInv (s.setMode .halted) := by
  obtain ⟨hstorage, hlength, hseq, -⟩ := h
  exact ⟨hstorage, hlength, hseq, modeInv_of_idle hf nofun⟩

theorem unitInv_setMode_run (h : UnitInv s) (hgood : ConfigGood s) : UnitInv (s.setMode .run) := by
  obtain ⟨hstorage, hlength, hseq, -⟩ := h
  exact ⟨hstorage, hlength, hseq, modeInv_of_run rfl hgood⟩

/-- What `CFG.CHECK` answers is the verdict of R235, since some verdict holds of every configuration. -/
theorem configVerdict_of_cfgCheck {r : Result} (h : StorageInv s) (hr : cfgCheck s = .ok r) :
    ConfigVerdict s r := by
  obtain ⟨-, -, -, -, -, hp, -, hnp, -, -⟩ := h
  obtain ⟨r', hv⟩ := exists_verdict (s := s) fun k hk => by simp [hp, hk]
  cases hr.symm.trans (cfgCheck_of_verdict hnp hv)
  exact hv

/-- `START` goes to `RUN` with a good configuration only (R234, R43 (b)). -/
theorem unitInv_takeOutcome_of_verdict {r : Result} (h : UnitInv s) (hf : s.fsm = .idle)
    (hv : ConfigVerdict s r) : UnitInv (s.takeOutcome r) := by
  cases r with
  | cfgOk n =>
    obtain ⟨hgood, -⟩ := hv
    exact unitInv_setMode_run (s := s.emitResult _) h hgood
  | crcTableMissing i => exact unitInv_setMode_halted (s := s.emitResult _) h hf
  | paramMalformed k => exact unitInv_setMode_halted (s := s.emitResult _) h hf
  | divisionByZero k => exact unitInv_setMode_halted (s := s.emitResult _) h hf
  | _ => exact hv.elim

/-! ### Begin and end of an attempt -/

theorem unitInv_setFsm_idle (h : UnitInv s) : UnitInv (s.setFsm .idle) := by
  obtain ⟨hstorage, hlength, -, -, hgood⟩ := h
  exact ⟨hstorage, hlength, sequencerInv_of_not_inFrame nofun nofun, fun _ => rfl, hgood⟩

theorem unitInv_setFsm_seekSync (h : UnitInv s) (hm : s.mode = .run) : UnitInv (s.setFsm .seekSync) := by
  obtain ⟨hstorage, hlength, -, -, hgood⟩ := h
  exact ⟨hstorage, hlength, sequencerInv_of_not_inFrame nofun nofun, modeInv_of_run hm (hgood hm)⟩

theorem unitInv_beginAttempt (h : UnitInv s) (hm : s.mode = .run) : UnitInv s.beginAttempt := by
  obtain ⟨hstorage, -, -, -, hgood⟩ := h
  exact ⟨storageInv_dropFrame (s := s) hstorage, ⟨nofun, nofun⟩, sequencerInv_of_not_inFrame nofun nofun,
    modeInv_of_run hm (hgood hm)⟩

/-! ### The header -/

/-- `SEEK.SYNC`: no header byte is promised at `IDX = 0` (R142). -/
theorem unitInv_seekSync (h : UnitInv s) (hf : s.fsm = .seekSync) : UnitInv (seekSync s) := by
  obtain ⟨hm, hgood⟩ := run_of_fsm_ne_idle h (by simp [hf])
  obtain ⟨hstorage, hlength, -, -⟩ := h
  exact ⟨hstorage, hlength,
    sequencerInv_of_readHeader rfl (Nat.zero_le 4) fun i hi => absurd hi (Nat.not_lt_zero i),
    modeInv_of_run hm hgood⟩

/-- `HDR.STORE`: the byte counted is the byte stored (R143). -/
theorem unitInv_hdrStore (h : UnitInv s) (hf : s.fsm = .readHeader) (hi : s.idx.toNat < 4) :
    UnitInv (hdrStore b s) := by
  obtain ⟨hm, hgood⟩ := run_of_fsm_ne_idle h (by simp [hf])
  obtain ⟨hstorage, hlength, ⟨hheader, -⟩, -⟩ := h
  obtain ⟨-, hstored⟩ := hheader hf
  have hidx : (hdrStore b s).idx.toNat = s.idx.toNat + 1 := by
    simp only [hdrStore, incIdx_idx, writeHdr_idx]
    bv_omega
  refine ⟨storageInv_writeHdr hstorage hi, hlength,
    sequencerInv_of_readHeader hf (by omega) fun i hlt => ?_, modeInv_of_run hm hgood⟩
  rw [hidx] at hlt
  rw [hdrStore, incIdx_hdr, writeHdr_hdr, isSome_read_write, Bool.or_eq_true, decide_eq_true_eq]
  obtain hlt | heq := Nat.lt_succ_iff_lt_or_eq.1 hlt
  · exact .inr (hstored i hlt)
  · exact .inl heq

theorem unitInv_setHcrc (h : UnitInv s) (hf : s.fsm = .readHeader) : UnitInv (s.setHcrc b) := by
  obtain ⟨hstorage, hlength, ⟨hheader, -⟩, hmode⟩ := h
  obtain ⟨hidx, hstored⟩ := hheader hf
  exact ⟨hstorage, hlength, sequencerInv_of_readHeader hf hidx hstored, hmode⟩

theorem unitInv_setPtype (h : UnitInv s) (hf : s.fsm = .readHeader) : UnitInv (s.setPtype b) := by
  obtain ⟨hstorage, hlength, ⟨hheader, -⟩, hmode⟩ := h
  obtain ⟨hidx, hstored⟩ := hheader hf
  exact ⟨hstorage, hlength, sequencerInv_of_readHeader hf hidx hstored, hmode⟩

theorem unitInv_lenClamp (h : UnitInv s) (hf : s.fsm = .readHeader) (pl0 : BitVec 16) (ol0 : Byte) :
    UnitInv (lenClamp pl0 ol0 s) := by
  obtain ⟨hstorage, -, ⟨hheader, -⟩, hmode⟩ := h
  obtain ⟨hidx, hstored⟩ := hheader hf
  exact ⟨hstorage, lengthInv_lenClamp pl0 ol0 s, sequencerInv_of_readHeader hf hidx hstored, hmode⟩

/-- The CRC of the header depends on `HDR` and `T`, and on `FSM` only in `IDLE` (R34, R144). -/
theorem headerCrc_bodyEnter (hf : s.fsm ≠ .idle) : headerCrc (bodyEnter s) = headerCrc s := by
  have hread : (bodyEnter s).readHdr = s.readHdr := by
    funext i
    simp [State.readHdr, State.live, bodyEnter, hf]
  simp only [headerCrc, State.readHeader, hread]
  rfl

/-- `BODY.ENTER` behind an accepted header, with its fields written (R147): what R43 (d) promises. -/
theorem unitInv_bodyEnter (h : UnitInv s) (hf : s.fsm = .readHeader) (hi : 4 ≤ s.idx.toNat)
    (hcrc : ∃ c, headerCrc s = .ok c ∧ s.hcrc = some c) (hpt : s.ptype.isSome = true)
    (hpl : s.plen.isSome = true) (hol : s.olen.isSome = true) : UnitInv (bodyEnter s) := by
  have hne : s.fsm ≠ .idle := by simp [hf]
  obtain ⟨hm, hgood⟩ := run_of_fsm_ne_idle h hne
  obtain ⟨hstorage, hlength, ⟨hheader, -⟩, -⟩ := h
  obtain ⟨-, hstored⟩ := hheader hf
  obtain ⟨c, hc, hhcrc⟩ := hcrc
  obtain ⟨pt, hpt⟩ := Option.isSome_iff_exists.1 hpt
  obtain ⟨pl, hpl⟩ := Option.isSome_iff_exists.1 hpl
  obtain ⟨ol, hol⟩ := Option.isSome_iff_exists.1 hol
  refine ⟨hstorage, hlength, ⟨nofun, fun _ => ?_⟩, modeInv_of_run hm hgood⟩
  exact ⟨pl, ol, pt, c, hpl, hol, hpt, hhcrc, (headerCrc_bodyEnter hne).trans hc, Nat.zero_le _,
    fun i hlt => hstored i (by omega), fun i hlt => absurd hlt (Nat.not_lt_zero i)⟩

/-! ### The body -/

/-- Storing a byte inside `BODY` takes nothing away that is promised. -/
theorem unitInv_writeBody (h : UnitInv s) {i : Nat} (hi : i < 129) : UnitInv (s.writeBody i b) := by
  obtain ⟨hstorage, hlength, ⟨hheader, hbody⟩, hmode⟩ := h
  refine ⟨storageInv_writeBody hstorage hi, hlength, ⟨hheader, fun hf => ?_⟩, hmode⟩
  obtain ⟨pl, ol, pt, hc, hpl, hol, hpt, hhc, hcrc, hidx, hhdr, hstored⟩ := hbody hf
  refine ⟨pl, ol, pt, hc, hpl, hol, hpt, hhc, hcrc, hidx, hhdr, fun j hj => ?_⟩
  rw [writeBody_body, isSome_read_write, Bool.or_eq_true]
  exact .inr (hstored j hj)

/-- Counting a body byte that is stored and is not the last one (R148). -/
theorem unitInv_incIdx (h : UnitInv s) (hf : s.fsm = .readBody)
    (hmore : ∀ pl ol, s.plen = some pl → s.olen = some ol → s.idx.toNat < pl.toNat + ol.toNat)
    (hlast : (s.body.read s.idx.toNat).isSome = true) : UnitInv s.incIdx := by
  obtain ⟨hstorage, ⟨hle, hsum⟩, ⟨hheader, hbody⟩, hmode⟩ := h
  obtain ⟨pl, ol, pt, hc, hpl, hol, hpt, hhc, hcrc, -, hhdr, hstored⟩ := hbody hf
  have hlt := hmore pl ol hpl hol
  have hmax := hsum pl ol hpl hol
  have hidx : s.incIdx.idx.toNat = s.idx.toNat + 1 := by
    rw [incIdx_idx]
    bv_omega
  refine ⟨hstorage, ⟨hle, hsum⟩, ⟨fun hh => absurd (hf.symm.trans hh) nofun, fun _ => ?_⟩, hmode⟩
  refine ⟨pl, ol, pt, hc, hpl, hol, hpt, hhc, hcrc, by omega, hhdr, fun j hj => ?_⟩
  obtain hj | rfl := Nat.lt_succ_iff_lt_or_eq.1 (hidx ▸ hj)
  · exact hstored j hj
  · exact hlast

end Sys2Proof.Proofs.Invariant
end

section
/-! State (10_state.md), O56: every step keeps the invariant of R43. Each compound step of the Frame
Synchronizer is put together from the rules of its updates; a frame is its byte steps; and what `step`
takes from the queue is an instruction whose entry, if it has one, has the unit's widths (R24). -/

namespace Sys2Proof.Proofs.Invariant

open Sys2Proof Sys2Proof.Machine
open Sys2Proof.Proofs.Scope (hdrFields_cases hdrCheck_cases bodyCheck_cases runTest_cases exec_frame)

variable {s t : State} {b : Byte} {o : Out}

/-! ### The compound steps -/

/-- Only a header whose CRC is the byte received enters the body (R144). -/
theorem headerCrc_of_hdrCheck (h : hdrCheck b s = .ok t) (ht : t.fsm = .readBody) :
    headerCrc (s.setHcrc b) = .ok b := by
  simp only [hdrCheck, bind_eq_ok] at h
  obtain ⟨c, hc, h⟩ := h
  split at h
  next hcb => exact hcb ▸ hc
  next =>
    simp only [bind_eq_ok, pure_ok, Except.ok.injEq] at h
    obtain ⟨hdr, -, rfl⟩ := h
    exact absurd ht nofun

theorem hdrCheck_keepsInv (hs : UnitInv s) (hf : s.fsm = .readHeader) (hi : 4 ≤ s.idx.toNat)
    (h : hdrCheck b s = .ok t) : UnitInv t := by
  have hheld : UnitInv (s.setHcrc b) := unitInv_setHcrc hs hf
  obtain ⟨pt, pl, ol, rfl⟩ | ⟨hdr, rfl⟩ := hdrCheck_cases h
  · exact unitInv_bodyEnter (unitInv_lenClamp (unitInv_setPtype hheld hf) hf pl ol) hf hi
      ⟨b, headerCrc_of_hdrCheck (s := s) h rfl, rfl⟩ rfl rfl rfl
  · obtain ⟨hm, -⟩ := run_of_fsm_ne_idle hs (by simp [hf])
    exact unitInv_setFsm_seekSync (s := (s.setHcrc b).emitTrace _) hheld hm

theorem bodyCheck_keepsInv (hs : UnitInv s) (h : bodyCheck s = .ok t) : UnitInv t := by
  obtain ⟨x, r, rfl⟩ | rfl := bodyCheck_cases h
  · exact hs
  · exact hs

/-- Before the last body byte `IDX` is below `PLEN + OLEN`, so that the next index is promised too; the
last byte ends the attempt (R148 to R150). -/
theorem bodyStore_keepsInv (hs : UnitInv s) (hf : s.fsm = .readBody) (h : bodyStore b s = .ok t) :
    UnitInv t := by
  have ⟨_, ⟨_, hsum⟩, ⟨_, hbody⟩, _⟩ := hs
  obtain ⟨pl, ol, -, -, hpl, hol, -, -, -, hidx, -, -⟩ := hbody hf
  have hmax := hsum pl ol hpl hol
  have hstored : UnitInv (s.writeBody s.idx.toNat b) := unitInv_writeBody hs (by omega)
  obtain hlt | heq := Nat.lt_or_eq_of_le hidx
  · cases (bodyStore_more hf hpl hol hmax hlt).symm.trans h
    refine unitInv_incIdx hstored hf (fun pl' ol' hpl' hol' => ?_) ?_
    · cases hpl.symm.trans hpl'
      cases hol.symm.trans hol'
      exact hlt
    · simp [isSome_read_write]
  · rw [bodyStore_last hf hpl hol hmax heq] at h
    obtain ⟨u, hu, h⟩ := bind_eq_ok.1 h
    cases h
    exact unitInv_setFsm_idle (bodyCheck_keepsInv hstored hu)

theorem byteStep_keepsInv (hs : UnitInv s) (h : byteStep b s = .ok t) : UnitInv t := by
  unfold byteStep at h
  split at h
  case h_1 => cases h; exact hs
  case h_2 hf =>
    split at h
    · cases h; exact hs
    · cases h; exact unitInv_seekSync hs hf
  case h_3 hf =>
    split at h
    next hi => cases h; exact unitInv_hdrStore hs hf hi
    next hi => exact hdrCheck_keepsInv hs hf (Nat.le_of_not_lt hi) h
  case h_4 hf => exact bodyStore_keepsInv hs hf h

/-- A frame is its byte steps; the bytes put back are in the queue only. -/
theorem takeFrame_keepsInv {bs : List Byte} (hs : UnitInv s) (h : takeFrame bs s = .ok t) :
    UnitInv t := by
  induction bs generalizing s with
  | nil => cases h; exact hs
  | cons b bs ih =>
    obtain ⟨u, hu, h⟩ := bind_eq_ok.1 h
    have hinv := byteStep_keepsInv hs hu
    split at h
    · exact ih hinv h
    · cases h
      unfold State.leaveBytes
      split
      · exact hinv
      · exact hinv

/-! ### From the steps to the answers of instructions -/

/-- Every next state that the answer `o` gives keeps the invariant. -/
def OutKeepsInv (o : Out) : Prop := ∀ t, o = .next t → UnitInv t

theorem outKeepsInv_next (h : UnitInv t) : OutKeepsInv (.next t) := by
  rintro _ ⟨⟩; exact h

/-- An instruction with a condition has its answer only where the condition holds. -/
theorem outKeepsInv_guard {c : Prop} [Decidable c] (h : c → OutKeepsInv o) :
    OutKeepsInv (if c then o else noStep) := by
  split
  next hc => exact h hc
  next => exact fun t ht => absurd ht (noStep_ne_next t)

theorem outKeepsInv_toOut {x : Except Fault State} (h : ∀ t, x = .ok t → UnitInv t) :
    OutKeepsInv (toOut x) :=
  fun t ht => h t (toOut_eq_next.1 ht)

/-- An operation that computes a value, then puts it into the state by `g`. -/
theorem outKeepsInv_bind {α : Type} {x : Except Fault α} {g : α → State}
    (h : ∀ a, x = .ok a → UnitInv (g a)) : OutKeepsInv (toOut (do let a ← x; pure (g a))) :=
  outKeepsInv_toOut fun t ht => by
    obtain ⟨a, ha, hg⟩ := bind_eq_ok.1 ht
    cases hg; exact h a ha

/-- A test of the decoder run alone writes outputs and the port only. -/
theorem outKeepsInv_runTest {α : Type} {v : Except Fault (Verdict α)} {port : α → PortValue}
    (hs : UnitInv s) : OutKeepsInv (toOut (runTest v port s)) :=
  outKeepsInv_toOut fun t ht => by
    obtain ⟨x, rfl⟩ | ⟨r, x, rfl⟩ := runTest_cases ht
    · exact hs
    · exact hs

theorem headerAccepted_iff : s.headerAccepted = true ↔
    s.fsm = .readHeader ∧ s.idx.toNat = 4 ∧ ∃ c, headerCrc s = .ok c ∧ s.hcrc = some c := by
  unfold State.headerAccepted
  cases headerCrc s <;> simp [and_assoc]

theorem execCrc8_keepsInv (hs : UnitInv s) (offset count : Nat) (data : List Byte) :
    OutKeepsInv (execCrc8 offset count data s) := by
  unfold execCrc8
  split
  · exact outKeepsInv_next hs
  · exact outKeepsInv_next hs
  · rintro t ⟨⟩

theorem execHdrFields_keepsInv (hs : UnitInv s) : OutKeepsInv (execHdrFields s) := by
  refine outKeepsInv_guard fun hacc => outKeepsInv_toOut fun t ht => ?_
  obtain ⟨hf, -, -⟩ := headerAccepted_iff.1 hacc
  simp only [bind_eq_ok, pure_ok, Except.ok.injEq, Prod.exists] at ht
  obtain ⟨u, pl, ol, hu, rfl⟩ := ht
  obtain ⟨pt, rfl⟩ := hdrFields_cases hu
  exact unitInv_setPtype (s := s) hs hf

theorem execLenClamp_keepsInv (hs : UnitInv s) (pl0 : BitVec 16) (ol0 : Byte) :
    OutKeepsInv (execLenClamp pl0 ol0 s) := by
  refine outKeepsInv_guard fun ⟨hacc, _⟩ => outKeepsInv_next ?_
  obtain ⟨hf, -, -⟩ := headerAccepted_iff.1 hacc
  exact unitInv_lenClamp hs hf pl0 ol0

theorem execBodyEnter_keepsInv (hs : UnitInv s) : OutKeepsInv (execBodyEnter s) := by
  refine outKeepsInv_guard fun ⟨hacc, hpt, hpl, hol⟩ => outKeepsInv_next ?_
  obtain ⟨hf, hi, hcrc⟩ := headerAccepted_iff.1 hacc
  exact unitInv_bodyEnter hs hf hi.ge hcrc hpt hpl hol

theorem execCfgParamPush_keepsInv {e : Entry} (hs : UnitInv s) (he : e.fits s.params = true) :
    OutKeepsInv (execCfgParamPush e s) := by
  refine outKeepsInv_guard fun hm => outKeepsInv_next ?_
  split
  next hroom => exact unitInv_pushEntry hs hm hroom he
  next => exact unitInv_setOverflow hs hm

theorem execStart_keepsInv (hs : UnitInv s) : OutKeepsInv (execStart s) := by
  refine outKeepsInv_guard fun hm => outKeepsInv_bind fun r hr => ?_
  have ⟨hstorage, _⟩ := hs
  exact unitInv_takeOutcome_of_verdict hs (idle_of_mode_ne_run hs (by simp [hm]))
    (configVerdict_of_cfgCheck hstorage hr)

theorem exec_frame_keepsInv {i : Instr} (hs : UnitInv s) (hi : i.fmt = .frame) :
    OutKeepsInv (exec i s) := by
  rw [exec_frame hi]
  exact outKeepsInv_guard fun _ => outKeepsInv_toOut fun _ => takeFrame_keepsInv hs

/-- Every instruction keeps the invariant; an entry pushed must have the unit's widths (R24), of which
`CFG_PARAM_PUSH` itself does not ask. -/
theorem exec_keepsInv {i : Instr} (hs : UnitInv s)
    (hi : ∀ e, i = .cfgParamPush e → e.fits s.params = true) : OutKeepsInv (exec i s) := by
  cases i with
  | reset => exact outKeepsInv_next (unitInv_toReset s)
  | cfgCrcWrite k v => exact outKeepsInv_guard fun hm => outKeepsInv_next (unitInv_writeCrc hs hm k v)
  | cfgParamPush e => exact execCfgParamPush_keepsInv hs (hi e rfl)
  | start => exact execStart_keepsInv hs
  | readFrame =>
    exact outKeepsInv_guard fun ⟨hm, _⟩ => outKeepsInv_next (unitInv_beginAttempt hs hm)
  | byte b => exact outKeepsInv_guard fun _ => outKeepsInv_toOut fun _ => byteStep_keepsInv hs
  | ioerr =>
    exact outKeepsInv_guard fun _ => outKeepsInv_next (unitInv_setFsm_idle (s := s.emitResult _) hs)
  | seekSync => exact outKeepsInv_guard fun hf => outKeepsInv_next (unitInv_seekSync hs hf)
  | seekSkip b => exact outKeepsInv_guard fun _ => outKeepsInv_next hs
  | fVld9 ol hcrc rest => exact exec_frame_keepsInv hs rfl
  | fVld9BadLen pl ol hcrc rest => exact exec_frame_keepsInv hs rfl
  | fRadioOther pl ol hcrc g rest => exact exec_frame_keepsInv hs rfl
  | fOther pl ol pt hcrc g rest => exact exec_frame_keepsInv hs rfl
  | crc8 offset count data => exact execCrc8_keepsInv hs offset count data
  | hdrStore b =>
    exact outKeepsInv_guard fun ⟨hf, hlt⟩ => outKeepsInv_next (unitInv_hdrStore hs hf hlt)
  | hdrCheck b =>
    exact outKeepsInv_guard fun ⟨hf, heq⟩ => outKeepsInv_toOut fun _ => hdrCheck_keepsInv hs hf heq.ge
  | hdrFields => exact execHdrFields_keepsInv hs
  | lenClamp pl0 ol0 => exact execLenClamp_keepsInv hs pl0 ol0
  | bodyEnter => exact execBodyEnter_keepsInv hs
  | bodyStore b =>
    exact outKeepsInv_guard fun hf => outKeepsInv_toOut fun _ => bodyStore_keepsInv hs hf
  | bodyCheck => exact outKeepsInv_guard fun _ => outKeepsInv_toOut fun _ => bodyCheck_keepsInv hs
  | frameEnd => exact outKeepsInv_guard fun _ => outKeepsInv_next (unitInv_setFsm_idle hs)
  | tgDecode => exact outKeepsInv_bind fun _ _ => hs
  | tgPtype => exact outKeepsInv_runTest hs
  | tgTtype => exact outKeepsInv_runTest hs
  | tgLguard => exact outKeepsInv_runTest hs
  | tgBitcat => exact outKeepsInv_bind fun _ _ => hs
  | fdFields b => exact outKeepsInv_bind fun _ _ => hs
  | fdExtract b off w => exact outKeepsInv_next hs
  | fdSlope p => exact outKeepsInv_bind fun _ _ => hs
  | fdOffset p => exact outKeepsInv_bind fun _ _ => hs
  | fdScale raw slope offset => exact outKeepsInv_next hs
  | fdEmit p value => exact outKeepsInv_next hs
  | cfgCheck => exact outKeepsInv_bind fun _ _ => hs

/-! ### What is taken from the queue -/

/-- An entry that the decoder reads is well-formed; only the event format has one (R110). -/
theorem wf_of_decode_cfgParamPush {c : Config.Params} {f : Fmt} {bs tail : List Byte} {e : Entry}
    (h : decode c f bs = some (.cfgParamPush e, tail)) : e.wf c = true := by
  cases f with
  | event =>
    simp only [decode, decodeEvent, Option.bind_eq_bind, Option.bind_eq_some_iff, Prod.exists] at h
    obtain ⟨id, bs, -, h⟩ := h
    split at h
    case h_3 =>
      simp only [Option.bind_eq_some_iff, Prod.exists, takeEntry_eq_some, Option.some.injEq,
        Prod.mk.injEq, Instr.cfgParamPush.injEq] at h
      obtain ⟨_, _, ⟨hwf, -⟩, rfl, -⟩ := h
      exact hwf
    all_goals simp [Option.bind_eq_some_iff] at h
  | byte =>
    simp only [decode, decodeByte, Option.bind_eq_bind, Option.bind_eq_some_iff, Prod.exists] at h
    obtain ⟨b, bs, -, h⟩ := h
    split at h <;> simp at h
  | frame =>
    simp only [decode, decodeFrame, Option.bind_eq_bind, Option.bind_eq_some_iff, Prod.exists] at h
    obtain ⟨_, _, -, _, _, -, _, _, -, _, _, -, _, _, -, _, _, -, _, _, -, h⟩ := h
    split at h
    · simp only [Option.bind_eq_some_iff, Prod.exists, Option.some.injEq, Prod.mk.injEq] at h
      obtain ⟨_, _, -, hclass, -⟩ := h
      unfold frameClass at hclass
      split_ifs at hclass
    · simp at h
  | op =>
    simp only [decode, decodeOp, Option.bind_eq_bind, Option.bind_eq_some_iff, Prod.exists] at h
    obtain ⟨id, bs, -, h⟩ := h
    split at h
    case h_2 =>
      simp only [Option.bind_eq_some_iff, Prod.exists] at h
      obtain ⟨b, bs, -, h⟩ := h
      split at h <;> simp at h
    all_goals simp [Option.bind_eq_some_iff] at h

/-- An entry that comes to its turn has the unit's widths (R24). -/
theorem fits_of_nextIs {x : Burst} {e : Entry} {tail : List Byte}
    (h : NextIs s x (.cfgParamPush e) tail) : e.fits s.params = true := by
  obtain ⟨-, h⟩ | ⟨_, -, -, h, -⟩ := h
  · exact (Bool.and_eq_true_iff.1 (wf_of_decode_cfgParamPush h)).2
  · cases h

/-- Settles O56: `step` runs an instruction it has decoded, on a state that differs in the queue only,
and every instruction keeps the invariant. -/
theorem everyStepKeepsTheInvariant : Obligations.EveryStepKeepsTheInvariant := by
  intro s t hs h
  unfold step at h
  split at h
  · cases h
  next i u hfetch =>
    obtain ⟨x, r, q, hnext, rfl⟩ := fetch_eq_ok hfetch
    have hqueued : UnitInv (s.setInput q) := hs
    exact exec_keepsInv hqueued (fun e he => fits_of_nextIs (he ▸ hnext)) t h

end Sys2Proof.Proofs.Invariant
end

section
/-! Memory (20_memory.md), O12: from `START` to `RESET` nothing writes `MODE` or a table (R76, R43 (e)).
The configuration is written by `RESET`, the two writes of a table and `START`; the last three run in
`UNCONFIGURED` only. That the updates of every other instruction leave `SameConfig` is read off the
inversions of the compound steps. -/

namespace Sys2Proof.Proofs.FrozenTables

open Sys2Proof Sys2Proof.Machine
open Sys2Proof.Proofs.Scope
  (hdrFields_cases hdrCheck_cases bodyCheck_cases bodyStore_cases runTest_cases exec_frame)

variable {s t u : State} {b : Byte} {o : Out} {α : Type}

/-! ### The configuration kept by the compound steps -/

theorem sameConfig_refl (s : State) : SameConfig s s := ⟨rfl, rfl, rfl, rfl, rfl, rfl, rfl⟩

theorem sameConfig_trans (h : SameConfig s t) (h' : SameConfig t u) : SameConfig s u := by
  obtain ⟨hmode, ht, htw, hp, hnp, hpovf, hparams⟩ := h
  obtain ⟨hmode', ht', htw', hp', hnp', hpovf', hparams'⟩ := h'
  exact ⟨hmode'.trans hmode, ht'.trans ht, htw'.trans htw, hp'.trans hp, hnp'.trans hnp,
    hpovf'.trans hpovf, hparams'.trans hparams⟩

theorem hdrCheck_sameConfig (h : hdrCheck b s = .ok t) : SameConfig s t := by
  obtain ⟨pt, pl, ol, rfl⟩ | ⟨hdr, rfl⟩ := hdrCheck_cases h
  · exact sameConfig_refl s
  · exact sameConfig_refl s

theorem bodyCheck_sameConfig (h : bodyCheck s = .ok t) : SameConfig s t := by
  obtain ⟨x, r, rfl⟩ | rfl := bodyCheck_cases h
  · exact sameConfig_refl s
  · exact sameConfig_refl s

theorem bodyStore_sameConfig (h : bodyStore b s = .ok t) : SameConfig s t := by
  obtain rfl | ⟨u, hu, rfl⟩ := bodyStore_cases h
  · exact sameConfig_refl s
  · have hchecked : SameConfig (s.writeBody s.idx.toNat b) u := bodyCheck_sameConfig hu
    exact hchecked

theorem runTest_sameConfig {v : Except Fault (Verdict α)} {port : α → PortValue}
    (h : runTest v port s = .ok t) : SameConfig s t := by
  obtain ⟨x, rfl⟩ | ⟨r, x, rfl⟩ := runTest_cases h
  · exact sameConfig_refl s
  · exact sameConfig_refl s

theorem byteStep_sameConfig (h : byteStep b s = .ok t) : SameConfig s t := by
  unfold byteStep at h
  split at h
  case h_1 => cases h; exact sameConfig_refl s
  case h_2 => split at h <;> cases h <;> exact sameConfig_refl s
  case h_3 =>
    split at h
    · cases h; exact sameConfig_refl s
    · exact hdrCheck_sameConfig h
  case h_4 => exact bodyStore_sameConfig h

theorem leaveBytes_sameConfig (bs : List Byte) (s : State) : SameConfig s (s.leaveBytes bs) := by
  unfold State.leaveBytes
  split
  · exact sameConfig_refl s
  · exact sameConfig_refl s

/-- A frame is its byte steps; the bytes put back are in the queue only. -/
theorem takeFrame_sameConfig {bs : List Byte} (h : takeFrame bs s = .ok t) : SameConfig s t := by
  induction bs generalizing s with
  | nil => cases h; exact sameConfig_refl t
  | cons b bs ih =>
    obtain ⟨u, hu, h⟩ := bind_eq_ok.1 h
    refine sameConfig_trans (byteStep_sameConfig hu) ?_
    split at h
    · exact ih h
    · cases h; exact leaveBytes_sameConfig bs u

/-! ### From the steps to the answers of instructions -/

/-- Every next state that the answer `o` gives has the configuration of `s`. -/
def OutKeepsConfig (s : State) (o : Out) : Prop := ∀ t, o = .next t → SameConfig s t

theorem outKeepsConfig_next (h : SameConfig s t) : OutKeepsConfig s (.next t) := by
  rintro _ ⟨⟩; exact h

/-- An instruction with a condition has its answer only where the condition holds. -/
theorem outKeepsConfig_guard {c : Prop} [Decidable c] (h : c → OutKeepsConfig s o) :
    OutKeepsConfig s (if c then o else noStep) := by
  split
  next hc => exact h hc
  next => exact fun t ht => absurd ht (noStep_ne_next t)

theorem outKeepsConfig_toOut {x : Except Fault State} (h : ∀ t, x = .ok t → SameConfig s t) :
    OutKeepsConfig s (toOut x) :=
  fun t ht => h t (toOut_eq_next.1 ht)

/-- An operation that computes a value, then puts it into the state by `g`. -/
theorem outKeepsConfig_bind {x : Except Fault α} {g : α → State} (h : ∀ a, SameConfig s (g a)) :
    OutKeepsConfig s (toOut (do let a ← x; pure (g a))) :=
  outKeepsConfig_toOut fun t ht => by
    obtain ⟨a, -, hg⟩ := bind_eq_ok.1 ht
    cases hg; exact h a

theorem execCrc8_keepsConfig (offset count : Nat) (data : List Byte) (s : State) :
    OutKeepsConfig s (execCrc8 offset count data s) := by
  unfold execCrc8
  split
  · exact outKeepsConfig_next (sameConfig_refl s)
  · exact outKeepsConfig_next (sameConfig_refl s)
  · rintro t ⟨⟩

theorem execHdrFields_keepsConfig (s : State) : OutKeepsConfig s (execHdrFields s) := by
  refine outKeepsConfig_guard fun _ => outKeepsConfig_toOut fun t ht => ?_
  simp only [bind_eq_ok, pure_ok, Except.ok.injEq, Prod.exists] at ht
  obtain ⟨u, pl, ol, hu, rfl⟩ := ht
  obtain ⟨pt, rfl⟩ := hdrFields_cases hu
  exact sameConfig_refl s

theorem exec_frame_keepsConfig {i : Instr} (hi : i.fmt = .frame) (s : State) :
    OutKeepsConfig s (exec i s) := by
  rw [exec_frame hi]
  exact outKeepsConfig_guard fun _ => outKeepsConfig_toOut fun _ => takeFrame_sameConfig

/-- Once configured, the unit keeps its configuration under every instruction but `RESET`: those that
write a table or `MODE` have no step any more (R230), and the others write other registers. -/
theorem exec_keepsConfig {i : Instr} (hm : s.mode ≠ .unconfigured) (hi : i ≠ .reset) :
    OutKeepsConfig s (exec i s) := by
  cases i with
  | reset => exact absurd rfl hi
  | cfgCrcWrite | cfgParamPush | start => exact outKeepsConfig_guard fun h => absurd h hm
  | fVld9 | fVld9BadLen | fRadioOther | fOther => exact exec_frame_keepsConfig rfl s
  | byte => exact outKeepsConfig_guard fun _ => outKeepsConfig_toOut fun _ => byteStep_sameConfig
  | hdrCheck => exact outKeepsConfig_guard fun _ => outKeepsConfig_toOut fun _ => hdrCheck_sameConfig
  | bodyStore =>
    exact outKeepsConfig_guard fun _ => outKeepsConfig_toOut fun _ => bodyStore_sameConfig
  | bodyCheck =>
    exact outKeepsConfig_guard fun _ => outKeepsConfig_toOut fun _ => bodyCheck_sameConfig
  | readFrame | ioerr | seekSync | seekSkip | hdrStore | lenClamp | bodyEnter | frameEnd =>
    exact outKeepsConfig_guard fun _ => outKeepsConfig_next (sameConfig_refl s)
  | crc8 offset count data => exact execCrc8_keepsConfig offset count data s
  | hdrFields => exact execHdrFields_keepsConfig s
  | tgPtype | tgTtype | tgLguard => exact outKeepsConfig_toOut fun _ => runTest_sameConfig
  | tgDecode | tgBitcat | fdFields | fdSlope | fdOffset | cfgCheck =>
    exact outKeepsConfig_bind fun _ => sameConfig_refl s
  | fdExtract | fdScale | fdEmit => exact outKeepsConfig_next (sameConfig_refl s)

/-- Settles O12: in `RUN` and `HALTED` every instruction but `RESET` keeps the whole configuration. -/
theorem tablesAreFrozenAfterStart : Obligations.TablesAreFrozenAfterStart := by
  intro s t i hm hi h
  obtain ⟨hmode, ht, htw, hp, hnp, hpovf, -⟩ := exec_keepsConfig hm hi t h
  exact ⟨hmode, ht, htw, hp, hnp, hpovf⟩

end Sys2Proof.Proofs.FrozenTables
end

section
/-! Memory (20_memory.md), O55: `step` is `fetch`, then `exec` (R68, R73). Which input `fetch` comes to
is said by the laws of the fetch; here they are carried over to `step`. -/

namespace Sys2Proof.Proofs.Queue

open Sys2Proof Sys2Proof.Machine

variable {s t : State} {i : Instr}

theorem step_of_fetch_error {r : Refusal} (h : fetch s = .error r) : step s = .refused r := by
  simp [step, h]

theorem step_of_fetch_ok (h : fetch s = .ok (i, t)) : step s = exec i t := by
  simp [step, h]

theorem fetch_of_input_nil (h : s.input = []) : fetch s = .error .waiting := by
  simp [fetch, h]

/-- Settles O55: each way that `fetch` can end is the answer of `step`. -/
theorem stepRunsTheDecodedInstruction : Obligations.StepRunsTheDecodedInstruction := by
  refine fun s => ⟨fun hempty => step_of_fetch_error (fetch_of_input_nil hempty),
    fun kept rest hpassed => ⟨?noStep, ?nextInput⟩⟩
  case noStep =>
    rintro hinput rfl
    exact step_of_fetch_error (fetch_none hpassed hinput)
  case nextInput =>
    rintro b q rfl
    refine ⟨?bad, ?taken⟩
    case bad => exact fun hbad => step_of_fetch_error (fetch_bad hpassed hbad)
    case taken =>
      exact fun i tail hnext hkept hstep =>
        step_of_fetch_ok (fetch_taken hpassed hnext hkept hstep)

end Sys2Proof.Proofs.Queue
end

section
/-! Encoding (30_encoding.md), O50 to O54: decoding and encoding undo each other (R90, R104, R110, R112,
R113). The laws of the decoder say of each reader of an operand which bytes it accepts; here they are put
together along the ids of the rows. The four rows of a frame are one layout, `frameClass`. -/

namespace Sys2Proof.Proofs.Encoding

open Sys2Proof Sys2Proof.Machine
open Sys2Proof.Proofs.Scope (assembleLength_extractLsb' toNat_clampPlen toNat_clampOlen)

variable {c : Config.Params} {i : Instr} {bs tail rest : List Byte}
variable {pl : BitVec 16} {hi lo ol pt hc g : Byte}

/-! ### Frames -/

theorem assembleLength_eq_iff {hi' lo' : Byte} :
    assembleLength hi lo = assembleLength hi' lo' ↔ hi = hi' ∧ lo = lo' := by
  refine ⟨fun h => ?_, by rintro ⟨rfl, rfl⟩; rfl⟩
  have hnat := congrArg BitVec.toNat h
  rw [toNat_assembleLength, toNat_assembleLength] at hnat
  exact ⟨by bv_omega, by bv_omega⟩

/-- The layout of R90, its length field written as the two bytes it is sent in (R98). -/
theorem frameBytes_assembleLength (body : List Byte) :
    frameBytes (assembleLength hi lo) ol pt hc body =
      Config.sync :: hi :: lo :: ol :: pt :: hc :: body := by
  obtain ⟨h8, h0⟩ := assembleLength_eq_iff.1 (assembleLength_extractLsb' (assembleLength hi lo))
  rw [frameBytes, h8, h0]

/-- Whatever its class, a frame is encoded in the one layout of R90. -/
theorem encode_frameClass :
    encode c (frameClass pl ol pt hc g rest) = frameBytes pl ol pt hc (g :: rest) := by
  unfold frameClass
  split
  next h => obtain ⟨rfl, rfl, rfl⟩ := h; rfl
  next =>
    split
    next h => obtain ⟨rfl, rfl⟩ := h; rfl
    next =>
      split
      next h => rw [h]; rfl
      next => rfl

theorem fmt_frameClass : (frameClass pl ol pt hc g rest).fmt = .frame := by
  unfold frameClass
  split_ifs <;> rfl

/-- A frame lies in its class; well-formed is one with as many bytes as its header announces (R95). -/
theorem wf_frameClass : (frameClass pl ol pt hc g rest).wf c = bodyFits pl ol rest := by
  unfold frameClass
  split
  next h => obtain ⟨-, -, rfl⟩ := h; rfl
  next hvld =>
    split
    next h =>
      have hpl : pl ≠ BitVec.ofNat 16 Config.sensorDataLength := fun hpl => hvld ⟨h.1, h.2, hpl⟩
      simp [Instr.wf, hpl]
    next hbad =>
      split
      next hpt =>
        have hg : g ≠ Config.ttVld9 := fun hg => hbad ⟨hpt, hg⟩
        simp [Instr.wf, hg]
      next hpt => simp [Instr.wf, hpt]

/-- Every well-formed frame is the one that the table of R104 makes of its own first bytes. -/
theorem exists_frameClass (hi : i.fmt = .frame) (hwf : i.wf c = true) :
    ∃ pl ol pt hc g rest, bodyFits pl ol rest = true ∧ i = frameClass pl ol pt hc g rest := by
  cases i with
  | fVld9 ol hc rest =>
    exact ⟨_, ol, Config.radioAdvanced, hc, Config.ttVld9, rest, hwf, by simp [frameClass]⟩
  | fVld9BadLen pl ol hc rest =>
    obtain ⟨hpl, hfits⟩ := Bool.and_eq_true_iff.1 hwf
    exact ⟨pl, ol, Config.radioAdvanced, hc, Config.ttVld9, rest, hfits,
      by simp [frameClass, of_decide_eq_true hpl]⟩
  | fRadioOther pl ol hc g rest =>
    obtain ⟨hg, hfits⟩ := Bool.and_eq_true_iff.1 hwf
    exact ⟨pl, ol, Config.radioAdvanced, hc, g, rest, hfits,
      by simp [frameClass, of_decide_eq_true hg]⟩
  | fOther pl ol pt hc g rest =>
    obtain ⟨hpt, hfits⟩ := Bool.and_eq_true_iff.1 hwf
    exact ⟨pl, ol, pt, hc, g, rest, hfits, by simp [frameClass, of_decide_eq_true hpt]⟩
  | _ => cases hi

/-- What the decoder reads as a frame: the layout of R90 and the class of R104. -/
theorem decodeFrame_eq_some : decodeFrame bs = some (i, tail) ↔
    ∃ hi lo ol pt hc g rest, bodyFits (assembleLength hi lo) ol rest = true ∧
      bs = Config.sync :: hi :: lo :: ol :: pt :: hc :: g :: (rest ++ tail) ∧
      i = frameClass (assembleLength hi lo) ol pt hc g rest := by
  simp only [decodeFrame, Option.bind_eq_bind, Option.bind_eq_some_iff, Prod.exists, takeByte_eq_some,
    bodyFits, decide_eq_true_eq]
  constructor
  · rintro ⟨s, _, rfl, hi, _, rfl, lo, _, rfl, ol, _, rfl, pt, _, rfl, hc, _, rfl, g, _, rfl, h⟩
    split at h
    case isFalse => cases h
    next hs =>
      simp only [Option.bind_eq_some_iff, Prod.exists, takeBytes_eq_some, Option.some.injEq,
        Prod.mk.injEq] at h
      obtain ⟨rest, _, ⟨hlen, rfl⟩, rfl, rfl⟩ := h
      exact ⟨hi, lo, ol, pt, hc, g, rest, hlen, by rw [hs], rfl⟩
  · rintro ⟨hi, lo, ol, pt, hc, g, rest, hlen, rfl, rfl⟩
    refine ⟨_, _, rfl, hi, _, rfl, lo, _, rfl, ol, _, rfl, pt, _, rfl, hc, _, rfl, g, _, rfl, ?_⟩
    rw [if_pos rfl, Option.bind_eq_some_iff]
    exact ⟨(rest, tail), takeBytes_eq_some.2 ⟨hlen, rfl⟩, rfl⟩

/-- Decoding a frame undoes its encoding, for every class. -/
theorem decodeFrame_encode (hi : i.fmt = .frame) (hwf : i.wf c = true) :
    decodeFrame (encode c i ++ tail) = some (i, tail) := by
  obtain ⟨pl, ol, pt, hc, g, rest, hfits, rfl⟩ := exists_frameClass hi hwf
  have hpl := assembleLength_extractLsb' pl
  refine decodeFrame_eq_some.2 ⟨_, _, ol, pt, hc, g, rest, by rwa [hpl], ?_, by rw [hpl]⟩
  rw [encode_frameClass]; rfl

/-- A frame read is well-formed and is encoded as the bytes taken. -/
theorem encode_of_decodeFrame (h : decodeFrame bs = some (i, tail)) :
    i.wf c = true ∧ bs = encode c i ++ tail := by
  obtain ⟨hi, lo, ol, pt, hc, g, rest, hfits, rfl, rfl⟩ := decodeFrame_eq_some.1 h
  exact ⟨wf_frameClass.trans hfits, by rw [encode_frameClass, frameBytes_assembleLength]; rfl⟩

/-- Settles O53: the length field is 15 exactly when its two bytes are 0 and 15. -/
theorem frameClassFollowsTheTable : Obligations.FrameClassFollowsTheTable := by
  intro c hi lo ol pt hc g bs i tail h
  obtain ⟨_, _, _, _, _, _, rest, -, hbytes, rfl⟩ := decodeFrame_eq_some.1 h
  simp only [List.cons.injEq] at hbytes
  obtain ⟨-, rfl, rfl, rfl, rfl, rfl, rfl, -⟩ := hbytes
  have hlen : assembleLength hi lo = BitVec.ofNat 16 Config.sensorDataLength ↔ hi = 0 ∧ lo = 15 :=
    assembleLength_eq_iff (hi' := 0) (lo' := 15)
  refine ⟨rest, ?_⟩
  simp only [frameClass, hlen]
  rfl

/-- Settles O50: the frame has seven bytes besides `PLEN + OLEN`, which the clamping policy holds to
128. -/
theorem frameLengthBounds : Obligations.FrameLengthBounds := by
  intro c i h0 h1 h2 h3 rest hi hwf he
  obtain ⟨pl, ol, pt, hc, g, rest', hfits, rfl⟩ := exists_frameClass hi hwf
  rw [encode_frameClass] at he ⊢
  have hle := bodyLength_le pl.toNat ol.toNat
  have hlen : (frameBytes pl ol pt hc (g :: rest')).length = 7 + bodyLength pl.toNat ol.toNat := by
    simp only [frameBytes, List.length_cons, of_decide_eq_true hfits]
    omega
  simp only [frameBytes, List.cons.injEq] at he
  obtain ⟨-, rfl, rfl, rfl, -, -⟩ := he
  refine ⟨⟨BitVec.ofNat 16 (clampPlen pl.toNat), BitVec.ofNat 8 (clampOlen pl.toNat ol.toNat), ?_, ?_⟩,
    by omega, by omega⟩
  · rw [← toNat_assembleLength, assembleLength_extractLsb']
    exact clampedTo_clamp pl ol
  · rw [hlen, toNat_clampPlen, toNat_clampOlen, bodyLength]
    omega

/-! ### Decoding undoes encoding -/

@[simp] theorem takeByte_cons (b : Byte) : takeByte (b :: tail) = some (b, tail) := rfl

@[simp] theorem takeWord_putWord {n : Nat} (v : BitVec (8 * n)) :
    takeWord n (putWord n v ++ tail) = some (v, tail) := takeWord_eq_some.2 rfl

@[simp] theorem take7_put7 (v : BitVec 7) : take7 (put7 v ++ tail) = some (v, tail) :=
  take7_eq_some.2 rfl

theorem takeNat_bytesOfNat {n v : Nat} (h : v < 2 ^ (8 * n)) :
    takeNat n (bytesOfNat n v ++ tail) = some (v, tail) := takeNat_eq_some.2 ⟨h, rfl⟩

theorem takeBlob_putBlob {xs : List Byte} (h : xs.length ≤ maxBlob) :
    takeBlob (putBlob xs ++ tail) = some (xs, tail) := takeBlob_eq_some.2 ⟨h, rfl⟩

theorem takeNum_putNum {n : Config.NumSel} {x : Num} (h : numFits n x = true) :
    takeNum n (putNum x ++ tail) = some (x, tail) := takeNum_eq_some.2 ⟨h, rfl⟩

theorem takeEntry_putEntry {e : Entry} (h : e.wf c = true) :
    takeEntry c (putEntry c e ++ tail) = some (e, tail) := takeEntry_eq_some.2 ⟨h, rfl⟩

theorem decodeEvent_encode (hi : i.fmt = .event) (hwf : i.wf c = true) :
    decodeEvent c (encode c i ++ tail) = some (i, tail) := by
  cases i with
  | reset | start | readFrame | ioerr => rfl
  | cfgCrcWrite | byte => rfl
  | cfgParamPush e => simp [encode, decodeEvent, takeEntry_putEntry hwf]
  | _ => cases hi

/-- `SEEK.SKIP` is read only where the byte is not the sync byte, which has its own row (R113). -/
theorem decodeByte_encode (hi : i.fmt = .byte) (hwf : i.wf c = true) :
    decodeByte (encode c i ++ tail) = some (i, tail) := by
  cases i with
  | seekSync => rfl
  | seekSkip b => simp [encode, decodeByte, of_decide_eq_true hwf]
  | _ => cases hi

theorem decodeOp_encode (hi : i.fmt = .op) (hwf : i.wf c = true) :
    decodeOp c (encode c i ++ tail) = some (i, tail) := by
  cases i with
  | hdrFields | bodyEnter | bodyCheck | frameEnd | cfgCheck => rfl
  | tgDecode | tgPtype | tgTtype | tgLguard | tgBitcat => rfl
  | hdrStore | hdrCheck | bodyStore => rfl
  | crc8 offset count data =>
    simp only [Instr.wf, Bool.and_eq_true, decide_eq_true_eq] at hwf
    obtain ⟨⟨hoffset, hcount⟩, hdata⟩ := hwf
    simp [encode, decodeOp, takeBlob_putBlob hdata, takeNat_bytesOfNat (n := 2) hoffset,
      takeNat_bytesOfNat (n := 2) hcount]
  | lenClamp pl0 ol0 => simp [encode, decodeOp]
  | fdFields b => simp [encode, decodeOp]
  | fdExtract b off w => simp [encode, decodeOp]
  | fdSlope p | fdOffset p => simp [encode, decodeOp, takeEntry_putEntry hwf]
  | fdScale raw slope offset =>
    obtain ⟨hslope, hoffset⟩ := Bool.and_eq_true_iff.1 hwf
    simp [encode, decodeOp, takeNum_putNum hslope, takeNum_putNum hoffset]
  | fdEmit p value =>
    obtain ⟨hp, hvalue⟩ := Bool.and_eq_true_iff.1 hwf
    simp [encode, decodeOp, takeEntry_putEntry hp, takeNum_putNum hvalue]
  | _ => cases hi

/-- Settles O51: in each format the reader of a row undoes the writers of its operands. -/
theorem decodeOfEncodeIsTheInstruction : Obligations.DecodeOfEncodeIsTheInstruction := by
  intro c i tail hwf
  cases hi : i.fmt with
  | event => exact decodeEvent_encode hi hwf
  | byte => exact decodeByte_encode hi hwf
  | frame => exact decodeFrame_encode hi hwf
  | op => exact decodeOp_encode hi hwf

/-! ### Encoding undoes decoding -/

theorem eq_ofNat_of_toNat {b : Byte} {n : Nat} (h : b.toNat = n) : b = BitVec.ofNat 8 n := by
  rw [← h, BitVec.ofNat_toNat, BitVec.setWidth_eq]

/-- The cases are the ids of R110 in ascending order, 0x00 the first. -/
theorem encode_of_decodeEvent (h : decodeEvent c bs = some (i, tail)) :
    i.wf c = true ∧ bs = encode c i ++ tail := by
  simp only [decodeEvent, Option.bind_eq_bind, Option.bind_eq_some_iff, Prod.exists,
    takeByte_eq_some] at h
  obtain ⟨id, args, rfl, h⟩ := h
  split at h
  case h_8 => cases h
  all_goals
    rename_i hid
    obtain rfl := eq_ofNat_of_toNat hid
    simp only [Option.bind_eq_some_iff, Prod.exists, takeByte_eq_some, takeEntry_eq_some,
      Option.some.injEq, Prod.mk.injEq] at h
  case h_2 => obtain ⟨i, _, rfl, v, _, rfl, rfl, rfl⟩ := h; exact ⟨rfl, rfl⟩
  case h_3 => obtain ⟨e, _, ⟨hwf, rfl⟩, rfl, rfl⟩ := h; exact ⟨hwf, rfl⟩
  case h_6 => obtain ⟨b, _, rfl, rfl, rfl⟩ := h; exact ⟨rfl, rfl⟩
  all_goals obtain ⟨rfl, rfl⟩ := h; exact ⟨rfl, rfl⟩

theorem encode_of_decodeByte (h : decodeByte bs = some (i, tail)) :
    i.wf c = true ∧ bs = encode c i ++ tail := by
  simp only [decodeByte, Option.bind_eq_bind, Option.bind_eq_some_iff, Prod.exists,
    takeByte_eq_some] at h
  obtain ⟨b, _, rfl, h⟩ := h
  split at h
  next hb => cases h; exact ⟨rfl, by rw [hb]; rfl⟩
  next hb => cases h; exact ⟨decide_eq_true hb, rfl⟩

/-- The ids 0x90 and 0x91 are the only ones whose rows have another format of their own (R112, R113).
The cases are the ids of R112 in ascending order, 0x80 the first. -/
theorem encode_of_decodeOp (h : decodeOp c bs = some (i, tail)) :
    i.wf c = true ∧ (i.fmt = .op → bs = encode c i ++ tail) := by
  simp only [decodeOp, Option.bind_eq_bind, Option.bind_eq_some_iff, Prod.exists,
    takeByte_eq_some] at h
  obtain ⟨id, args, rfl, h⟩ := h
  split at h
  case h_24 => cases h
  all_goals
    rename_i hid
    obtain rfl := eq_ofNat_of_toNat hid
    simp only [Option.bind_eq_some_iff, Prod.exists, takeByte_eq_some, takeEntry_eq_some,
      takeNat_eq_some, takeBlob_eq_some, takeWord_eq_some, takeNum_eq_some, take7_eq_some,
      Option.some.injEq, Prod.mk.injEq] at h
  case h_1 =>
    obtain ⟨data, _, ⟨hdata, rfl⟩, offset, _, ⟨hoffset, rfl⟩, count, _, ⟨hcount, rfl⟩, rfl, rfl⟩ := h
    exact ⟨by simpa [Instr.wf, hdata] using ⟨hoffset, hcount⟩, fun _ => by simp [encode]⟩
  case h_2 =>
    obtain ⟨b, _, rfl, h⟩ := h
    split at h
    next => cases h
    next hb => cases h; exact ⟨decide_eq_true hb, nofun⟩
  case h_3 => obtain ⟨rfl, rfl⟩ := h; exact ⟨rfl, nofun⟩
  case h_4 | h_5 | h_9 => obtain ⟨b, _, rfl, rfl, rfl⟩ := h; exact ⟨rfl, fun _ => rfl⟩
  case h_7 => obtain ⟨pl0, _, rfl, ol0, _, rfl, rfl, rfl⟩ := h; exact ⟨rfl, fun _ => rfl⟩
  case h_17 => obtain ⟨b, _, rfl, rfl, rfl⟩ := h; exact ⟨rfl, fun _ => rfl⟩
  case h_18 => obtain ⟨b, _, rfl, off, _, rfl, w, _, rfl, rfl, rfl⟩ := h; exact ⟨rfl, fun _ => rfl⟩
  case h_19 | h_20 => obtain ⟨p, _, ⟨hwf, rfl⟩, rfl, rfl⟩ := h; exact ⟨hwf, fun _ => rfl⟩
  case h_21 =>
    obtain ⟨raw, _, rfl, slope, _, ⟨hslope, rfl⟩, offset, _, ⟨hoffset, rfl⟩, rfl, rfl⟩ := h
    exact ⟨Bool.and_eq_true_iff.2 ⟨hslope, hoffset⟩, fun _ => by simp [encode]⟩
  case h_22 =>
    obtain ⟨p, _, ⟨hp, rfl⟩, value, _, ⟨hvalue, rfl⟩, rfl, rfl⟩ := h
    exact ⟨Bool.and_eq_true_iff.2 ⟨hp, hvalue⟩, fun _ => by simp [encode]⟩
  all_goals obtain ⟨rfl, rfl⟩ := h; exact ⟨rfl, fun _ => rfl⟩

/-- Settles O52: each reader accepts only what the writer of its row writes; the operation ids of the two
`BYTE8` rows give well-formedness only. -/
theorem decodedBytesAreTheEncoding : Obligations.DecodedBytesAreTheEncoding := by
  intro c f bs i tail h
  cases f with
  | event =>
    obtain ⟨hwf, hbytes⟩ := encode_of_decodeEvent h
    exact ⟨hwf, fun _ => hbytes⟩
  | byte =>
    obtain ⟨hwf, hbytes⟩ := encode_of_decodeByte (c := c) h
    exact ⟨hwf, fun _ => hbytes⟩
  | frame =>
    obtain ⟨hwf, hbytes⟩ := encode_of_decodeFrame (c := c) h
    exact ⟨hwf, fun _ => hbytes⟩
  | op => exact encode_of_decodeOp h

/-! ### The opcode table -/

/-- Settles O54: each word is read in the format of its row; behind it there are zero bytes only. -/
theorem tableWordsDecodeToTheirRows : Obligations.TableWordsDecodeToTheirRows :=
  ⟨rfl, rfl, rfl, rfl, rfl, by decide, by decide, rfl, rfl, rfl⟩

end Sys2Proof.Proofs.Encoding
end

section
/-! Encoding (30_encoding.md), O45 to O48: what a frame row does in `SEEK_SYNC`. A frame whose header CRC is
good is taken whole: the header, then as many body bytes as it announces, then the data CRC byte, behind
which the decoder answers (R104). Of a frame whose header CRC is bad six bytes are taken (R95). -/

namespace Sys2Proof.Proofs.FrameRows

open Sys2Proof Sys2Proof.Machine
open Sys2Proof.Proofs.Scope (exec_frame length_body_of_encode toNat_clampPlen toNat_clampOlen)
open Sys2Proof.Proofs.FrozenTables (sameConfig_refl)
open Sys2Proof.Proofs.Encoding (frameBytes_assembleLength)

variable {s t : State} {f : Byte → Byte} {i : Instr} {h0 h1 h2 h3 hc dc b g : Byte}
variable {body rest bytes : List Byte} {pl : BitVec 16} {ol : Byte} {r : Result}

theorem exec_frame_seeking (hi : i.fmt = .frame) (hm : s.mode = .run) (hf : s.fsm = .seekSync) :
    exec i s = toOut (takeFrame (encode s.params i) s) := by
  rw [exec_frame hi, if_pos (by simp [State.seeking, hm, hf])]

theorem tableIs_withHeader (ht : TableIs s f) : TableIs (withHeader h0 h1 h2 h3 s) f := by
  simpa [TableIs] using ht

/-- The header bytes change the sequencer position and `HDR` only (R142, R143). -/
theorem withHeader_eq : withHeader h0 h1 h2 h3 s =
    { s with fsm := .readHeader, idx := 4, hdr := (withHeader h0 h1 h2 h3 s).hdr } := by
  simp only [withHeader, hdrStore, seekSync, State.incIdx, State.writeHdr, State.setPos]
  rfl

theorem withHeader_read_behind (j : Nat) (hj : 4 ≤ j) :
    (withHeader h0 h1 h2 h3 s).hdr.read j = s.hdr.read j := by
  rw [withHeader_read]
  repeat rw [if_neg (by omega)]

/-! ### A rejected header -/

theorem leaveBytes_of_ne_nil (h : rest ≠ []) :
    s.leaveBytes rest = s.setInput ({ fmt := .event, bytes := asByteEvents rest } :: s.input) :=
  if_neg h

/-- Behind its header CRC byte every frame has a byte. -/
theorem ne_nil_of_encode_frame {c : Config.Params} (hi : i.fmt = .frame)
    (he : encode c i = Config.sync :: h0 :: h1 :: h2 :: h3 :: b :: rest) : rest ≠ [] := by
  rintro rfl
  cases i with
  | fVld9 | fVld9BadLen | fRadioOther | fOther => simp [encode, frameBytes] at he
  | _ => cases hi

/-- A rejected header stays in `HDR` and `HCRC`, and the search goes on (R144, R153). -/
theorem headerRejected_eq (hdr : List Byte) :
    ((withHeader h0 h1 h2 h3 s).setHcrc b).rejectHeader hdr b = { s with
      fsm := .seekSync
      idx := 4
      hdr := (withHeader h0 h1 h2 h3 s).hdr
      hcrc := some b
      traces := s.traces ++ [.headerCrcMismatch hdr b] } := by
  rw [withHeader_eq]
  rfl

/-- Settles O48: the frame stops at its sixth byte, and the bytes behind it are put back as events. -/
theorem rejectedFrameCostsSixBytes : Obligations.RejectedFrameCostsSixBytes := by
  intro s f i h0 h1 h2 h3 b rest hm hf ht hi he hb
  have hexec : exec i s = toOut (takeFrame (Config.sync :: h0 :: h1 :: h2 :: h3 :: b :: rest) s) :=
    he ▸ exec_frame_seeking hi hm hf
  rw [takeFrame_header hf, takeFrame_bad (tableIs_withHeader ht) (by simp) (by simp) withHeader_is hb,
    toOut_ok, leaveBytes_of_ne_nil (ne_nil_of_encode_frame hi he), headerRejected_eq] at hexec
  -- Unpacked, so that the registers are compared and not the states they belong to.
  obtain ⟨hread0, hread1, hread2, hread3⟩ : HeaderIs (withHeader h0 h1 h2 h3 s) h0 h1 h2 h3 :=
    withHeader_is
  have hbehind : ∀ j, 4 ≤ j → (withHeader h0 h1 h2 h3 s).hdr.read j = s.hdr.read j :=
    withHeader_read_behind
  exact ⟨_, hexec, rfl, rfl, rfl, rfl, rfl, ⟨hread0, hread1, hread2, hread3⟩, hbehind, rfl, rfl,
    rfl, rfl, rfl, rfl, ⟨rfl, rfl, rfl, rfl, rfl, rfl, rfl⟩⟩

/-! ### An accepted header and the body behind it -/

/-- The state behind an accepted header, before the first body byte (R144 to R147). -/
def headerTaken (h0 h1 h2 h3 hc : Byte) (s : State) : State :=
  bodyEnter (lenClamp (assembleLength h0 h1) h2 (((withHeader h0 h1 h2 h3 s).setHcrc hc).setPtype h3))

/-- An accepted header is stored in the frame data registers; nothing else but the position changes. -/
theorem headerTaken_eq : headerTaken h0 h1 h2 h3 hc s =
    { s with
      fsm := .readBody
      idx := 0
      hdr := (withHeader h0 h1 h2 h3 s).hdr
      hcrc := some hc
      plen := some (BitVec.ofNat 16 (clampPlen (assembleLength h0 h1).toNat))
      olen := some (BitVec.ofNat 8 (clampOlen (assembleLength h0 h1).toNat h2.toNat))
      ptype := some h3 } := by
  rw [headerTaken, withHeader_eq]
  rfl

theorem headerTaken_idx : (headerTaken h0 h1 h2 h3 hc s).idx.toNat = 0 := rfl

/-- The state in which the last byte `dc` of the frame is stored and not yet checked (R148). -/
def frameTaken (h0 h1 h2 h3 hc : Byte) (body : List Byte) (dc : Byte) (s : State) : State :=
  let u := storeAll body (headerTaken h0 h1 h2 h3 hc s)
  u.writeBody u.idx.toNat dc

/-- The bytes of a frame are stored in the frame data registers and write nothing else. -/
theorem frameTaken_eq : frameTaken h0 h1 h2 h3 hc body dc s =
    { s with
      fsm := .readBody
      idx := (frameTaken h0 h1 h2 h3 hc body dc s).idx
      hdr := (withHeader h0 h1 h2 h3 s).hdr
      hcrc := some hc
      plen := some (BitVec.ofNat 16 (clampPlen (assembleLength h0 h1).toNat))
      olen := some (BitVec.ofNat 8 (clampOlen (assembleLength h0 h1).toNat h2.toNat))
      ptype := some h3
      body := (frameTaken h0 h1 h2 h3 hc body dc s).body } := by
  simp only [frameTaken]
  rw [storeAll_same, headerTaken_eq]
  rfl

theorem storeAll_headerTaken_idx (hlen : body.length ≤ 128) :
    (storeAll body (headerTaken h0 h1 h2 h3 hc s)).idx.toNat = body.length := by
  rw [storeAll_idx _ _ (by rw [headerTaken_idx]; omega), headerTaken_idx, Nat.zero_add]

theorem frameTaken_idx (hlen : body.length ≤ 128) :
    (frameTaken h0 h1 h2 h3 hc body dc s).idx.toNat = body.length :=
  storeAll_headerTaken_idx hlen

theorem bodyIs_frameTaken (hlen : body.length ≤ 128) :
    BodyIs (frameTaken h0 h1 h2 h3 hc body dc s) (body ++ [dc]) := by
  refine bodyIs_write (fun j hj => ?_) (storeAll_headerTaken_idx hlen)
  rw [storeAll_body _ _ (by rw [headerTaken_idx]; omega), headerTaken_idx, if_pos (by omega),
    Nat.sub_zero]

theorem frameTaken_body_behind (hlen : body.length ≤ 128) (j : Nat) (hj : (body ++ [dc]).length ≤ j) :
    (frameTaken h0 h1 h2 h3 hc body dc s).body.read j = s.body.read j := by
  rw [List.length_append, List.length_singleton] at hj
  have hother : j ≠ body.length := by omega
  simp only [frameTaken, storeAll_headerTaken_idx hlen, writeBody_body]
  rw [Memory.read_write_other _ hother, storeAll_body _ _ (by rw [headerTaken_idx]; omega),
    headerTaken_idx, if_neg (by omega), headerTaken_eq]

/-- The clamped lengths of the header add up to the body. -/
theorem toNat_clamped_add {pl0 : Nat} {ol0 : Byte} :
    (BitVec.ofNat 16 (clampPlen pl0)).toNat + (BitVec.ofNat 8 (clampOlen pl0 ol0.toNat)).toNat =
      bodyLength pl0 ol0.toNat := by
  rw [toNat_clampPlen, toNat_clampOlen, bodyLength]

/-- The frame up to its last byte, which is stored, checked, and ends the attempt (R144, R148, R150). -/
theorem takeFrame_accepted (hf : s.fsm = .seekSync) (ht : TableIs s f)
    (hlen : body.length = bodyLength (assembleLength h0 h1).toNat h2.toNat) :
    takeFrame (Config.sync :: h0 :: h1 :: h2 :: h3 :: crcOf f [h0, h1, h2, h3] :: (body ++ [dc])) s =
      (do
        let t ← bodyCheck (frameTaken h0 h1 h2 h3 (crcOf f [h0, h1, h2, h3]) body dc s)
        pure (frameEnd t)) := by
  have hle : body.length ≤ 128 := hlen ▸ bodyLength_le _ _
  have hsum := toNat_clamped_add (pl0 := (assembleLength h0 h1).toNat) (ol0 := h2)
  have hheld := headerTaken_eq (h0 := h0) (h1 := h1) (h2 := h2) (h3 := h3)
    (hc := crcOf f [h0, h1, h2, h3]) (s := s)
  have hstored := storeAll_same body (headerTaken h0 h1 h2 h3 (crcOf f [h0, h1, h2, h3]) s)
  rw [takeFrame_header hf, takeFrame_good (tableIs_withHeader ht) (by simp) (by simp) withHeader_is,
    ← headerTaken]
  rw [takeFrame_body (congrArg State.fsm hheld) (congrArg State.plen hheld) (congrArg State.olen hheld)
    (by omega) (by rw [headerTaken_idx]; omega)]
  refine takeFrame_last ((congrArg State.fsm hstored).trans (congrArg State.fsm hheld))
    ((congrArg State.plen hstored).trans (congrArg State.plen hheld))
    ((congrArg State.olen hstored).trans (congrArg State.olen hheld)) (by omega) ?_
  rw [storeAll_headerTaken_idx hle]
  omega

/-! ### The answer to an accepted frame -/

/-- What an accepted frame leaves and emits: one `FrameAccepted`, one `Result`, the frame in its registers
(R149, R150). -/
def FrameDone (s t : State) (h0 h1 h2 h3 hc : Byte) (pl : BitVec 16) (ol : Byte) (buf : List Byte)
    (r : Result) : Prop :=
  t.results = s.results ++ [r] ∧ t.traces = s.traces ++ [.frameAccepted pl ol h3 hc] ∧
    FrameHeld s t h0 h1 h2 h3 hc pl ol buf ∧ SameConfig s t ∧ SameLanes s t

theorem frameDone_frameEnd (r : Result)
    (hlen : body.length = bodyLength (assembleLength h0 h1).toNat h2.toNat)
    (hpl : pl = BitVec.ofNat 16 (clampPlen (assembleLength h0 h1).toNat))
    (hol : ol = BitVec.ofNat 8 (clampOlen (assembleLength h0 h1).toNat h2.toNat)) :
    FrameDone s (frameEnd (((frameTaken h0 h1 h2 h3 hc body dc s).emitTrace
      (.frameAccepted pl ol h3 hc)).emitResult r)) h0 h1 h2 h3 hc pl ol (body ++ [dc]) r := by
  have hle : body.length ≤ 128 := hlen ▸ bodyLength_le _ _
  have hidx : (frameTaken h0 h1 h2 h3 hc body dc s).idx.toNat = pl.toNat + ol.toNat := by
    rw [frameTaken_idx hle, hlen, hpl, hol, toNat_clamped_add]
  have hheader : HeaderIs (withHeader h0 h1 h2 h3 s) h0 h1 h2 h3 := withHeader_is
  have hbehind : ∀ j, 4 ≤ j → (withHeader h0 h1 h2 h3 s).hdr.read j = s.hdr.read j :=
    withHeader_read_behind
  have hbody : ∀ j, j < (body ++ [dc]).length →
      (frameTaken h0 h1 h2 h3 hc body dc s).body.read j = (body ++ [dc])[j]? := bodyIs_frameTaken hle
  have hbodyBehind : ∀ j, (body ++ [dc]).length ≤ j →
      (frameTaken h0 h1 h2 h3 hc body dc s).body.read j = s.body.read j := frameTaken_body_behind hle
  rw [frameTaken_eq, ← hpl, ← hol]
  exact ⟨rfl, rfl, ⟨rfl, hidx, hheader, hbehind, rfl, rfl, rfl, rfl, hbody,
    hbodyBehind⟩, ⟨rfl, rfl, rfl, rfl, rfl, rfl, rfl⟩, rfl, rfl⟩

/-- Where the decode comes to the fields, it has the nine bytes `BODY[5..13]` and a legal table. -/
theorem tgDecode_frameTaken {x : Trace} (hlen : body.length = pl.toNat + ol.toNat)
    (hle : body.length ≤ 128) (hpl : pl = BitVec.ofNat 16 (clampPlen (assembleLength h0 h1).toNat))
    (hbuf : g :: rest = body ++ [dc])
    (hlegal : h3 = 0x0A → g = 0x24 → pl.toNat = 15 → s.np ≤ s.params.maxFields ∧ EntriesLegal s s.np) :
    ∃ r, tgDecode ((frameTaken h0 h1 h2 h3 hc body dc s).emitTrace x) = .ok r ∧
      DecodeAnswer s h3 g pl ((body.drop 5).take 9) r := by
  have hbody : ∀ j, j < (body ++ [dc]).length →
      (frameTaken h0 h1 h2 h3 hc body dc s).body.read j = (body ++ [dc])[j]? := bodyIs_frameTaken hle
  have hfirst : (frameTaken h0 h1 h2 h3 hc body dc s).body.read 0 = some g := by
    rw [hbody 0 (by simp), ← hbuf]; rfl
  have hsensor : pl.toNat = 15 → ((body.drop 5).take 9).length = 9 ∧
      ∀ j, j < 9 → (frameTaken h0 h1 h2 h3 hc body dc s).body.read (5 + j) =
        ((body.drop 5).take 9)[j]? := by
    refine fun h15 => ⟨by simp; omega, fun j hj => ?_⟩
    rw [hbody _ (by simp; omega), List.getElem?_append_left (by omega), List.getElem?_take_of_lt hj,
      List.getElem?_drop]
  rw [frameTaken_eq, ← hpl]
  refine tgDecode_ok nofun rfl hfirst rfl fun hpt htt h15 => ?_
  obtain ⟨hnine, hbytes⟩ := hsensor h15
  exact ⟨hnine, hbytes, hlegal hpt htt h15⟩

/-- A data CRC byte that matches: the frame is traced and decoded (R149). -/
theorem bodyCheck_frameTaken (ht : TableIs s f) (hlen : body.length = pl.toNat + ol.toNat)
    (hle : body.length ≤ 128) (hpl : pl = BitVec.ofNat 16 (clampPlen (assembleLength h0 h1).toNat))
    (hol : ol = BitVec.ofNat 8 (clampOlen (assembleLength h0 h1).toNat h2.toNat))
    (hr : tgDecode ((frameTaken h0 h1 h2 h3 hc body (crcOf f body) s).emitTrace
      (.frameAccepted pl ol h3 hc)) = .ok r) :
    bodyCheck (frameTaken h0 h1 h2 h3 hc body (crcOf f body) s) =
      .ok (((frameTaken h0 h1 h2 h3 hc body (crcOf f body) s).emitTrace
        (.frameAccepted pl ol h3 hc)).emitResult r) := by
  have hheld := frameTaken_eq (h0 := h0) (h1 := h1) (h2 := h2) (h3 := h3) (hc := hc) (body := body)
    (dc := crcOf f body) (s := s)
  rw [← hpl, ← hol] at hheld
  have htable : TableIs (frameTaken h0 h1 h2 h3 hc body (crcOf f body) s) f := fun j =>
    (congrArg (Memory.read · j.toNat) (congrArg State.t hheld)).trans (ht j)
  rw [bodyCheck_eq (congrArg State.fsm hheld) (congrArg State.plen hheld) (congrArg State.olen hheld)
    (congrArg State.ptype hheld) (congrArg State.hcrc hheld) (hlen ▸ hle) htable hlen
    (bodyIs_frameTaken hle), if_pos rfl, hr]
  rfl

/-- No other length is clamped to 15 (R146). -/
theorem eq_fifteen_of_clampedTo {pl0 ol0 : Nat} (h : ClampedTo pl0 ol0 pl ol) (hpl : pl.toNat = 15) :
    pl0 = 15 := by
  unfold ClampedTo at h
  split_ifs at h <;> omega

/-- An accepted frame is taken whole and answered by the decoder (R149, R150, R180). -/
theorem exec_accepted (hi : i.fmt = .frame) (hwf : i.wf s.params = true) (hm : s.mode = .run)
    (hf : s.fsm = .seekSync) (ht : TableIs s f)
    (he : encode s.params i = Config.sync :: h0 :: h1 :: h2 :: h3 :: hc :: g :: rest)
    (hcrc : hc = crcOf f [h0, h1, h2, h3]) (hbuf : g :: rest = body ++ [crcOf f body])
    (hlegal : h3 = 0x0A → g = 0x24 → h0.toNat * 256 + h1.toNat = 15 →
      s.np ≤ s.params.maxFields ∧ EntriesLegal s s.np) :
    ∃ t pl ol r, exec i s = .next t ∧ ClampedTo (h0.toNat * 256 + h1.toNat) h2.toNat pl ol ∧
      DecodeAnswer s h3 g pl ((body.drop 5).take 9) r ∧
      FrameDone s t h0 h1 h2 h3 hc pl ol (g :: rest) r := by
  have hlen : body.length = bodyLength (assembleLength h0 h1).toNat h2.toNat := by
    have hbytes := length_body_of_encode hi hwf he
    simpa [hbuf] using hbytes
  have hle : body.length ≤ 128 := hlen ▸ bodyLength_le _ _
  obtain ⟨pl, hpl⟩ : ∃ pl, pl = BitVec.ofNat 16 (clampPlen (assembleLength h0 h1).toNat) := ⟨_, rfl⟩
  obtain ⟨ol, hol⟩ : ∃ ol, ol = BitVec.ofNat 8 (clampOlen (assembleLength h0 h1).toNat h2.toNat) :=
    ⟨_, rfl⟩
  have hsum : body.length = pl.toNat + ol.toNat := by rw [hpl, hol, toNat_clamped_add, hlen]
  have hclamped : ClampedTo (h0.toNat * 256 + h1.toNat) h2.toNat pl ol := by
    rw [← toNat_assembleLength, hpl, hol]
    exact clampedTo_clamp _ _
  obtain ⟨r, hr, hanswer⟩ := tgDecode_frameTaken (s := s) (h2 := h2) (hc := hc)
    (x := .frameAccepted pl ol h3 hc) hsum hle hpl hbuf fun hpt htt h15 =>
      hlegal hpt htt (eq_fifteen_of_clampedTo hclamped h15)
  have hexec : exec i s = toOut (takeFrame (encode s.params i) s) := exec_frame_seeking hi hm hf
  rw [he, hbuf, hcrc, takeFrame_accepted hf ht hlen, ← hcrc,
    bodyCheck_frameTaken ht hsum hle hpl hol hr, ok_bind, pure_ok, toOut_ok] at hexec
  exact ⟨_, pl, ol, r, hexec, hclamped, hanswer, hbuf ▸ frameDone_frameEnd r hlen hpl hol⟩

/-! ### The rows of R104 -/

/-- Settles O45: both tags are there and the length is 15, so that the decode comes to the fields. -/
theorem vldFrameYieldsMeasurements : Obligations.VldFrameYieldsMeasurements := by
  intro s f ol hc rest body hm hf ht hnp hentries hwf hcrc hbuf
  obtain ⟨t, pl, ol', r, hexec, hclamped, hanswer, hresults, htraces, hheld, hconfig, hlanes⟩ :=
    exec_accepted (h0 := 0) (h1 := 15) rfl hwf hm hf ht rfl hcrc hbuf fun _ _ _ => ⟨hnp, hentries⟩
  have hlens : pl.toNat = 15 ∧ ol'.toNat = min ol.toNat 113 := by
    have h15 : (0 : Byte).toNat * 256 + (15 : Byte).toNat = 15 := rfl
    rw [h15] at hclamped
    unfold ClampedTo at hclamped
    split_ifs at hclamped <;> omega
  obtain ⟨hpl, hol⟩ := hlens
  obtain rfl : pl = 15 := BitVec.eq_of_toNat_eq hpl
  obtain ⟨ms, rfl, hms⟩ : ∃ ms, r = .measurements ms ∧ _ := hanswer
  exact ⟨t, ms, ol', hexec, hresults, hms, hol, htraces, hheld, hconfig, hlanes⟩

theorem toNat_ne_fifteen (h : assembleLength h0 h1 ≠ BitVec.ofNat 16 Config.sensorDataLength) :
    h0.toNat * 256 + h1.toNat ≠ 15 := fun h15 =>
  h (BitVec.eq_of_toNat_eq ((toNat_assembleLength h0 h1).trans h15))

/-- Settles O46: both tags are there and the length is not 15, before and after the clamping. -/
theorem badLengthFrameIsUnsupported : Obligations.BadLengthFrameIsUnsupported := by
  intro s f hi lo ol hc rest body hm hf ht hwf hcrc hbuf
  obtain ⟨hlength, -⟩ := Bool.and_eq_true_iff.1 hwf
  have hne := toNat_ne_fifteen (of_decide_eq_true hlength)
  obtain ⟨t, pl, ol', r, hexec, hclamped, hanswer, hresults, htraces, hheld, hconfig, hlanes⟩ :=
    exec_accepted rfl hwf hm hf ht (frameBytes_assembleLength _) hcrc hbuf
      fun _ _ h15 => absurd h15 hne
  have hpl : pl.toNat ≠ 15 := fun h15 => hne (eq_fifteen_of_clampedTo hclamped h15)
  obtain rfl : r = .unsupportedDataLength pl := by
    simpa [DecodeAnswer, Config.radioAdvanced, Config.ttVld9, hpl] using hanswer
  exact ⟨t, pl, ol', hexec, hresults, hclamped, htraces, hheld, hconfig, hlanes⟩

/-- Another telegram type or packet type ends the decode before the length is looked at (R181, R182). -/
theorem eq_none_of_decodeAnswer (hne : ¬ (h3 = 0x0A ∧ g = 0x24)) (h : DecodeAnswer s h3 g pl bytes r) :
    r = .none := by
  unfold DecodeAnswer at h
  split at h
  next => exact h
  next hpt =>
    rw [if_pos fun htt => hne ⟨not_not.1 hpt, htt⟩] at h
    exact h

/-- An accepted frame with a tag missing is ignored, whatever its payload (R254). -/
theorem exec_ignored (hi : i.fmt = .frame) (hwf : i.wf s.params = true) (hm : s.mode = .run)
    (hf : s.fsm = .seekSync) (ht : TableIs s f)
    (he : encode s.params i = Config.sync :: h0 :: h1 :: h2 :: h3 :: hc :: g :: rest)
    (hcrc : hc = crcOf f [h0, h1, h2, h3]) (hbuf : g :: rest = body ++ [crcOf f body])
    (hne : ¬ (h3 = 0x0A ∧ g = 0x24)) :
    ∃ t pl ol, exec i s = .next t ∧ t.results = s.results ++ [.none] ∧
      ClampedTo (h0.toNat * 256 + h1.toNat) h2.toNat pl ol ∧
      t.traces = s.traces ++ [.frameAccepted pl ol h3 hc] ∧
      FrameHeld s t h0 h1 h2 h3 hc pl ol (g :: rest) ∧ SameConfig s t ∧ SameLanes s t := by
  obtain ⟨t, pl, ol, r, hexec, hclamped, hanswer, hresults, hdone⟩ :=
    exec_accepted hi hwf hm hf ht he hcrc hbuf fun hpt htt => absurd ⟨hpt, htt⟩ hne
  obtain rfl := eq_none_of_decodeAnswer hne hanswer
  exact ⟨t, pl, ol, hexec, hresults, hclamped, hdone⟩

/-- Settles O47: for each of the two rows one tag is missing, which is what its class says. -/
theorem otherFramesAreIgnored : Obligations.OtherFramesAreIgnored := by
  intro s f hi lo ol pt hc g rest body hm hf ht hbuf
  refine ⟨fun hwf hcrc => ?radioOther, fun hwf hcrc => ?other⟩
  case radioOther =>
    obtain ⟨hg, -⟩ := Bool.and_eq_true_iff.1 hwf
    exact exec_ignored rfl hwf hm hf ht (frameBytes_assembleLength _) hcrc hbuf
      fun ⟨_, htt⟩ => of_decide_eq_true hg htt
  case other =>
    obtain ⟨hpt, -⟩ := Bool.and_eq_true_iff.1 hwf
    exact exec_ignored rfl hwf hm hf ht (frameBytes_assembleLength _) hcrc hbuf
      fun ⟨hradio, _⟩ => of_decide_eq_true hpt hradio

end Sys2Proof.Proofs.FrameRows
end

section
/-! The CRC-8 Engine (40_crc8.md), O14 to O17. The loop of R120 over a longer sequence goes on where the
loop over the shorter one stopped, whatever the table holds; so one more byte costs one more lookup (R122),
and the short ranges are where it starts (R123, R128). -/

namespace Sys2Proof.Proofs.Crc

open Sys2Proof Sys2Proof.Machine
open Sys2Proof.Proofs.FrozenTables (sameConfig_refl)

variable {t t' : Memory Byte} {f : Byte → Byte} {data data' : List Byte} {offset offset' count : Nat}
  {b v : Byte} {s : State}

/-! ### The range and the loop -/

theorem crc8_of_le (h : offset + count ≤ data.length) :
    crc8 t data offset count = crcFold t Config.crcInit ((data.drop offset).take count) :=
  if_neg (Nat.not_lt.2 h)

theorem crc8_of_gt (h : data.length < offset + count) :
    crc8 t data offset count = .error .outOfRange :=
  if_pos h

theorem crcFold_append (c : Byte) (bs cs : List Byte) :
    crcFold t c (bs ++ cs) = (crcFold t c bs >>= fun c => crcFold t c cs) := by
  induction bs generalizing c with
  | nil => rfl
  | cons b bs ih =>
    simp only [List.cons_append, crcFold, ih]
    cases tableEntry t (c ^^^ b) with
    | ok c => rfl
    | error e => rfl

theorem crcFold_singleton (c b : Byte) : crcFold t c [b] = tableEntry t (c ^^^ b) := by
  cases h : tableEntry t (c ^^^ b) with
  | ok c => simp [crcFold, h]
  | error e => simp [crcFold, h]

theorem take_drop_succ (hb : data[offset + count]? = some b) :
    (data.drop offset).take (count + 1) = (data.drop offset).take count ++ [b] := by
  rw [List.take_add_one, List.getElem?_drop, hb, Option.toList_some]

/-! ### The laws of short and of longer ranges -/

theorem crc8_zero (h : offset ≤ data.length) : crc8 t data offset 0 = .ok 0 := by
  rw [crc8_of_le h, List.take_zero]
  rfl

/-- R122 for every table: where an entry on the way is missing, both sides are the same fault. -/
theorem crc8_succ (hb : data[offset + count]? = some b) :
    crc8 t data offset (count + 1) =
      (crc8 t data offset count >>= fun c => tableEntry t (c ^^^ b)) := by
  obtain ⟨hlt, -⟩ := List.getElem?_eq_some_iff.1 hb
  rw [crc8_of_le (count := count + 1) hlt, crc8_of_le hlt.le, take_drop_succ hb, crcFold_append]
  simp only [crcFold_singleton]

/-- R128, wherever the byte stands. -/
theorem crc8_one (hb : data[offset]? = some b) : crc8 t data offset 1 = tableEntry t b := by
  obtain ⟨hlt, -⟩ := List.getElem?_eq_some_iff.1 hb
  rw [crc8_succ (count := 0) hb, crc8_zero hlt.le, ok_bind]
  exact congrArg (tableEntry t) BitVec.zero_xor

/-- Settles O15: over a total table the shorter CRC is a byte `c`, and the next lookup is at `c ^^^ b`. -/
theorem crcIsIncremental : Obligations.CrcIsIncremental := by
  intro m f data offset count b hm hb
  obtain ⟨hlt, -⟩ := List.getElem?_eq_some_iff.1 hb
  have hshort := crc8_of_total hm hlt.le
  refine ⟨_, hshort, ?_⟩
  rw [crc8_succ hb, hshort, ok_bind]
  exact tableEntry_eq_ok.2 (hm _)

/-- Settles O17: the loop does not run, or it runs once from 0. -/
theorem crcOfShortRanges : Obligations.CrcOfShortRanges := fun _ _ _ =>
  ⟨crc8_zero, fun _ _ hb hv => (crc8_one hb).trans (tableEntry_eq_ok.2 hv)⟩

/-! ### Locality -/

theorem tableEntry_congr (h : ∀ i, i < 256 → t.read i = t'.read i) (i : Byte) :
    tableEntry t i = tableEntry t' i :=
  congrArg (need .t) (h i.toNat i.isLt)

theorem crcFold_congr (h : ∀ i, i < 256 → t.read i = t'.read i) (c : Byte) (bs : List Byte) :
    crcFold t c bs = crcFold t' c bs := by
  induction bs generalizing c with
  | nil => rfl
  | cons b bs ih => simp only [crcFold, tableEntry_congr h, ih]

theorem take_drop_congr (h : ∀ j, j < count → data[offset + j]? = data'[offset' + j]?) :
    (data.drop offset).take count = (data'.drop offset').take count := by
  refine List.ext_getElem? fun j => ?_
  by_cases hj : j < count
  · simpa only [List.getElem?_take_of_lt hj, List.getElem?_drop] using h j hj
  · rw [List.getElem?_take_eq_none (Nat.not_lt.1 hj), List.getElem?_take_eq_none (Nat.not_lt.1 hj)]

/-- Settles O16: the two ranges are one sequence, and over it the two tables are read alike. -/
theorem crcDependsOnlyOnTheRange : Obligations.CrcDependsOnlyOnTheRange := by
  intro m m' d d' o o' n hm hr hr' hd
  rw [crc8_of_le hr, crc8_of_le hr', take_drop_congr hd]
  exact crcFold_congr hm _ _

/-! ### `CRC8` run alone -/

/-- Over a total table the engine always answers, on the port (R120, R121, R251). -/
theorem execCrc8_of_total (ht : TableIs s f) :
    execCrc8 offset count data s = .next (s.setPort (if offset + count ≤ data.length then
      .crc (crcOf f ((data.drop offset).take count)) else .outOfRange)) := by
  unfold execCrc8
  by_cases hr : offset + count ≤ data.length
  · rw [crc8_of_total ht hr, if_pos hr]
  · rw [crc8_of_gt (Nat.lt_of_not_le hr), if_neg hr]

/-- The first lookup over one byte is at that byte: an entry never written cannot be read (R22, K18). -/
theorem execCrc8_of_unwritten (h : s.t.read b.toNat = none) :
    execCrc8 0 1 [b] s = .fault (.noValue .t) := by
  have hentry : tableEntry s.t b = .error (.noValue .t) := congrArg (need .t) h
  unfold execCrc8
  rw [crc8_one rfl, hentry]

/-- Settles O14: only the port is written, so each clause of the frame is a field that stays. -/
theorem crcOfTheRangeOrOutOfRange : Obligations.CrcOfTheRangeOrOutOfRange :=
  ⟨fun s _ _ _ _ ht => ⟨_, execCrc8_of_total ht, rfl, sameConfig_refl s, ⟨rfl, rfl⟩,
      ⟨rfl, rfl, rfl, rfl, rfl, rfl⟩, ⟨rfl, rfl⟩, rfl⟩,
    fun _ _ => execCrc8_of_unwritten⟩

end Sys2Proof.Proofs.Crc
end

section
/-! The Frame Synchronizer (41_frame_sync.md), O18 to O30: each operation run where its *Condition* holds,
and the dispatch of R140 to them. What a compound step answers is said by its laws; here its state is
compared register by register. A data CRC byte that has arrived is described once, by `BodyReceived`. -/

namespace Sys2Proof.Proofs.FrameSync

open Sys2Proof Sys2Proof.Machine
open Sys2Proof.Proofs.Scope
  (exec_byte byteStep_sync byteStep_header byteStep_headerCrc byteStep_body)
open Sys2Proof.Proofs.FrozenTables (sameConfig_refl)

variable {s : State} {f : Byte → Byte} {b dc h0 h1 h2 h3 ol pt hc ol0 : Byte} {pl pl0 : BitVec 16}
  {bs : List Byte} {x : Trace}

/-! ### The operations where their conditions hold -/

theorem exec_seekSkip (hf : s.fsm = .seekSync) (hb : b ≠ Config.sync) :
    exec (.seekSkip b) s = .next s := if_pos ⟨hf, hb⟩

theorem exec_seekSync (hf : s.fsm = .seekSync) : exec .seekSync s = .next (seekSync s) := if_pos hf

theorem exec_hdrStore (hf : s.fsm = .readHeader) (hi : s.idx.toNat < 4) :
    exec (.hdrStore b) s = .next (hdrStore b s) := if_pos ⟨hf, hi⟩

theorem exec_hdrCheck (hf : s.fsm = .readHeader) (hi : s.idx.toNat = 4) :
    exec (.hdrCheck b) s = toOut (hdrCheck b s) := if_pos ⟨hf, hi⟩

theorem exec_bodyStore (hf : s.fsm = .readBody) : exec (.bodyStore b) s = toOut (bodyStore b s) :=
  if_pos hf

theorem exec_hdrFields (hacc : s.headerAccepted = true) (hf : s.fsm ≠ .idle)
    (hh : HeaderIs s h0 h1 h2 h3) :
    exec .hdrFields s = .next ((s.setPtype h3).setPort (.lengths (assembleLength h0 h1) h2)) := by
  have hguard : exec .hdrFields s = toOut (do
      let (s, pl0, ol0) ← hdrFields s
      pure (s.setPort (.lengths pl0 ol0))) := if_pos hacc
  rw [hguard, hdrFields_ok hf hh]
  rfl

theorem exec_lenClamp (hacc : s.headerAccepted = true) (hpt : s.ptype = some pt) :
    exec (.lenClamp pl0 ol0) s = .next (lenClamp pl0 ol0 s) :=
  if_pos ⟨hacc, Option.isSome_of_eq_some hpt⟩

theorem exec_bodyEnter (hacc : s.headerAccepted = true) (hpt : s.ptype = some pt)
    (hpl : s.plen = some pl) (hol : s.olen = some ol) : exec .bodyEnter s = .next (bodyEnter s) :=
  if_pos ⟨hacc, Option.isSome_of_eq_some hpt, Option.isSome_of_eq_some hpl,
    Option.isSome_of_eq_some hol⟩

/-- The guard of the operations behind the data CRC byte (R149, R150). -/
theorem bodyComplete_ok (hf : s.fsm = .readBody) (hpl : s.plen = some pl) (hol : s.olen = some ol)
    (hi : s.idx.toNat = pl.toNat + ol.toNat) (hb : s.body.read s.idx.toNat = some b) :
    s.bodyComplete = true := by
  simp [State.bodyComplete, hf, hb, bodyLen_ok hf hpl hol, ← hi]

theorem exec_bodyCheck (hdone : s.bodyComplete = true) : exec .bodyCheck s = toOut (bodyCheck s) :=
  if_pos hdone

theorem exec_frameEnd (hdone : s.bodyComplete = true) : exec .frameEnd s = .next (frameEnd s) :=
  if_pos hdone

/-! ### The dispatch and the sync search -/

theorem byteStep_skip (hf : s.fsm = .seekSync) (hb : b ≠ Config.sync) : byteStep b s = .ok s := by
  simp [byteStep, hf, hb, seekSkip]

/-- Settles O18: in each position the byte step is the meaning of the one operation, whose condition the
position is. -/
theorem byteDispatchesOnPosition : Obligations.ByteDispatchesOnPosition := by
  intro s b hm hne hidx
  rw [exec_byte hm hne]
  cases hf : s.fsm with
  | idle => exact absurd hf hne
  | seekSync =>
    by_cases hb : b = Config.sync
    · subst hb
      rw [byteStep_sync hf, exec_seekSync hf]
      rfl
    · rw [byteStep_skip hf hb, exec_seekSkip hf hb, exec_seekSync hf]
      exact (if_pos hb).symm
  | readHeader =>
    by_cases hi : s.idx.toNat < 4
    · simp only [if_pos hi, byteStep_header hf hi, exec_hdrStore hf hi, toOut_ok]
    · have hle := hidx.resolve_right (not_not.2 hf)
      have hfour : s.idx.toNat = 4 := by omega
      simp only [if_neg hi, byteStep_headerCrc hf (BitVec.eq_of_toNat_eq hfour),
        exec_hdrCheck hf hfour]
  | readBody => simp only [byteStep_body hf, exec_bodyStore hf]

/-- Settles O19: of the two byte steps in `SEEK_SYNC` one is the identity and one writes the position. -/
theorem syncSearchSkipsUntilSync : Obligations.SyncSearchSkipsUntilSync := by
  intro s b hm hf
  have hne : s.fsm ≠ .idle := by simp [hf]
  refine ⟨fun hb => ⟨exec_seekSkip hf hb, ?_⟩, seekSync s, exec_seekSync hf, ?_, rfl, rfl,
    sameConfig_refl s, ⟨rfl, rfl, rfl, rfl, rfl, rfl⟩, ⟨rfl, rfl⟩, ⟨rfl, rfl⟩⟩
  · rw [exec_byte hm hne, byteStep_skip hf hb, toOut_ok]
  · exact (exec_byte hm hne).trans (congrArg toOut (byteStep_sync hf))

/-! ### The header -/

/-- Counting does not wrap where a byte of a header or of a body is stored (R27). -/
theorem toNat_idx_succ (hi : s.idx.toNat < 128) : (s.idx + 1).toNat = s.idx.toNat + 1 := by bv_omega

/-- Settles O20: one write of `HDR` and the counter. -/
theorem headerByteIsStoredAndCounted : Obligations.HeaderByteIsStoredAndCounted := by
  intro s b hf hi
  exact ⟨hdrStore b s, exec_hdrStore hf hi, Memory.read_write_same _ _ _,
    fun _ hj => Memory.read_write_other _ hj _, toNat_idx_succ (s := s) (by omega),
    rfl, rfl, rfl, rfl, rfl, rfl, sameConfig_refl s, ⟨rfl, rfl⟩, ⟨rfl, rfl⟩⟩

/-- Settles O21: the check stores the fields, clamps the lengths that they spell, and enters the body. -/
theorem matchingHeaderEntersBody : Obligations.MatchingHeaderEntersBody := by
  intro s f h0 h1 h2 h3 hf hi ht hh
  have hexec := (exec_hdrCheck (b := crcOf f [h0, h1, h2, h3]) hf hi).trans
    (congrArg toOut (hdrCheck_good ht (by simp [hf]) hh))
  refine ⟨_, hexec, rfl, rfl, ⟨_, _, rfl, rfl, ?_⟩, rfl, rfl, rfl, rfl, sameConfig_refl s, ⟨rfl, rfl⟩,
    ⟨rfl, rfl⟩⟩
  rw [← toNat_assembleLength]
  exact clampedTo_clamp _ _

/-- Settles O22: the check keeps the byte in `HCRC`, traces the header and seeks again. -/
theorem mismatchingHeaderResynchronizes : Obligations.MismatchingHeaderResynchronizes := by
  intro s f h0 h1 h2 h3 b hf hi ht hh hb
  have hexec := (exec_hdrCheck (b := b) hf hi).trans
    (congrArg toOut (hdrCheck_bad ht (by simp [hf]) hh hb))
  exact ⟨_, hexec, rfl, rfl, rfl, rfl, rfl, rfl, rfl, rfl, rfl, rfl, sameConfig_refl s, ⟨rfl, rfl⟩⟩

/-- Settles O23: `HDR[3]` is the packet type, and the first two bytes are one number. -/
theorem headerFieldsAreAssembled : Obligations.HeaderFieldsAreAssembled := by
  intro s f h0 h1 h2 h3 hf hi ht hh hc
  exact ⟨_, _, exec_hdrFields (headerAccepted_ok hf hi ht hh hc) (by simp [hf]) hh, rfl, rfl,
    toNat_assembleLength h0 h1, rfl, rfl, rfl, rfl, rfl, sameConfig_refl s, ⟨rfl, rfl⟩, ⟨rfl, rfl⟩,
    rfl⟩

/-- Settles O24: the policy of R146 in its three cases, of which each bounds the sum by 128. -/
theorem lengthsAreClamped : Obligations.LengthsAreClamped := by
  intro s f h0 h1 h2 h3 pt pl0 ol0 hf hi ht hh hc hpt
  have hclamped := clampedTo_clamp pl0 ol0
  obtain ⟨hplen, hsum⟩ := hclamped.le
  exact ⟨_, _, _, exec_lenClamp (headerAccepted_ok hf hi ht hh hc) hpt, rfl, rfl, hclamped, hplen,
    hsum, rfl, rfl, rfl, rfl, sameConfig_refl s, ⟨rfl, rfl⟩, ⟨rfl, rfl⟩, ⟨rfl, rfl⟩⟩

/-- Settles O25: only the position is written. -/
theorem bodyIsEnteredAtItsStart : Obligations.BodyIsEnteredAtItsStart := by
  intro s f h0 h1 h2 h3 pt pl ol hf hi ht hh hc hpt hpl hol
  exact ⟨_, exec_bodyEnter (headerAccepted_ok hf hi ht hh hc) hpt hpl hol, rfl, rfl,
    sameConfig_refl s, ⟨rfl, rfl, rfl, rfl, rfl, rfl⟩, ⟨rfl, rfl⟩, ⟨rfl, rfl⟩⟩

/-! ### The body before its last byte -/

/-- Settles O26: one write of `BODY` and the counter. -/
theorem bodyByteIsStoredAndCounted : Obligations.BodyByteIsStoredAndCounted := by
  intro s b pl ol hf hpl hol hle hi
  have hexec := (exec_bodyStore (b := b) hf).trans
    (congrArg toOut (bodyStore_more hf hpl hol hle hi))
  exact ⟨_, hexec, Memory.read_write_same _ _ _, fun _ hj => Memory.read_write_other _ hj _,
    toNat_idx_succ (s := s) (by omega), rfl, rfl, rfl, rfl, rfl, rfl, sameConfig_refl s, ⟨rfl, rfl⟩,
    ⟨rfl, rfl⟩⟩

/-- Settles O30: only `FSM` is written. -/
theorem frameEndReturnsToIdle : Obligations.FrameEndReturnsToIdle := by
  intro s pl ol dc hf hpl hol hi hdc
  exact ⟨_, exec_frameEnd (bodyComplete_ok hf hpl hol hi hdc), rfl, rfl, sameConfig_refl s,
    ⟨rfl, rfl, rfl, rfl, rfl, rfl⟩, ⟨rfl, rfl⟩, ⟨rfl, rfl⟩⟩

/-! ### The data CRC byte -/

/-- The body buffer `bs` and the data CRC byte `dc` behind it are stored in `BODY`, behind an accepted
header, in a unit whose tables are those of `RUN` (R43 (b), (d)). -/
structure BodyReceived (s : State) (f : Byte → Byte) (pl : BitVec 16) (ol pt hc : Byte)
    (bs : List Byte) (dc : Byte) : Prop where
  fsm : s.fsm = .readBody
  plen : s.plen = some pl
  olen : s.olen = some ol
  ptype : s.ptype = some pt
  hcrc : s.hcrc = some hc
  sum_le : pl.toNat + ol.toNat ≤ 128
  table : TableIs s f
  length : bs.length = pl.toNat + ol.toNat
  body : BodyIs s (bs ++ [dc])
  np_le : s.np ≤ s.params.maxFields
  entries : EntriesLegal s s.np

namespace BodyReceived

/-- The decode has every byte that it reads, `BODY[0]` even where the body buffer is empty (R182). -/
theorem tgDecode_ok (h : BodyReceived s f pl ol pt hc bs dc) : ∃ r, tgDecode s = .ok r := by
  have hlen := h.length
  have hfirst : s.body.read 0 = some (bs ++ [dc])[0] :=
    (h.body 0 (by simp)).trans (List.getElem?_eq_getElem _)
  have hsensor (h15 : pl.toNat = 15) (j : Nat) (hj : j < 9) :
      s.body.read (5 + j) = ((bs.drop 5).take 9)[j]? := by
    rw [h.body _ (by simp; omega), List.getElem?_append_left (by omega), List.getElem?_take_of_lt hj,
      List.getElem?_drop]
  obtain ⟨r, hr, -⟩ := Machine.tgDecode_ok (by simp [h.fsm]) h.ptype hfirst h.plen fun _ _ h15 =>
    ⟨by simp; omega, hsensor h15, h.np_le, h.entries⟩
  exact ⟨r, hr⟩

/-- The decoder does not read the outputs (R180). -/
theorem tgDecode_emitTrace : tgDecode (s.emitTrace x) = tgDecode s := rfl

/-- A data CRC byte that matches: the frame is traced, and decoded (R149). -/
theorem bodyCheck_good (h : BodyReceived s f pl ol pt hc bs (crcOf f bs)) :
    ∃ r, tgDecode s = .ok r ∧
      bodyCheck s = .ok ((s.emitTrace (.frameAccepted pl ol pt hc)).emitResult r) := by
  obtain ⟨r, hr⟩ := h.tgDecode_ok
  refine ⟨r, hr, ?_⟩
  rw [bodyCheck_eq h.fsm h.plen h.olen h.ptype h.hcrc h.sum_le h.table h.length h.body, if_pos rfl,
    tgDecode_emitTrace, hr, ok_bind, pure_ok]

theorem bodyCheck_bad (h : BodyReceived s f pl ol pt hc bs dc) (hdc : dc ≠ crcOf f bs) :
    bodyCheck s = .ok (s.emitResult .invalidDataCrc) :=
  Machine.bodyCheck_bad h.fsm h.plen h.olen h.sum_le h.table h.length h.body hdc

end BodyReceived

theorem exec_tgDecode {r : Result} (hr : tgDecode s = .ok r) :
    exec .tgDecode s = .next (s.emitResult r) := by
  have hexec : exec .tgDecode s = toOut (do let r ← tgDecode s; pure (s.emitResult r)) := rfl
  rw [hexec, hr, ok_bind, pure_ok, toOut_ok]

/-- Settles O27: the byte is stored, the check emits `InvalidDataCrc`, and the attempt ends. -/
theorem badDataCrcEndsTheAttempt : Obligations.BadDataCrcEndsTheAttempt := by
  intro s f b pl ol bs hf hpl hol hle hi ht hlen hbs hb
  have hbody : BodyIs (s.writeBody s.idx.toNat b) (bs ++ [b]) := bodyIs_write hbs (hi.trans hlen.symm)
  have hcheck : bodyCheck (s.writeBody s.idx.toNat b) =
      .ok ((s.writeBody s.idx.toNat b).emitResult .invalidDataCrc) :=
    bodyCheck_bad hf hpl hol hle ht hlen hbody hb
  have hexec := exec_bodyStore (b := b) hf
  rw [bodyStore_last hf hpl hol hle hi, hcheck, ok_bind, pure_ok, toOut_ok] at hexec
  exact ⟨_, hexec, rfl, rfl, rfl, rfl, Memory.read_write_same _ _ _,
    fun _ hj => Memory.read_write_other _ hj _, rfl, rfl, rfl, rfl, rfl, sameConfig_refl s, ⟨rfl, rfl⟩⟩

/-- Settles O28: the check writes outputs only, and those of a match are the trace and what the decode
emits. -/
theorem bodyCheckDecidesOnTheDataCrc : Obligations.BodyCheckDecidesOnTheDataCrc := by
  intro s f pl ol pt hc bs dc hf hpl hol hpt hhc hle hi ht hlen hbs hnp hentries
  have hbody : BodyReceived s f pl ol pt hc bs dc :=
    ⟨hf, hpl, hol, hpt, hhc, hle, ht, hlen, hbs, hnp, hentries⟩
  have hdc : s.body.read s.idx.toNat = some dc := by
    rw [hi, ← hlen, hbs _ (by simp), List.getElem?_concat_length]
  have hexec := exec_bodyCheck (bodyComplete_ok hf hpl hol hi hdc)
  by_cases hmatch : dc = crcOf f bs
  · subst hmatch
    obtain ⟨r, hr, hcheck⟩ := hbody.bodyCheck_good
    rw [hcheck, toOut_ok] at hexec
    refine ⟨_, hexec, ?_, sameConfig_refl s, ⟨rfl, rfl⟩, ⟨rfl, rfl, rfl, rfl, rfl, rfl⟩, ⟨rfl, rfl⟩⟩
    rw [if_pos rfl]
    exact ⟨rfl, _, exec_tgDecode hr, rfl⟩
  · rw [hbody.bodyCheck_bad hmatch, toOut_ok] at hexec
    refine ⟨_, hexec, ?_, sameConfig_refl s, ⟨rfl, rfl⟩, ⟨rfl, rfl, rfl, rfl, rfl, rfl⟩, ⟨rfl, rfl⟩⟩
    rw [if_neg hmatch]
    exact ⟨rfl, rfl⟩

/-- Settles O29: the byte is stored, the check traces and decodes the state so reached, and the attempt
ends. -/
theorem goodDataCrcDecodesAndEnds : Obligations.GoodDataCrcDecodesAndEnds := by
  intro s f pl ol pt hc bs hf hpl hol hpt hhc hle hi ht hlen hbs hnp hentries
  have hbody : BodyReceived (s.writeBody s.idx.toNat (crcOf f bs)) f pl ol pt hc bs (crcOf f bs) :=
    ⟨hf, hpl, hol, hpt, hhc, hle, ht, hlen, bodyIs_write hbs (hi.trans hlen.symm), hnp, hentries⟩
  obtain ⟨r, hr, hcheck⟩ := hbody.bodyCheck_good
  have hexec := exec_bodyStore (b := crcOf f bs) hf
  rw [bodyStore_last hf hpl hol hle hi, hcheck, ok_bind, pure_ok, toOut_ok] at hexec
  exact ⟨_, _, hexec, exec_tgDecode hr, rfl, List.length_append, rfl, rfl, rfl,
    Memory.read_write_same _ _ _, fun _ hj => Memory.read_write_other _ hj _, rfl, rfl, rfl, rfl, rfl,
    sameConfig_refl s, ⟨rfl, rfl⟩⟩

end Sys2Proof.Proofs.FrameSync
end

section
/-! The Frame Synchronizer (41_frame_sync.md), O58: what a state that keeps the invariant accepts,
completes (R157). What R43 promises of a position is what the operation there reads; so every byte step
completes, a frame is byte steps, and `START` has its verdict. Where an input is not accepted it has no
step (R230), and by O56 a sequence of inputs goes on from a state that keeps the invariant. -/

namespace Sys2Proof.Proofs.Completion

open Sys2Proof Sys2Proof.Machine
open Sys2Proof.Proofs.Scope (exec_frame parametersAndQueueAreNotWritten)
open Sys2Proof.Proofs.Invariant
  (run_of_fsm_ne_idle byteStep_keepsInv exec_keepsInv)
open Sys2Proof.Proofs.FrameSync (BodyReceived)

variable {s : State} {b : Byte} {o : Out} {i : Instr} {acc : Bool}

/-! ### What the invariant promises, as values -/

/-- A table of which every entry is written is a total function (R8, R22). -/
theorem exists_tableIs (h : StorageInv s) (hw : AllWritten s) : ∃ f, TableIs s f := by
  obtain ⟨-, -, -, -, ht, -⟩ := h
  refine Classical.skolem.1 fun i : Byte => Option.isSome_iff_exists.1 ?_
  rw [ht, hw i.toNat i.isLt, Bool.and_true, decide_eq_true_eq]
  exact i.isLt

theorem exists_headerIs (h : ∀ i, i < 4 → (s.hdr.read i).isSome = true) :
    ∃ h0 h1 h2 h3, HeaderIs s h0 h1 h2 h3 := by
  obtain ⟨h0, hread0⟩ := Option.isSome_iff_exists.1 (h 0 (by omega))
  obtain ⟨h1, hread1⟩ := Option.isSome_iff_exists.1 (h 1 (by omega))
  obtain ⟨h2, hread2⟩ := Option.isSome_iff_exists.1 (h 2 (by omega))
  obtain ⟨h3, hread3⟩ := Option.isSome_iff_exists.1 (h 3 (by omega))
  exact ⟨h0, h1, h2, h3, hread0, hread1, hread2, hread3⟩

theorem exists_bodyIs {n : Nat} (h : ∀ i, i < n → (s.body.read i).isSome = true) :
    ∃ bs, bs.length = n ∧ BodyIs s bs := by
  induction n with
  | zero => exact ⟨[], rfl, fun i hi => absurd hi (Nat.not_lt_zero i)⟩
  | succ n ih =>
    obtain ⟨bs, rfl, hbs⟩ := ih fun i hi => h i (by omega)
    obtain ⟨b, hb⟩ := Option.isSome_iff_exists.1 (h bs.length (by omega))
    refine ⟨bs ++ [b], List.length_append, fun i hi => ?_⟩
    rw [List.length_append, List.length_singleton] at hi
    obtain hlt | rfl := Nat.lt_succ_iff_lt_or_eq.1 hi
    · rw [hbs i hlt, List.getElem?_append_left hlt]
    · rw [hb, List.getElem?_concat_length]

/-! ### Every step completes -/

/-- The header CRC byte: the table is total and the header is stored (R126, R144). -/
theorem hdrCheck_completes (h : UnitInv s) (hf : s.fsm = .readHeader) (hi : 4 ≤ s.idx.toNat) :
    ∃ t, hdrCheck b s = .ok t := by
  have hne : s.fsm ≠ .idle := by simp [hf]
  obtain ⟨-, hwritten, -, -⟩ := run_of_fsm_ne_idle h hne
  obtain ⟨hstorage, -, ⟨hheader, -⟩, -⟩ := h
  obtain ⟨-, hstored⟩ := hheader hf
  obtain ⟨f, htable⟩ := exists_tableIs hstorage hwritten
  obtain ⟨h0, h1, h2, h3, hh⟩ := exists_headerIs fun i hlt => hstored i (by omega)
  by_cases hb : b = crcOf f [h0, h1, h2, h3]
  · exact ⟨_, hb ▸ hdrCheck_good htable hne hh⟩
  · exact ⟨_, hdrCheck_bad htable hne hh hb⟩

/-- In `READ_BODY` with all but the last byte stored, any byte makes the body received (R43 (d)). -/
theorem exists_bodyReceived (h : UnitInv s) (hf : s.fsm = .readBody) {pl : BitVec 16} {ol : Byte}
    (hpl : s.plen = some pl) (hol : s.olen = some ol) (hi : s.idx.toNat = pl.toNat + ol.toNat) :
    ∃ f pt hc bs, BodyReceived (s.writeBody s.idx.toNat b) f pl ol pt hc bs b := by
  obtain ⟨-, hwritten, -, hentries⟩ := run_of_fsm_ne_idle h (by simp [hf])
  obtain ⟨hstorage, ⟨-, hsum⟩, ⟨-, hbody⟩, -⟩ := h
  obtain ⟨f, htable⟩ := exists_tableIs hstorage hwritten
  obtain ⟨-, -, -, -, -, -, -, hnp, -, -⟩ := hstorage
  obtain ⟨-, -, pt, hc, -, -, hpt, hhc, -, -, -, hstored⟩ := hbody hf
  obtain ⟨bs, hlen, hbs⟩ := exists_bodyIs hstored
  exact ⟨f, pt, hc, bs, hf, hpl, hol, hpt, hhc, hsum pl ol hpl hol, htable, hlen.trans hi,
    bodyIs_write hbs hlen.symm, hnp, hentries⟩

theorem bodyStore_completes (h : UnitInv s) (hf : s.fsm = .readBody) : ∃ t, bodyStore b s = .ok t := by
  have ⟨_, ⟨_, hsum⟩, ⟨_, hbody⟩, _⟩ := h
  obtain ⟨pl, ol, -, -, hpl, hol, -, -, -, hidx, -, -⟩ := hbody hf
  have hmax := hsum pl ol hpl hol
  obtain hlt | heq := Nat.lt_or_eq_of_le hidx
  · exact ⟨_, bodyStore_more hf hpl hol hmax hlt⟩
  · rw [bodyStore_last hf hpl hol hmax heq]
    obtain ⟨f, pt, hc, bs, hreceived⟩ := exists_bodyReceived (b := b) h hf hpl hol heq
    by_cases hb : b = crcOf f bs
    · obtain ⟨r, -, hcheck⟩ := (hb ▸ hreceived).bodyCheck_good
      exact ⟨_, bind_eq_ok.2 ⟨_, hb ▸ hcheck, rfl⟩⟩
    · exact ⟨_, bind_eq_ok.2 ⟨_, hreceived.bodyCheck_bad hb, rfl⟩⟩

theorem byteStep_completes (h : UnitInv s) (b : Byte) : ∃ t, byteStep b s = .ok t := by
  unfold byteStep
  split
  case h_1 => exact ⟨_, rfl⟩
  case h_2 => split <;> exact ⟨_, rfl⟩
  case h_3 hf =>
    split
    next => exact ⟨_, rfl⟩
    next hi => exact hdrCheck_completes h hf (Nat.le_of_not_lt hi)
  case h_4 hf => exact bodyStore_completes h hf

/-- Whatever the bytes are: each is a byte step from a state that keeps the invariant (R157). -/
theorem takeFrame_completes (h : UnitInv s) (bs : List Byte) : ∃ t, takeFrame bs s = .ok t := by
  induction bs generalizing s with
  | nil => exact ⟨s, rfl⟩
  | cons b bs ih =>
    obtain ⟨u, hu⟩ := byteStep_completes h b
    rw [takeFrame, hu, ok_bind]
    split
    · exact ih (byteStep_keepsInv h hu)
    · exact ⟨_, rfl⟩

theorem cfgCheck_completes (h : StorageInv s) : ∃ r, cfgCheck s = .ok r := by
  obtain ⟨-, -, -, -, -, hp, -, hnp, -, -⟩ := h
  obtain ⟨r, hv⟩ := exists_verdict (s := s) fun k hk => by simp [hp, hk]
  exact ⟨r, cfgCheck_of_verdict hnp hv⟩

/-! ### The answers to accepted and to other inputs -/

/-- The answer is a next state where the input is accepted, and "no step" where it is not (R230). -/
def AnswersAs (acc : Bool) (o : Out) : Prop := if acc then ∃ t, o = .next t else o = noStep

/-- An input is accepted exactly where its guard holds, and completes there. -/
theorem answersAs_guard {c : Prop} [Decidable c] (hacc : acc = true ↔ c) (h : c → ∃ t, o = .next t) :
    AnswersAs acc (if c then o else noStep) := by
  unfold AnswersAs
  by_cases hc : c
  · rw [if_pos (hacc.2 hc), if_pos hc]
    exact h hc
  · rw [if_neg (mt hacc.1 hc), if_neg hc]

theorem exists_toOut {x : Except Fault State} (h : ∃ t, x = .ok t) : ∃ t, toOut x = .next t := by
  obtain ⟨t, rfl⟩ := h
  exact ⟨t, rfl⟩

theorem seeking_iff : s.seeking = true ↔ s.mode = .run ∧ s.fsm = .seekSync := by
  simp [State.seeking]

/-- The sync search is part of an attempt, and an attempt runs only in `RUN` (R43 (a)). -/
theorem seeking_iff_fsm (h : UnitInv s) : s.seeking = true ↔ s.fsm = .seekSync := by
  refine seeking_iff.trans ⟨And.right, fun hf => ⟨?_, hf⟩⟩
  obtain ⟨hm, -⟩ := run_of_fsm_ne_idle h (by simp [hf])
  exact hm

/-- `START` in `UNCONFIGURED` (R234): some verdict holds of every configuration. -/
theorem start_completes (h : UnitInv s) :
    ∃ t, toOut (do let r ← cfgCheck s; pure (s.takeOutcome r)) = .next t := by
  obtain ⟨hstorage, -⟩ := h
  obtain ⟨r, hr⟩ := cfgCheck_completes hstorage
  exact ⟨s.takeOutcome r, by rw [hr]; rfl⟩

theorem accepts_frame (hi : i.fmt = .frame) : accepts s i = s.seeking := by
  cases i with
  | fVld9 | fVld9BadLen | fRadioOther | fOther => rfl
  | _ => cases hi

theorem exec_frame_answersAs (h : UnitInv s) (hi : i.fmt = .frame) :
    AnswersAs (accepts s i) (exec i s) := by
  rw [exec_frame hi, accepts_frame hi]
  exact answersAs_guard Iff.rfl fun _ => exists_toOut (takeFrame_completes h _)

/-- Every event, byte and frame completes where it is accepted, and has no step elsewhere (R157, R230). -/
theorem exec_answersAs (h : UnitInv s) (hi : i.fmt ≠ .op) : AnswersAs (accepts s i) (exec i s) := by
  cases i with
  | reset => exact ⟨_, rfl⟩
  | cfgCrcWrite | cfgParamPush =>
    exact answersAs_guard decide_eq_true_iff fun _ => ⟨_, rfl⟩
  | start => exact answersAs_guard decide_eq_true_iff fun _ => start_completes h
  | readFrame => exact answersAs_guard (by simp [accepts]) fun _ => ⟨_, rfl⟩
  | byte b => exact answersAs_guard Iff.rfl fun _ => exists_toOut (byteStep_completes h b)
  | ioerr => exact answersAs_guard Iff.rfl fun _ => ⟨_, rfl⟩
  | seekSync => exact answersAs_guard (seeking_iff_fsm h) fun _ => ⟨_, rfl⟩
  | seekSkip b =>
    exact answersAs_guard (by simp [accepts, seeking_iff_fsm h]) fun _ => ⟨_, rfl⟩
  | fVld9 | fVld9BadLen | fRadioOther | fOther => exact exec_frame_answersAs h rfl
  | _ => exact absurd rfl hi

/-- The operations inside a step are not offered from outside (R112). -/
theorem accepts_op (hi : i.fmt = .op) : accepts s i = false := by
  cases i with
  | reset | cfgCrcWrite | cfgParamPush | start | readFrame | byte | ioerr => cases hi
  | seekSync | seekSkip | fVld9 | fVld9BadLen | fRadioOther | fOther => cases hi
  | _ => rfl

theorem exec_completes (h : UnitInv s) (hacc : accepts s i = true) : ∃ t, exec i s = .next t := by
  have hi : i.fmt ≠ .op := fun hop => Bool.noConfusion ((accepts_op hop).symm.trans hacc)
  have hanswer := exec_answersAs h hi
  rwa [hacc] at hanswer

/-! ### Sequences of inputs -/

/-- A well-formed entry has the unit's widths (R24). -/
theorem fits_of_wf (hwf : i.wf s.params = true) (e : Entry) (he : i = .cfgParamPush e) :
    e.fits s.params = true := by
  subst he
  exact (Bool.and_eq_true_iff.1 hwf).2

/-- After each input the invariant holds and the parameters are the same, so that the next one is
well-formed still (R239). -/
theorem runAll_completes {is : List Instr} (h : UnitInv s)
    (his : ∀ i ∈ is, i.fmt ≠ .op ∧ i.wf s.params = true) : ∃ t, runAll is s = .next t := by
  induction is generalizing s with
  | nil => exact ⟨s, rfl⟩
  | cons i is ih =>
    obtain ⟨⟨hi, hwf⟩, hrest⟩ := List.forall_mem_cons.1 his
    have hanswer := exec_answersAs h hi
    unfold AnswersAs at hanswer
    split at hanswer
    · obtain ⟨u, hu⟩ := hanswer
      obtain ⟨hparams, -⟩ := parametersAndQueueAreNotWritten s u i hu
      obtain ⟨t, ht⟩ := ih (exec_keepsInv h (fits_of_wf hwf) u hu) (hparams ▸ hrest)
      exact ⟨t, by rw [runAll, hu]; exact ht⟩
    · obtain ⟨t, ht⟩ := ih h hrest
      exact ⟨t, by rw [runAll, hanswer]; exact ht⟩

/-- Settles O58: an accepted input completes, and a sequence of inputs is completed one by one. -/
theorem acceptedEventsComplete : Obligations.AcceptedEventsComplete :=
  ⟨fun _ _ h hacc => exec_completes h hacc, fun _ _ h his => runAll_completes h his⟩

end Sys2Proof.Proofs.Completion
end

section
/-! The Telegram Decoder (42_telegram_decode.md), O31 to O35. A filter run alone is a test on one stored
value; what such a test leaves is said once, for any test, and each filter says only which value it
compares with what. The nine sensor bytes and the decode go through the laws of Laws/Telegram.lean. -/

namespace Sys2Proof.Proofs.Telegram

open Sys2Proof Sys2Proof.Machine
open Sys2Proof.Proofs.FrozenTables (sameConfig_refl)
open Sys2Proof.Proofs.FrameSync (exec_tgDecode)

variable {s : State} {pt tt : Byte} {pl : BitVec 16} {α : Type} {r : Reg}

/-! ### What each filter says -/

/-- R34, K14: inside an attempt the fault names the register that is read. -/
theorem live_none (hf : s.fsm ≠ .idle) : s.live r (none : Option α) = .error (.noValue r) := if_neg hf

theorem tgPtype_ok (hf : s.fsm ≠ .idle) (hpt : s.ptype = some pt) :
    tgPtype s = .ok (if pt = 0x0A then .go () else .ends .none) := by
  rw [tgPtype, readPtype_eq_ok.2 ⟨hf, hpt⟩]
  rfl

theorem tgPtype_absent (hf : s.fsm ≠ .idle) (hpt : s.ptype = none) :
    tgPtype s = .error (.noValue .ptype) := by
  rw [tgPtype, State.readPtype, hpt, live_none hf, error_bind]

/-- The type that passes is known, so it stands for `BODY[0]` on the port (R182). -/
theorem tgTtype_ok (hf : s.fsm ≠ .idle) (htt : s.body.read 0 = some tt) :
    tgTtype s = .ok (if tt = 0x24 then .go 0x24 else .ends .none) := by
  have hread : s.readBody 0 = .ok tt := readBody_eq_ok.2 ⟨by decide, hf, htt⟩
  rw [tgTtype, hread]
  by_cases h : tt = 0x24
  · subst h
    rfl
  · rw [if_neg h]
    exact congrArg Except.ok (if_neg h)

theorem tgTtype_absent (hf : s.fsm ≠ .idle) (htt : s.body.read 0 = none) :
    tgTtype s = .error (.noValue .body) := by
  have hread : s.readBody 0 = s.live .body (s.body.read 0) := if_pos (by decide)
  rw [tgTtype, hread, htt, live_none hf, error_bind]

/-- Past the guard `actual_data_length` is `15 - 5 - 1` (R183). -/
theorem tgLguard_ok (hf : s.fsm ≠ .idle) (hpl : s.plen = some pl) :
    tgLguard s = .ok (if pl.toNat = 15 then .go 9 else .ends (.unsupportedDataLength pl)) := by
  rw [tgLguard, readPlen_eq_ok.2 ⟨hf, hpl⟩, ok_bind, pure_ok]
  by_cases h : pl.toNat = 15
  · rw [h]
    rfl
  · rw [if_neg h]
    exact congrArg Except.ok (if_neg h)

theorem tgLguard_absent (hf : s.fsm ≠ .idle) (hpl : s.plen = none) :
    tgLguard s = .error (.noValue .plen) := by
  rw [tgLguard, State.readPlen, hpl, live_none hf, error_bind]

/-! ### A test run alone -/

/-- A test hands its value on where its condition holds, and emits one `Result` where not; no register
is written (R180, R260). -/
theorem runTest_answers {v : Except Fault (Verdict α)} {port : α → PortValue} {c : Prop} [Decidable c]
    {x : α} {e : Result} (hv : v = .ok (if c then .go x else .ends e)) :
    ∃ t, toOut (runTest v port s) = .next t ∧
      (if c then t.results = s.results ∧ t.port = some (port x)
        else t.results = s.results ++ [e] ∧ t.port = some .decodeEnded) ∧
      t.traces = s.traces ∧ SameConfig s t ∧ SamePos s t ∧ SameFrame s t ∧ t.input = s.input := by
  subst hv
  by_cases h : c
  · simp only [if_pos h]
    exact ⟨s.setPort (port x), rfl, ⟨rfl, rfl⟩, rfl, sameConfig_refl s, ⟨rfl, rfl⟩,
      ⟨rfl, rfl, rfl, rfl, rfl, rfl⟩, rfl⟩
  · simp only [if_neg h]
    exact ⟨(s.emitResult e).setPort .decodeEnded, rfl, ⟨rfl, rfl⟩, rfl, sameConfig_refl s, ⟨rfl, rfl⟩,
      ⟨rfl, rfl, rfl, rfl, rfl, rfl⟩, rfl⟩

theorem runTest_faults {v : Except Fault (Verdict α)} {port : α → PortValue} {e : Fault}
    (hv : v = .error e) : toOut (runTest v port s) = .fault e := by
  subst hv
  rfl

/-- Settles O31: the test compares `PTYPE` with 0x0A. -/
theorem packetTypeFilterPassesOnlyRadioAdvanced :
    Obligations.PacketTypeFilterPassesOnlyRadioAdvanced :=
  ⟨fun _ _ hf hpt => runTest_answers (tgPtype_ok hf hpt),
    fun _ hf hpt => runTest_faults (tgPtype_absent hf hpt)⟩

/-- Settles O32: the test compares `BODY[0]` with 0x24, and reads no length. -/
theorem telegramTypeFilterReadsBodyZero : Obligations.TelegramTypeFilterReadsBodyZero :=
  ⟨fun _ _ hf htt => runTest_answers (tgTtype_ok hf htt),
    fun _ hf htt => runTest_faults (tgTtype_absent hf htt)⟩

/-- Settles O33: the test compares `PLEN` with 15. -/
theorem lengthGuardAdmitsOnlyFifteen : Obligations.LengthGuardAdmitsOnlyFifteen :=
  ⟨fun _ _ hf hpl => runTest_answers (tgLguard_ok hf hpl),
    fun _ hf hpl => runTest_faults (tgLguard_absent hf hpl)⟩

/-! ### The bit string and the decode -/

theorem exec_tgBitcat {b : BitString} (hb : tgBitcat s = .ok b) :
    exec .tgBitcat s = .next (s.setPort (.bits b)) := by
  have hexec : exec .tgBitcat s = toOut (do let b ← tgBitcat s; pure (s.setPort (.bits b))) := rfl
  rw [hexec, hb, ok_bind, pure_ok, toOut_ok]

/-- Settles O34: `B` is the concatenation of the nine bytes, of which the laws give each bit and the
integer. -/
theorem bitStringIsMostSignificantFirst : Obligations.BitStringIsMostSignificantFirst := by
  intro s d hf hd
  have hlen : (List.ofFn d).length = 9 := List.length_ofFn
  have hbytes (j : Nat) (hj : j < 9) : s.body.read (5 + j) = (List.ofFn d)[j]? := by
    rw [hd ⟨j, hj⟩, List.getElem?_ofFn, dif_pos hj]
  have hbit (k : Fin 72) : (bitConcat (List.ofFn d)).getMsbD k.val =
      (d ⟨k.val / 8, by omega⟩).getLsbD (7 - k.val % 8) := by
    rw [bitConcat_bit _ hlen k.val k.isLt, List.getElem_ofFn]
  exact ⟨_, _, exec_tgBitcat (tgBitcat_ok hf hlen hbytes), rfl, hbit, bitConcat_toNat _ hlen,
    sameConfig_refl s, ⟨rfl, rfl⟩, ⟨rfl, rfl, rfl, rfl, rfl, rfl⟩, ⟨rfl, rfl⟩, rfl⟩

/-- Settles O35: the decode answers one `Result` by the law of its tests, and that `Result` is all that is
emitted. -/
theorem decodeTestsInOrder : Obligations.DecodeTestsInOrder := by
  intro s pt tt pl bs hf hpt htt hpl hpassing
  obtain ⟨r, hr, hanswer⟩ := tgDecode_ok hf hpt htt hpl hpassing
  exact ⟨_, r, exec_tgDecode hr, rfl, hanswer, rfl, sameConfig_refl s, ⟨rfl, rfl⟩,
    ⟨rfl, rfl, rfl, rfl, rfl, rfl⟩, ⟨rfl, rfl⟩⟩

end Sys2Proof.Proofs.Telegram
end

section
/-! The Field Decoder and Linear Scaler (43_field_scale.md), O36 to O41: each operation run alone puts one
value on the port and writes no register, which is said once; what the value is follows from the laws of
Laws/Telegram.lean, from the sum over the bits of a field, and from the algebra of the rationals. -/

namespace Sys2Proof.Proofs.FieldScale

open Sys2Proof Sys2Proof.Machine
open Sys2Proof.Proofs.FrozenTables (sameConfig_refl)

variable {s : State} {b : BitString} {p : Entry}

/-! ### The operations run alone -/

/-- The port is no register (entry 5): a value put there leaves everything else as it is. -/
theorem setPort_writesNoRegister (s : State) (v : PortValue) :
    SameConfig s (s.setPort v) ∧ SamePos s (s.setPort v) ∧ SameFrame s (s.setPort v) ∧
      SameOutputs s (s.setPort v) ∧ (s.setPort v).input = s.input :=
  ⟨sameConfig_refl s, ⟨rfl, rfl⟩, ⟨rfl, rfl, rfl, rfl, rfl, rfl⟩, ⟨rfl, rfl⟩, rfl⟩

/-- An operation that may fault puts the value it computes on the port. -/
theorem toOut_port_ok {α : Type} {x : Except Fault α} {v : α} (h : x = .ok v) (port : α → PortValue) :
    toOut (do let v ← x; pure (s.setPort (port v))) = .next (s.setPort (port v)) := by
  rw [h, ok_bind, pure_ok, toOut_ok]

theorem toOut_port_error {α : Type} {x : Except Fault α} {e : Fault} (h : x = .error e)
    (port : α → PortValue) : toOut (do let v ← x; pure (s.setPort (port v))) = .fault e := by
  rw [h, error_bind, toOut_error]

theorem exec_fdFields {ms : List Measurement} (h : fdFields b s = .ok ms) :
    exec (.fdFields b) s = .next (s.setPort (.measurements ms)) := toOut_port_ok h .measurements

theorem exec_fdExtract (b : BitString) (off w : BitVec 7) (s : State) :
    exec (.fdExtract b off w) s = .next (s.setPort (.raw (fdExtract b off.toNat w.toNat))) := rfl

theorem exec_fdSlope (hne : p.rawMin ≠ p.rawMax) : exec (.fdSlope p) s = .next (s.setPort
    (.num (slopeOf (numOps s.params.num) p.rawMin p.rawMax p.scaleMin p.scaleMax))) :=
  toOut_port_ok (if_neg (sub_ne_zero.2 hne)) .num

theorem exec_fdOffset (hne : p.rawMin ≠ p.rawMax) : exec (.fdOffset p) s = .next (s.setPort
    (.num (offsetOf (numOps s.params.num) p.rawMin p.rawMax p.scaleMin p.scaleMax))) :=
  toOut_port_ok (if_neg (sub_ne_zero.2 hne)) .num

theorem exec_fdSlope_zero (heq : p.rawMin = p.rawMax) :
    exec (.fdSlope p) s = .fault .divisionByZero :=
  toOut_port_error (if_pos (sub_eq_zero.2 heq)) .num

theorem exec_fdOffset_zero (heq : p.rawMin = p.rawMax) :
    exec (.fdOffset p) s = .fault .divisionByZero :=
  toOut_port_error (if_pos (sub_eq_zero.2 heq)) .num

/-! ### The value of a field -/

theorem fdExtract_inside {off w : Nat} (hw : 1 ≤ w) (h : off + w ≤ 72) :
    fdExtract b off w = fieldValue b off w := by
  rw [fdExtract, if_neg (Nat.ne_of_gt hw), if_neg (show ¬ off + w > Config.bits from Nat.not_lt.2 h)]

theorem fdExtract_outside_lt {off w : Nat} (hw : 1 ≤ w) (h : off + w > 72) :
    fdExtract b off w < 2 ^ w := by
  rw [fdExtract, if_neg (Nat.ne_of_gt hw), if_pos (show off + w > Config.bits from h)]
  exact Nat.mod_lt _ (by positivity)

/-- The field read one bit further doubles each weight and adds the new bit (R201). -/
theorem fieldValue_eq_sum (b : BitString) (off w : Nat) : fieldValue b off w =
    ∑ j ∈ Finset.range w, (b.getMsbD (off + j)).toNat * 2 ^ (w - 1 - j) := by
  induction w with
  | zero => rfl
  | succ w ih =>
    have hdouble : 2 * ∑ j ∈ Finset.range w, (b.getMsbD (off + j)).toNat * 2 ^ (w - 1 - j) =
        ∑ j ∈ Finset.range w, (b.getMsbD (off + j)).toNat * 2 ^ (w - j) := by
      rw [Finset.mul_sum]
      refine Finset.sum_congr rfl fun j hj => ?_
      have hexp : w - j = w - 1 - j + 1 := by have := Finset.mem_range.1 hj; omega
      rw [hexp, pow_succ]
      ring
    rw [fieldValue, ih, hdouble, Finset.sum_range_succ, Nat.add_sub_cancel, Nat.sub_self, pow_zero,
      mul_one]

/-! ### The obligations on single operations -/

/-- Settles O36: the list is the one that the law of `fdFields` gives for a legal table. -/
theorem fieldsFollowTableOrder : Obligations.FieldsFollowTableOrder := by
  intro s b hnp hlegal
  obtain ⟨ms, hms, hmeasured⟩ := fdFields_ok hnp hlegal
  exact ⟨_, ms, exec_fdFields hms, rfl, hmeasured, setPort_writesNoRegister s _⟩

/-- Settles O37: the quotient and remainder of `fieldValue_eq` are the shift and the mask. -/
theorem extractedFieldIsShiftAndMask : Obligations.ExtractedFieldIsShiftAndMask := by
  intro s b off w hw h
  refine ⟨_, _, exec_fdExtract b off w s, rfl, ?_, ?_, setPort_writesNoRegister s _⟩
  · rw [fdExtract_inside hw h, fieldValue_eq _ _ _ h, Nat.shiftRight_eq_div_pow,
      Nat.and_two_pow_sub_one_eq_mod]
  · rw [fdExtract_inside hw h, fieldValue_eq_sum]

/-- Settles O38: a free value still is a value, and one beyond `B[71]` is taken modulo `2^w`. -/
theorem extractOutsideTheTable : Obligations.ExtractOutsideTheTable := by
  intro s b off w h
  refine ⟨_, _, exec_fdExtract b off w s, rfl, fun hw => ?_, setPort_writesNoRegister s _⟩
  exact fdExtract_outside_lt hw (h.resolve_left (Nat.ne_of_gt hw))

/-- Settles O39: the difference of the raw range is zero exactly where its ends are equal. -/
theorem slopeAndOffsetFormulas : Obligations.SlopeAndOffsetFormulas := by
  rintro s p _ rfl
  exact ⟨fun hne => ⟨⟨_, exec_fdSlope hne, rfl, setPort_writesNoRegister s _⟩,
      ⟨_, exec_fdOffset hne, rfl, setPort_writesNoRegister s _⟩⟩,
    fun heq => ⟨exec_fdSlope_zero heq, exec_fdOffset_zero heq⟩⟩

/-- Settles O40: both operations are total functions of their operands. -/
theorem scaleAndEmit : Obligations.ScaleAndEmit := by
  rintro s raw slope offset p value _ rfl
  exact ⟨⟨_, rfl, rfl, setPort_writesNoRegister s _⟩, ⟨_, rfl, rfl, setPort_writesNoRegister s _⟩⟩

/-! ### Exact arithmetic -/

/-- R208: the closed form; only the second product of the offset is divided (K1). -/
theorem scaleOf_rational (a b : Int) (s t : Rat) (raw : Nat) :
    scaleOf rational raw (slopeOf rational a b s t) (offsetOf rational a b s t) =
      raw * (s - t) / (a - b) + a * t - b * s / (a - b) := by
  simp only [scaleOf, slopeOf, offsetOf, rational, Int.cast_natCast, Int.cast_sub]
  ring

/-- A unit built with rationals computes in the carrier of the rationals (entry 6). -/
theorem scaleOf_numOps_rational (a b : Int) (s t : Rat) (raw : Nat) :
    scaleOf (numOps .rational) raw (slopeOf (numOps .rational) a b (.rat s) (.rat t))
        (offsetOf (numOps .rational) a b (.rat s) (.rat t)) =
      .rat (scaleOf rational raw (slopeOf rational a b s t) (offsetOf rational a b s t)) := rfl

/-- Settles O41: `raw_min = 0` and `raw = raw_min` are put into the closed form; its divisor is not zero. -/
theorem rationalClosedForm : Obligations.RationalClosedForm := by
  rintro a b s t raw _ hab rfl
  have hd : (a : Rat) - b ≠ 0 := sub_ne_zero.2 (Int.cast_injective.ne hab)
  rw [scaleOf_numOps_rational, scaleOf_rational]
  refine ⟨rfl, ?_, ?_, rfl⟩
  · rintro rfl
    have hb : (b : Rat) ≠ 0 := by simpa using hd
    have hinterpolates : raw * (s - t) / (((0 : Int) : Rat) - b) + ((0 : Int) : Rat) * t -
        b * s / (((0 : Int) : Rat) - b) = s + raw * (t - s) / b := by
      simp only [Int.cast_zero, zero_sub, zero_mul]
      field_simp
      ring
    refine ⟨hinterpolates, ?_, fun hraw => ?_⟩
    · rintro rfl
      simpa using hinterpolates
    · have hraw' : (raw : Rat) = b := by exact_mod_cast hraw
      rw [hinterpolates, hraw', mul_div_cancel_left₀ _ hb]
      ring
  · intro hraw
    have hraw' : (raw : Rat) = a := by exact_mod_cast hraw
    rw [hraw']
    ring

end Sys2Proof.Proofs.FieldScale
end

section
/-! The binary64 word (R210): what the word of a sign and a magnitude reads as, and what it can read as at
all. Every finite value is an integer below `2^53` times a power of two from `2^-1074` on. -/

namespace Sys2Proof.Proofs.Binary64Word

open Sys2Proof Sys2Proof.Machine

variable {neg : Bool} {mag m n : Nat} {x : NumWord} {a : Rat} {e : Int}

/-! ### The parts of a word -/

theorem toNat_f64Word (h : mag < 2 ^ 63) :
    (f64Word neg mag).toNat = (if neg then 2 ^ 63 else 0) + mag := by
  rw [f64Word, BitVec.toNat_ofNat]
  split_ifs <;> omega

theorem msb_f64Word (h : mag < 2 ^ 63) : (f64Word neg mag).msb = neg := by
  rw [BitVec.msb_eq_decide, toNat_f64Word h]
  cases neg with
  | false => exact decide_eq_false (by simpa using h)
  | true => exact decide_eq_true (Nat.le_add_right _ _)

theorem f64Exp_f64Word (h : mag < 2 ^ 63) : f64Exp (f64Word neg mag) = mag / 2 ^ 52 := by
  rw [f64Exp, BitVec.extractLsb'_toNat, toNat_f64Word h, Nat.shiftRight_eq_div_pow]
  split_ifs <;> omega

theorem f64Frac_f64Word (h : mag < 2 ^ 63) : f64Frac (f64Word neg mag) = mag % 2 ^ 52 := by
  rw [f64Frac, BitVec.extractLsb'_toNat, toNat_f64Word h, Nat.shiftRight_zero]
  split_ifs <;> omega

theorem lastBit_f64Word (h : mag < 2 ^ 63) (heven : mag % 2 = 0) :
    (f64Word neg mag).getLsbD 0 = false := by
  rw [BitVec.getLsbD, toNat_f64Word h, Nat.testBit_zero, decide_eq_false_iff_not]
  split_ifs <;> omega

theorem f64Zero_eq (neg : Bool) : f64Zero neg = f64Word neg 0 := by
  cases neg <;> rfl

/-- Turning the sign bit turns the sign and nothing else. -/
theorem unpack_xor_signBit (x : NumWord) :
    F64.unpack (x ^^^ f64Zero true) = (F64.unpack x).neg := by
  have hexp : f64Exp (x ^^^ f64Zero true) = f64Exp x := by
    have hzero : (f64Zero true).extractLsb' 52 11 = 0 := by decide
    simp [f64Exp, BitVec.extractLsb'_xor, hzero]
  have hfrac : f64Frac (x ^^^ f64Zero true) = f64Frac x := by
    have hzero : (f64Zero true).extractLsb' 0 52 = 0 := by decide
    simp [f64Frac, BitVec.extractLsb'_xor, hzero]
  have hmsb : (x ^^^ f64Zero true).msb = !x.msb := by
    have hone : (f64Zero true).msb = true := by decide
    rw [BitVec.msb_xor, hone, Bool.xor_true]
  unfold F64.unpack
  rw [hexp, hfrac, hmsb]
  split_ifs <;> rfl

/-! ### What a word reads as -/

theorem unpack_f64Word_inf (neg : Bool) : F64.unpack (f64Word neg f64InfMag) = .inf neg := by
  cases neg <;> decide +kernel

theorem unpack_f64Word_zero (neg : Bool) : F64.unpack (f64Word neg 0) = .fin neg 0 (-1074) := by
  cases neg <;> decide +kernel

/-- Whatever the free bits are, the quiet bit makes the fraction nonzero (entry 8). -/
theorem unpack_f64Nan (free : BitVec 52) : F64.unpack (f64Nan free) = .nan := by
  have hpayload : (free.extractLsb' 0 51).toNat < 2 ^ 51 := BitVec.isLt _
  have hmag : f64InfMag + 2 ^ 51 + (free.extractLsb' 0 51).toNat < 2 ^ 63 := by
    unfold f64InfMag; omega
  unfold F64.unpack f64Nan
  rw [f64Exp_f64Word hmag, f64Frac_f64Word hmag, if_pos (by unfold f64InfMag; omega),
    if_neg (by unfold f64InfMag; omega)]

/-- A finite magnitude below `2^52` is subnormal; another one has the hidden bit. -/
theorem unpack_f64Word (h : mag < f64InfMag) : F64.unpack (f64Word neg mag) =
    if mag / 2 ^ 52 = 0 then .fin neg mag (-1074)
    else .fin neg (2 ^ 52 + mag % 2 ^ 52) ((mag / 2 ^ 52 : Nat) - 1075) := by
  have hmag : mag < 2 ^ 63 := by unfold f64InfMag at h; omega
  unfold F64.unpack
  rw [f64Exp_f64Word hmag, f64Frac_f64Word hmag, msb_f64Word hmag,
    if_neg (by unfold f64InfMag at h; omega)]
  split_ifs with hsub
  · rw [show mag % 2 ^ 52 = mag by omega]
  · rfl

theorem f64Value_of_unpack {s : Bool} (h : F64.unpack x = .fin s m e) :
    f64Value x = some ((signed s m : Rat) * 2 ^ e) := by
  unfold f64Value
  rw [h]

theorem f64Value_f64Word_zero (neg : Bool) : f64Value (f64Word neg 0) = some 0 := by
  rw [f64Value_of_unpack (unpack_f64Word_zero neg)]
  cases neg <;> simp [signed]

/-- `n` units of `2^u`, with the hidden bit among them unless `2^u` is the least unit, and also `2^53`
units, which carry into the exponent. -/
theorem f64Value_f64Word_units {j : Nat} (hn : n ≤ 2 ^ 53) (hnormal : 0 < j → 2 ^ 52 ≤ n)
    (hfin : j * 2 ^ 52 + n < f64InfMag) :
    f64Value (f64Word neg (j * 2 ^ 52 + n)) = some ((signed neg n : Rat) * 2 ^ ((j : Int) - 1074)) := by
  rw [f64Value_of_unpack (s := neg) (m := if n = 2 ^ 53 then 2 ^ 52 else n)
    (e := if n = 2 ^ 53 then (j : Int) - 1073 else (j : Int) - 1074)]
  · by_cases hcarry : n = 2 ^ 53
    · rw [if_pos hcarry, if_pos hcarry, show (j : Int) - 1073 = 1 + (j - 1074) by ring,
        zpow_add₀ two_ne_zero, hcarry]
      cases neg <;> simp [signed] <;> ring
    · rw [if_neg hcarry, if_neg hcarry]
  · rw [unpack_f64Word hfin]
    split_ifs with hsub hcarry hcarry
    · omega
    · rw [show j = 0 by omega]; simp
    · congr 1 <;> omega
    · congr 1 <;> omega

/-! ### What a reading says of the word -/

theorem msb_of_unpack_inf {p : Bool} (h : F64.unpack x = .inf p) : x.msb = p := by
  unfold F64.unpack at h
  split_ifs at h
  exact F64.inf.inj h

theorem bounds_of_unpack_fin {s : Bool} (h : F64.unpack x = .fin s m e) :
    s = x.msb ∧ m < 2 ^ 53 ∧ -1074 ≤ e := by
  have hfrac : f64Frac x < 2 ^ 52 := BitVec.isLt _
  unfold F64.unpack at h
  split_ifs at h
  all_goals
    obtain ⟨rfl, rfl, rfl⟩ := F64.fin.inj h
    exact ⟨rfl, by omega, by omega⟩

theorem f64Value_eq_some : f64Value x = some a ↔
    ∃ m e, F64.unpack x = .fin x.msb m e ∧ a = (signed x.msb m : Rat) * 2 ^ e := by
  constructor
  · intro h
    unfold f64Value at h
    split at h
    next => cases h
    next => cases h
    next s m e hx =>
      obtain ⟨rfl, -, -⟩ := bounds_of_unpack_fin hx
      exact ⟨m, e, hx, (Option.some.inj h).symm⟩
  · rintro ⟨m, e, hx, rfl⟩
    exact f64Value_of_unpack hx

theorem f64Finite_eq (x : NumWord) : f64Finite x = (f64Value x).isSome := by
  unfold f64Finite f64Value F64.unpack
  by_cases hexp : f64Exp x = 2047
  · by_cases hfrac : f64Frac x = 0 <;> simp [hexp, hfrac]
  · by_cases hzero : f64Exp x = 0 <;> simp [hexp, hzero]

/-- The values a binary64 word can stand for, bounded below only: an exponent that is too large for a
word does no harm to what is nearest. -/
def OnGrid (w : Rat) : Prop := ∃ (k e : Int), k.natAbs < 2 ^ 53 ∧ -1074 ≤ e ∧ w = k * 2 ^ e

theorem onGrid_of_f64Value {w : Rat} (h : f64Value x = some w) : OnGrid w := by
  obtain ⟨m, e, hx, rfl⟩ := f64Value_eq_some.1 h
  obtain ⟨-, hm, he⟩ := bounds_of_unpack_fin hx
  refine ⟨signed x.msb m, e, ?_, he, rfl⟩
  cases x.msb <;> simpa [signed] using hm

theorem onGrid_neg {w : Rat} (h : OnGrid w) : OnGrid (-w) := by
  obtain ⟨k, e, hk, he, rfl⟩ := h
  exact ⟨-k, e, by rwa [Int.natAbs_neg], he, by push_cast; ring⟩

/-- An integer of 53 bits is on the grid, and so is `2^53`, which is even. -/
theorem onGrid_intCast {k : Int} (hk : k.natAbs ≤ 2 ^ 53) : OnGrid k := by
  by_cases hlt : k.natAbs < 2 ^ 53
  · exact ⟨k, 0, hlt, by omega, by simp⟩
  · refine ⟨k / 2, 1, by omega, by omega, ?_⟩
    have heven : k = k / 2 * 2 := by omega
    rw [zpow_one]
    exact_mod_cast heven

end Sys2Proof.Proofs.Binary64Word
end

section
/-! Rounding in binary64 (R210). `f64Round` chooses a unit `2^u` and takes the nearest number `n` of units,
ties to even. Where the exact value has the hidden bit at that unit, or the unit is the least one, every
value of a word is a multiple of the unit or lies below the exact value with a multiple between them, so
that nearest among the multiples is nearest of all. -/

namespace Sys2Proof.Proofs.Rounding

open Sys2Proof Sys2Proof.Machine Sys2Proof.Proofs.Binary64Word

variable {neg : Bool} {m n s : Nat} {t x a v w exact : Rat} {e u : Int} {r : NumWord}

/-! ### Rounding to a natural number -/

/-- `n` is nearest to `t`, and even in a tie. -/
def NearestNat (n : Nat) (t : Rat) : Prop :=
  |(n : Rat) - t| ≤ 1 / 2 ∧ (|(n : Rat) - t| = 1 / 2 → n % 2 = 0)

theorem nearestNat_self (n : Nat) : NearestNat n n := by
  simp [NearestNat]

/-- What decides is whether the fraction lies below, at or above the half. -/
theorem nearestNat_of_fraction {q : Nat} {f : Rat} (h0 : 0 ≤ f) (h1 : f ≤ 1) :
    NearestNat (if 1 < 2 * f ∨ (2 * f = 1 ∧ q % 2 = 1) then q + 1 else q) (q + f) := by
  have hup : |((q + 1 : Nat) : Rat) - (q + f)| = 1 - f := by
    rw [show ((q + 1 : Nat) : Rat) - (q + f) = 1 - f by push_cast; ring]
    exact abs_of_nonneg (by linarith)
  have hdown : |(q : Rat) - (q + f)| = f := by
    rw [show (q : Rat) - (q + f) = -f by ring, abs_neg, abs_of_nonneg h0]
  unfold NearestNat
  split_ifs with h
  · rw [hup]
    rcases h with hgt | ⟨htie, hodd⟩
    · exact ⟨by linarith, fun heq => absurd heq (by linarith)⟩
    · exact ⟨by linarith, fun _ => by omega⟩
  · rw [hdown]
    push Not at h
    obtain ⟨hle, heven⟩ := h
    exact ⟨by linarith, fun heq => by have := heven (by linarith); omega⟩

theorem NearestNat.le_of_le {k : Nat} (h : NearestNat n t) (hk : (k : Rat) ≤ t) : k ≤ n := by
  have hclose := (abs_le.1 h.1).1
  have hlt : (k : Rat) < (n : Rat) + 1 := by linarith
  exact Nat.lt_succ_iff.1 (by exact_mod_cast hlt)

theorem NearestNat.ge_of_ge {k : Nat} (h : NearestNat n t) (hk : t ≤ (k : Rat)) : n ≤ k := by
  have hclose := (abs_le.1 h.1).2
  have hlt : (n : Rat) < (k : Rat) + 1 := by linarith
  exact Nat.lt_succ_iff.1 (by exact_mod_cast hlt)

/-- No integer is nearer, and where another one is as near, `n` is even. -/
theorem NearestNat.nearest (h : NearestNat n t) (k : Int) :
    |(n : Rat) - t| ≤ |(k : Rat) - t| ∧
      ((k : Rat) ≠ n → |(k : Rat) - t| = |(n : Rat) - t| → n % 2 = 0) := by
  obtain ⟨hhalf, heven⟩ := h
  by_cases hk : k = (n : Int)
  · have hkn : (k : Rat) = n := by exact_mod_cast hk
    rw [hkn]
    exact ⟨le_rfl, fun hne => absurd rfl hne⟩
  · have hapart : (1 : Rat) ≤ |(k : Rat) - n| := by
      exact_mod_cast Int.one_le_abs (sub_ne_zero.2 hk)
    have htriangle : |(k : Rat) - n| ≤ |(k : Rat) - t| + |(n : Rat) - t| := by
      rw [abs_sub_comm (n : Rat) t]
      exact abs_sub_le _ _ _
    exact ⟨by linarith, fun _ heq => heven (by linarith)⟩

/-! ### The shift -/

/-- `m` stands for `x` in the choice of `f64Round`: it is `x`, or it is odd, of more than 54 bits, and
says of `x` only between which even numbers it lies (the last bit of `f64Quotient`). -/
def StandsFor (m : Nat) (x : Rat) : Prop :=
  x = m ∨ (2 ^ 54 ≤ m ∧ m % 2 = 1 ∧ (m : Rat) - 1 < x ∧ x < (m : Rat) + 1)

/-- The part of `x` that the shift drops compares with half a unit as the remainder of `m` does: an odd
remainder is not the half of a power of two from 4 on, so that its last bit may be wrong. -/
theorem exists_dropped
    (h : x = m ∨ (2 ≤ s ∧ m % 2 = 1 ∧ (m : Rat) - 1 < x ∧ x < (m : Rat) + 1)) :
    ∃ d : Rat, x = 2 ^ s * (m / 2 ^ s : Nat) + d ∧ 0 ≤ d ∧ d ≤ 2 ^ s ∧
      (2 ^ s < 2 * d ↔ 2 ^ s < 2 * (m % 2 ^ s)) ∧ (2 * d = 2 ^ s ↔ 2 * (m % 2 ^ s) = 2 ^ s) := by
  have hdiv : (2 : Rat) ^ s * (m / 2 ^ s : Nat) + (m % 2 ^ s : Nat) = m := by
    exact_mod_cast Nat.div_add_mod m (2 ^ s)
  have hrem : m % 2 ^ s < 2 ^ s := Nat.mod_lt _ (by positivity)
  rcases h with rfl | ⟨hs, hodd, hlow, hhigh⟩
  · exact ⟨(m % 2 ^ s : Nat), hdiv.symm, by positivity, by exact_mod_cast hrem.le,
      by exact_mod_cast Iff.rfl, by exact_mod_cast Iff.rfl⟩
  · refine ⟨x - 2 ^ s * (m / 2 ^ s : Nat), by ring, ?_⟩
    have hremodd : m % 2 ^ s % 2 = 1 := by
      rw [Nat.mod_mod_of_dvd m (dvd_pow_self 2 (by omega)), hodd]
    obtain ⟨k, hk⟩ : ∃ k, 2 ^ s = 4 * k := ⟨2 ^ (s - 2), by rw [← pow_sub_mul_pow 2 hs]; ring⟩
    have hkRat : (2 : Rat) ^ s = 4 * k := by exact_mod_cast hk
    generalize (2 : Rat) ^ s * (m / 2 ^ s : Nat) = shifted at hdiv ⊢
    rw [hkRat]
    rw [hk] at hrem hremodd hdiv ⊢
    generalize m % (4 * k) = rem at hrem hremodd hdiv ⊢
    have hrem0 : (1 : Rat) ≤ rem := by exact_mod_cast (show 1 ≤ rem by omega)
    have hrem1 : (rem : Rat) + 1 ≤ 4 * k := by exact_mod_cast hrem
    rcases (show rem < 2 * k ∨ 2 * k < rem by omega) with hlt | hgt
    · have hltRat : (rem : Rat) + 1 ≤ 2 * k := by exact_mod_cast hlt
      exact ⟨by linarith, by linarith, iff_of_false (by linarith) (by omega),
        iff_of_false (by linarith) (by omega)⟩
    · have hgtRat : (2 : Rat) * k + 1 ≤ rem := by exact_mod_cast hgt
      exact ⟨by linarith, by linarith, iff_of_true (by linarith) (by omega),
        iff_of_false (by linarith) (by omega)⟩

theorem roundShift_nearest
    (h : x = m ∨ (2 ≤ s ∧ m % 2 = 1 ∧ (m : Rat) - 1 < x ∧ x < (m : Rat) + 1)) :
    NearestNat (roundShift m s) (x / 2 ^ s) := by
  obtain ⟨d, hx, h0, h1, hlt, heq⟩ := exists_dropped h
  have hpow : (0 : Rat) < 2 ^ s := by positivity
  have hlt' : 1 < 2 * (d / 2 ^ s) ↔ 2 ^ s < 2 * (m % 2 ^ s) := by
    rw [← mul_div_assoc, one_lt_div hpow, hlt]
  have heq' : 2 * (d / 2 ^ s) = 1 ↔ 2 * (m % 2 ^ s) = 2 ^ s := by
    rw [← mul_div_assoc, div_eq_one_iff_eq hpow.ne', heq]
  have hfraction := nearestNat_of_fraction (q := m / 2 ^ s) (div_nonneg h0 hpow.le)
    ((div_le_one hpow).2 h1)
  rw [hx, add_div, mul_div_cancel_left₀ _ hpow.ne']
  simp only [hlt', heq'] at hfraction
  exact hfraction

/-! ### The unit and the number of units -/

/-- The exponent of the unit of the last place. -/
def unitExp (m : Nat) (e : Int) : Int := max (e + (Nat.log2 m : Int) - 52) (-1074)

/-- How many units there are. -/
def units (m : Nat) (e : Int) : Nat :=
  if unitExp m e ≤ e then m * 2 ^ (e - unitExp m e).toNat
  else roundShift m (unitExp m e - e).toNat

theorem f64Round_eq (hm : m ≠ 0) : f64Round neg m e =
    f64Word neg (if f64InfMag ≤ (unitExp m e + 1074).toNat * 2 ^ 52 + units m e then f64InfMag
      else (unitExp m e + 1074).toNat * 2 ^ 52 + units m e) := if_neg hm

theorem f64Round_zero (neg : Bool) (e : Int) : f64Round neg 0 e = f64Word neg 0 := if_pos rfl

theorem msb_f64Round (neg : Bool) (m : Nat) (e : Int) : (f64Round neg m e).msb = neg := by
  by_cases hm : m = 0
  · rw [hm, f64Round_zero, msb_f64Word (by positivity)]
  · rw [f64Round_eq hm]
    apply msb_f64Word
    unfold f64InfMag
    split_ifs <;> omega

/-- `t`, in units of `2^u`, is rounded to `n`, and has the hidden bit unless the unit is the least. -/
structure RoundedAt (u : Int) (n : Nat) (t : Rat) : Prop where
  unit : -1074 ≤ u
  nearest : NearestNat n t
  below : t < 2 ^ 53
  normal : -1074 < u → 2 ^ 52 ≤ t

/-- The exact value in units of the last place. -/
theorem exact_in_units (m : Nat) (x : Rat) (e : Int) :
    x * 2 ^ e = x * 2 ^ (e - unitExp m e) * 2 ^ unitExp m e := by
  rw [mul_assoc, ← zpow_add₀ two_ne_zero, sub_add_cancel]

/-- A number that stands for `x` has as many bits as `x` before the point. -/
theorem StandsFor.log2_bounds (h : StandsFor m x) (hm : m ≠ 0) :
    (2 : Rat) ^ Nat.log2 m ≤ x ∧ x < 2 ^ (Nat.log2 m + 1) := by
  have hlow := Nat.log2_self_le hm
  have hhigh : m < 2 ^ (Nat.log2 m + 1) := Nat.lt_log2_self
  rcases h with rfl | ⟨hbits, hodd, hx0, hx1⟩
  · exact ⟨by exact_mod_cast hlow, by exact_mod_cast hhigh⟩
  · have hlog : 54 ≤ Nat.log2 m := (Nat.le_log2 hm).2 hbits
    have heven : 2 ^ Nat.log2 m % 2 = 0 := Nat.mod_eq_zero_of_dvd (dvd_pow_self 2 (by omega))
    have hlowRat : (2 : Rat) ^ Nat.log2 m + 1 ≤ m := by
      exact_mod_cast (show 2 ^ Nat.log2 m + 1 ≤ m by omega)
    have hhighRat : (m : Rat) + 1 ≤ 2 ^ (Nat.log2 m + 1) := by exact_mod_cast hhigh
    exact ⟨by linarith, by linarith⟩

theorem units_nearest (h : StandsFor m x) (hm : m ≠ 0) :
    NearestNat (units m e) (x * 2 ^ (e - unitExp m e)) := by
  have hunit : e + (Nat.log2 m : Int) - 52 ≤ unitExp m e := le_max_left _ _
  unfold units
  split_ifs with hle
  · have hexact : x = m := h.resolve_right fun ⟨hbits, _⟩ => by
      have hlog : 54 ≤ Nat.log2 m := (Nat.le_log2 hm).2 hbits
      omega
    obtain ⟨j, hj⟩ := Int.eq_ofNat_of_zero_le (sub_nonneg.2 hle)
    rw [hexact, hj, Int.toNat_natCast, zpow_natCast]
    exact_mod_cast nearestNat_self (m * 2 ^ j)
  · obtain ⟨j, hj⟩ := Int.eq_ofNat_of_zero_le (show 0 ≤ unitExp m e - e by omega)
    rw [show e - unitExp m e = -(unitExp m e - e) by ring, zpow_neg, ← div_eq_mul_inv,
      hj, Int.toNat_natCast, zpow_natCast]
    refine roundShift_nearest (h.imp_right fun ⟨hbits, hodd, hx⟩ => ⟨?_, hodd, hx⟩)
    have hlog : 54 ≤ Nat.log2 m := (Nat.le_log2 hm).2 hbits
    omega

theorem roundedAt_units (h : StandsFor m x) (hm : m ≠ 0) :
    RoundedAt (unitExp m e) (units m e) (x * 2 ^ (e - unitExp m e)) := by
  obtain ⟨hlow, hhigh⟩ := h.log2_bounds hm
  have hpow : (0 : Rat) < 2 ^ (e - unitExp m e) := by positivity
  have hunit : e + (Nat.log2 m : Int) - 52 ≤ unitExp m e := le_max_left _ _
  refine ⟨le_max_right _ _, units_nearest h hm, ?_, fun hnormal => ?_⟩
  · calc x * 2 ^ (e - unitExp m e) < 2 ^ (Nat.log2 m + 1) * 2 ^ (e - unitExp m e) :=
          mul_lt_mul_of_pos_right hhigh hpow
      _ = (2 : Rat) ^ ((Nat.log2 m + 1 : Nat) + (e - unitExp m e)) := by
          rw [zpow_add₀ two_ne_zero, zpow_natCast]
      _ ≤ (2 : Rat) ^ (53 : Int) := zpow_le_zpow_right₀ one_le_two (by omega)
      _ = 2 ^ 53 := by norm_num
  · have hunit' : unitExp m e = e + (Nat.log2 m : Int) - 52 := by
      unfold unitExp at hnormal ⊢
      omega
    calc (2 : Rat) ^ 52 = (2 : Rat) ^ ((Nat.log2 m : Int) + (e - unitExp m e)) := by
          rw [hunit', show (Nat.log2 m : Int) + (e - (e + Nat.log2 m - 52)) = (52 : Nat) by omega,
            zpow_natCast]
      _ = 2 ^ Nat.log2 m * 2 ^ (e - unitExp m e) := by rw [zpow_add₀ two_ne_zero, zpow_natCast]
      _ ≤ x * 2 ^ (e - unitExp m e) := mul_le_mul_of_nonneg_right hlow hpow.le

/-! ### Nearest among all values -/

/-- A value of a word is a multiple of `2^u`, or lies below `2^52` units. -/
theorem onGrid_cases (hw : OnGrid w) (hu : -1074 ≤ u) :
    (∃ k : Int, w = k * 2 ^ u) ∨ (-1074 < u ∧ w < 2 ^ 52 * 2 ^ u) := by
  obtain ⟨k, e, hk, he, rfl⟩ := hw
  by_cases hue : u ≤ e
  · obtain ⟨j, hj⟩ := Int.eq_ofNat_of_zero_le (sub_nonneg.2 hue)
    refine .inl ⟨k * 2 ^ j, ?_⟩
    rw [show e = (j : Int) + u by omega, zpow_add₀ two_ne_zero, zpow_natCast]
    push_cast
    ring
  · refine .inr ⟨by omega, ?_⟩
    have hkRat : (k : Rat) < 2 ^ 53 := by exact_mod_cast (show k < 2 ^ 53 by omega)
    calc (k : Rat) * 2 ^ e < 2 ^ 53 * 2 ^ e := mul_lt_mul_of_pos_right hkRat (by positivity)
      _ ≤ 2 ^ 53 * 2 ^ (u - 1) := by
          have hmono : (2 : Rat) ^ e ≤ 2 ^ (u - 1) := zpow_le_zpow_right₀ one_le_two (by omega)
          linarith
      _ = 2 ^ 52 * 2 ^ u := by
          rw [zpow_sub₀ two_ne_zero, zpow_one]
          ring

/-- `v` is nearest to `exact` among the values of words; where another one is as near, `c` holds. -/
def NearestValue (v exact : Rat) (c : Prop) : Prop :=
  ∀ w, OnGrid w → |v - exact| ≤ |w - exact| ∧ (w ≠ v → |w - exact| = |v - exact| → c)

theorem RoundedAt.nearestValue (h : RoundedAt u n t) :
    NearestValue (n * 2 ^ u) (t * 2 ^ u) (n % 2 = 0) := by
  have hpow : (0 : Rat) < 2 ^ u := by positivity
  have hscale (q : Rat) : |q * 2 ^ u - t * 2 ^ u| = |q - t| * 2 ^ u := by
    rw [← sub_mul, abs_mul, abs_of_pos hpow]
  intro w hw
  rcases onGrid_cases hw h.unit with ⟨k, rfl⟩ | ⟨hnormal, hlt⟩
  · obtain ⟨hnear, htie⟩ := h.nearest.nearest k
    rw [hscale, hscale]
    refine ⟨mul_le_mul_of_nonneg_right hnear hpow.le, fun hne heq => ?_⟩
    exact htie (fun hk => hne (by rw [hk])) (mul_right_cancel₀ hpow.ne' heq)
  · obtain ⟨hnear, -⟩ := h.nearest.nearest (2 ^ 52)
    have hbetween : (2 : Rat) ^ 52 * 2 ^ u ≤ t * 2 ^ u :=
      mul_le_mul_of_nonneg_right (h.normal hnormal) hpow.le
    have hfar : |(2 : Rat) ^ 52 * 2 ^ u - t * 2 ^ u| < |w - t * 2 ^ u| := by
      rw [abs_of_nonpos (by linarith), abs_of_nonpos (by linarith)]
      linarith
    have hnear' : |(n : Rat) * 2 ^ u - t * 2 ^ u| ≤ |(2 : Rat) ^ 52 * 2 ^ u - t * 2 ^ u| := by
      rw [hscale, hscale]
      exact mul_le_mul_of_nonneg_right (by exact_mod_cast hnear) hpow.le
    exact ⟨by linarith, fun _ heq => absurd heq (by linarith)⟩

/-! ### Overflow -/

theorem f64Limit_eq : f64Limit = (2 ^ 53 - 1 / 2) * (2 : Rat) ^ (971 : Int) := by
  rw [f64Limit, show (971 : Int) = ((970 + 1 : Nat) : Int) from rfl, zpow_natCast, pow_succ _ 970]
  generalize (2 : Rat) ^ 970 = half
  ring

/-- Only at the unit `2^971` the limit has to be looked at; there it is the middle between `2^53 - 1` and
`2^53` units, a tie that goes to the second. -/
theorem RoundedAt.overflow_iff (h : RoundedAt u n t) :
    f64InfMag ≤ (u + 1074).toNat * 2 ^ 52 + n ↔ f64Limit ≤ t * 2 ^ u := by
  have hpow : (0 : Rat) < 2 ^ u := by positivity
  have hn : n ≤ 2 ^ 53 := h.nearest.ge_of_ge (by exact_mod_cast h.below.le)
  have hunit := h.unit
  rw [f64Limit_eq, f64InfMag]
  rcases lt_trichotomy u 971 with hlt | rfl | hgt
  · refine iff_of_false (by omega) (not_le.2 ?_)
    have hmono : (2 : Rat) ^ u ≤ 2 ^ (971 - 1 : Int) := zpow_le_zpow_right₀ one_le_two (by omega)
    rw [zpow_sub₀ two_ne_zero, zpow_one] at hmono
    have hbelow : t * 2 ^ u < 2 ^ 53 * 2 ^ u := mul_lt_mul_of_pos_right h.below hpow
    have hbig : (0 : Rat) < 2 ^ (971 : Int) := by positivity
    generalize (2 : Rat) ^ (971 : Int) = top at *
    linarith
  · rw [mul_le_mul_iff_left₀ hpow]
    constructor
    · intro hcarry
      have hnRat : (2 : Rat) ^ 53 ≤ n := by exact_mod_cast (show 2 ^ 53 ≤ n by omega)
      have hclose := (abs_le.1 h.nearest.1).2
      linarith
    · intro hlimit
      have hlarge : 2 ^ 53 - 1 ≤ n := h.nearest.le_of_le (by norm_num; linarith)
      by_contra hcarry
      have hn1 : n = 2 ^ 53 - 1 := by omega
      have hclose := (abs_le.1 h.nearest.1).1
      have hnRat : (n : Rat) = 2 ^ 53 - 1 := by rw [hn1]; norm_num
      have htie : |(n : Rat) - t| = 1 / 2 := by
        rw [abs_of_nonpos (by linarith)]
        linarith
      have heven := h.nearest.2 htie
      omega
  · have hnormal := h.normal (by omega)
    have hn52 : 2 ^ 52 ≤ n := h.nearest.le_of_le (by exact_mod_cast hnormal)
    refine iff_of_true (by omega) ?_
    have hmono : (2 : Rat) ^ (1 + 971 : Int) ≤ 2 ^ u := zpow_le_zpow_right₀ one_le_two (by omega)
    rw [zpow_add₀ two_ne_zero, zpow_one] at hmono
    have habove : 2 ^ 52 * (2 : Rat) ^ u ≤ t * 2 ^ u := mul_le_mul_of_nonneg_right hnormal hpow.le
    have hbig : (0 : Rat) < 2 ^ (971 : Int) := by positivity
    generalize (2 : Rat) ^ (971 : Int) = top at *
    linarith

/-! ### Signs -/

/-- A sign as a factor. -/
def sgn (neg : Bool) : Rat := if neg then -1 else 1

theorem signed_eq (neg : Bool) (m : Nat) : (signed neg m : Rat) = sgn neg * m := by
  cases neg <;> simp [signed, sgn]

theorem sgn_bne (p q : Bool) : sgn (p != q) = sgn p * sgn q := by
  cases p <;> cases q <;> simp [sgn]

theorem sgn_not (neg : Bool) : sgn (!neg) = -sgn neg := by
  cases neg <;> simp [sgn]

theorem abs_sgn_mul (neg : Bool) (a : Rat) : |sgn neg * a| = |a| := by
  cases neg <;> simp [sgn]

theorem sgn_mul_neg_iff (neg : Bool) (ha : 0 < a) : sgn neg * a < 0 ↔ neg = true := by
  cases neg <;> simp [sgn, ha, ha.le]

/-- What is nearest stays so when the sign of both is turned. -/
theorem NearestValue.sgn_mul {c : Prop} (h : NearestValue v exact c) (neg : Bool) :
    NearestValue (sgn neg * v) (sgn neg * exact) c := by
  cases neg with
  | false => simpa [sgn] using h
  | true =>
    intro w hw
    have hturn (q : Rat) : |sgn true * q - sgn true * exact| = |q - exact| := by
      rw [← mul_sub, abs_sgn_mul]
    obtain ⟨hnear, htie⟩ := h (-w) (onGrid_neg hw)
    have hturn' : |w - sgn true * exact| = |-w - exact| := by
      rw [← hturn]; simp [sgn]
    rw [hturn, hturn']
    exact ⟨hnear, fun hne => htie fun heq => hne (by rw [← heq]; simp [sgn])⟩

/-! ### The rounded word -/

/-- The exact value is `x * 2^e` with a sign: the word is the infinity from the limit on. -/
theorem f64Round_overflow (h : StandsFor m x) (hm : m ≠ 0) (hlimit : f64Limit ≤ x * 2 ^ e) :
    f64Round neg m e = f64Word neg f64InfMag := by
  have hrounded := roundedAt_units (e := e) h hm
  have hsplit := exact_in_units m x e
  rw [f64Round_eq hm, if_pos (hrounded.overflow_iff.2 (hsplit ▸ hlimit))]

/-- Below the limit the word has a nearest value, and an even last bit in a tie. -/
theorem f64Round_finite (h : StandsFor m x) (hm : m ≠ 0) (hlimit : x * 2 ^ e < f64Limit) :
    ∃ v, f64Value (f64Round neg m e) = some v ∧
      NearestValue v (sgn neg * (x * 2 ^ e)) ((f64Round neg m e).getLsbD 0 = false) := by
  have hrounded := roundedAt_units (e := e) h hm
  have hsplit := exact_in_units m x e
  have hfin : ¬ f64InfMag ≤ (unitExp m e + 1074).toNat * 2 ^ 52 + units m e :=
    fun hinf => not_le.2 hlimit (hsplit ▸ hrounded.overflow_iff.1 hinf)
  rw [f64Round_eq hm, if_neg hfin, hsplit]
  have hunit := hrounded.unit
  have hbelow : units m e ≤ 2 ^ 53 := hrounded.nearest.ge_of_ge (by exact_mod_cast hrounded.below.le)
  have hnormal : 0 < (unitExp m e + 1074).toNat → 2 ^ 52 ≤ units m e := fun hj =>
    hrounded.nearest.le_of_le (by exact_mod_cast hrounded.normal (by omega))
  refine ⟨sgn neg * (units m e * 2 ^ unitExp m e), ?_, fun w hw => ?_⟩
  · rw [f64Value_f64Word_units hbelow hnormal (not_le.1 hfin), signed_eq, mul_assoc,
      show ((unitExp m e + 1074).toNat : Int) - 1074 = unitExp m e by omega]
  · obtain ⟨hnear, htie⟩ := hrounded.nearestValue.sgn_mul neg w hw
    refine ⟨hnear, fun hne heq => lastBit_f64Word ?_ ?_⟩
    · unfold f64InfMag at hfin; omega
    · have heven := htie hne heq; omega

/-- A zero of either sign is nearest to zero, and no other value is as near. -/
theorem nearestValue_zero (c : Prop) : NearestValue 0 0 c := by
  intro w _
  rw [sub_zero, sub_zero, abs_zero]
  exact ⟨abs_nonneg w, fun hne heq => absurd (abs_eq_zero.1 heq) hne⟩

/-- The values of words are on the grid. -/
theorem nearestEven_of_nearestValue
    (hover : f64Limit ≤ |exact| → F64.unpack r = .inf (decide (exact < 0)))
    (hfin : |exact| < f64Limit →
      ∃ v, f64Value r = some v ∧ NearestValue v exact (r.getLsbD 0 = false)) : NearestEven r exact := by
  refine ⟨hover, fun hlt => ?_⟩
  obtain ⟨v, hv, hnearest⟩ := hfin hlt
  exact ⟨v, hv, fun y w hy => hnearest w (onGrid_of_f64Value hy)⟩

theorem nearestEven_zero (neg : Bool) : NearestEven (f64Word neg 0) 0 := by
  refine nearestEven_of_nearestValue (fun hle => absurd hle ?_)
    fun _ => ⟨0, f64Value_f64Word_zero neg, nearestValue_zero _⟩
  rw [abs_zero, not_le, f64Limit]
  exact mul_pos (by norm_num) (by positivity)

/-- R210: one rounding, of the number that `m` stands for. -/
theorem f64Round_nearestEven_of_standsFor (h : StandsFor m x) (hm : m ≠ 0) (neg : Bool) (e : Int) :
    NearestEven (f64Round neg m e) (sgn neg * (x * 2 ^ e)) := by
  have hx : 0 < x := lt_of_lt_of_le (by positivity) (h.log2_bounds hm).1
  have hpos : 0 < x * 2 ^ e := by positivity
  have habs : |sgn neg * (x * 2 ^ e)| = x * 2 ^ e := by rw [abs_sgn_mul, abs_of_pos hpos]
  refine nearestEven_of_nearestValue (fun hle => ?_) fun hlt => f64Round_finite h hm (habs ▸ hlt)
  rw [f64Round_overflow h hm (habs ▸ hle), unpack_f64Word_inf]
  simp only [sgn_mul_neg_iff neg hpos, Bool.decide_eq_true]

/-- R210: one rounding of an exact number. -/
theorem f64Round_nearestEven (neg : Bool) (m : Nat) (e : Int) :
    NearestEven (f64Round neg m e) ((signed neg m : Rat) * 2 ^ e) := by
  rw [signed_eq, mul_assoc]
  by_cases hm : m = 0
  · rw [hm, f64Round_zero, Nat.cast_zero, zero_mul, mul_zero]
    exact nearestEven_zero neg
  · exact f64Round_nearestEven_of_standsFor (.inl rfl) hm neg e

end Sys2Proof.Proofs.Rounding
end

section
/-! Binary64 (43_field_scale.md), O42 to O44: each operation on finite operands is one rounding of an exact
number (R210), and what infinities, NaNs and zeros do is read off the operation on unpacked values. -/

namespace Sys2Proof.Proofs.Binary64

open Sys2Proof Sys2Proof.Machine Sys2Proof.Proofs.Binary64Word Sys2Proof.Proofs.Rounding

variable {p : Bool} {m m1 m2 : Nat} {a b : Rat} {x y : NumWord} {e : Int}

/-! ### Integers -/

theorem signed_natAbs (k : Int) : signed (decide (k < 0)) k.natAbs = k := by
  unfold signed
  split_ifs with h
  · have hneg := of_decide_eq_true h; omega
  · have hpos := of_decide_eq_false (Bool.not_eq_true _ ▸ h); omega

theorem f64Round_int_nearestEven (k e : Int) :
    NearestEven (f64Round (decide (k < 0)) k.natAbs e) ((k : Rat) * 2 ^ e) := by
  have hrounded := f64Round_nearestEven (decide (k < 0)) k.natAbs e
  rwa [signed_natAbs] at hrounded

theorem f64OfInt_nearestEven (k : Int) : NearestEven (f64OfInt k) k := by
  have hrounded := f64Round_int_nearestEven k 0
  rwa [zpow_zero, mul_one] at hrounded

/-- Settles O42: such an integer is on the grid, where nothing else is nearest to it. -/
theorem smallIntegersConvertExactly : Obligations.SmallIntegersConvertExactly := by
  intro k hk
  change f64Value (f64OfInt k) = some (k : Rat)
  by_cases hzero : k.natAbs = 0
  · rw [f64OfInt, hzero, f64Round_zero, f64Value_f64Word_zero, Int.natAbs_eq_zero.1 hzero, Int.cast_zero]
  · have hsmall : (k.natAbs : Rat) * 2 ^ (0 : Int) < f64Limit := by
      have hle : (k.natAbs : Rat) ≤ 2 ^ 53 := by exact_mod_cast hk
      have hpow : (1 : Rat) ≤ 2 ^ 970 := one_le_pow₀ one_le_two
      rw [zpow_zero, mul_one, f64Limit]
      generalize (2 : Rat) ^ 970 = half at *
      linarith
    obtain ⟨v, hv, hnearest⟩ := f64Round_finite (neg := decide (k < 0)) (.inl rfl) hzero hsmall
    rw [← mul_assoc, ← signed_eq, signed_natAbs, zpow_zero, mul_one] at hnearest
    obtain ⟨hnear, -⟩ := hnearest k (onGrid_intCast hk)
    rw [sub_self, abs_zero, abs_nonpos_iff, sub_eq_zero] at hnear
    exact hnear ▸ hv

/-! ### Sums -/

/-- A larger exponent is a shift of the magnitude. -/
theorem signed_shift (neg : Bool) (m : Nat) {e d : Int} (h : d ≤ e) :
    (signed neg (m * 2 ^ (e - d).toNat) : Rat) * 2 ^ d = (signed neg m : Rat) * 2 ^ e := by
  obtain ⟨j, hj⟩ := Int.eq_ofNat_of_zero_le (sub_nonneg.2 h)
  rw [hj, Int.toNat_natCast, show e = (j : Int) + d by omega, zpow_add₀ two_ne_zero, zpow_natCast,
    signed_eq, signed_eq]
  push_cast
  ring

/-- The exact sum in units of the smaller exponent. -/
def exactSum (s1 : Bool) (m1 : Nat) (e1 : Int) (s2 : Bool) (m2 : Nat) (e2 : Int) : Int :=
  signed s1 (m1 * 2 ^ (e1 - min e1 e2).toNat) + signed s2 (m2 * 2 ^ (e2 - min e1 e2).toNat)

theorem exactSum_eq (s1 : Bool) (m1 : Nat) (e1 : Int) (s2 : Bool) (m2 : Nat) (e2 : Int) :
    (exactSum s1 m1 e1 s2 m2 e2 : Rat) * 2 ^ min e1 e2 =
      (signed s1 m1 : Rat) * 2 ^ e1 + (signed s2 m2 : Rat) * 2 ^ e2 := by
  rw [exactSum, Int.cast_add, add_mul, signed_shift s1 m1 (min_le_left e1 e2),
    signed_shift s2 m2 (min_le_right e1 e2)]

theorem f64AddFin_of_zero {s1 s2 : Bool} {e1 e2 : Int} (h : exactSum s1 m1 e1 s2 m2 e2 = 0) :
    f64AddFin s1 m1 e1 s2 m2 e2 = f64Word (s1 && s2) 0 := if_pos h

theorem f64AddFin_of_ne_zero {s1 s2 : Bool} {e1 e2 : Int} (h : exactSum s1 m1 e1 s2 m2 e2 ≠ 0) :
    f64AddFin s1 m1 e1 s2 m2 e2 = f64Round (decide (exactSum s1 m1 e1 s2 m2 e2 < 0))
      (exactSum s1 m1 e1 s2 m2 e2).natAbs (min e1 e2) := if_neg h

theorem f64AddFin_nearestEven (s1 : Bool) (m1 : Nat) (e1 : Int) (s2 : Bool) (m2 : Nat) (e2 : Int) :
    NearestEven (f64AddFin s1 m1 e1 s2 m2 e2)
      ((signed s1 m1 : Rat) * 2 ^ e1 + (signed s2 m2 : Rat) * 2 ^ e2) := by
  rw [← exactSum_eq]
  by_cases h : exactSum s1 m1 e1 s2 m2 e2 = 0
  · rw [f64AddFin_of_zero h, h, Int.cast_zero, zero_mul]
    exact nearestEven_zero _
  · rw [f64AddFin_of_ne_zero h]
    exact f64Round_int_nearestEven _ _

theorem f64AddFin_zero {s1 s2 : Bool} {e1 e2 : Int}
    (h : (signed s1 m1 : Rat) * 2 ^ e1 + (signed s2 m2 : Rat) * 2 ^ e2 = 0) :
    f64AddFin s1 m1 e1 s2 m2 e2 = f64Word (s1 && s2) 0 := by
  rw [← exactSum_eq] at h
  have hpow : (2 : Rat) ^ min e1 e2 ≠ 0 := by positivity
  exact f64AddFin_of_zero (Int.cast_eq_zero.1 ((mul_eq_zero.1 h).resolve_right hpow))

theorem f64AddFin_comm (s1 : Bool) (m1 : Nat) (e1 : Int) (s2 : Bool) (m2 : Nat) (e2 : Int) :
    f64AddFin s1 m1 e1 s2 m2 e2 = f64AddFin s2 m2 e2 s1 m1 e1 := by
  simp only [f64AddFin, min_comm e1, Bool.and_comm s1, add_comm (signed s1 _)]

/-! ### Operations on finite words -/

theorem f64Add_fin {s1 s2 : Bool} {e1 e2 : Int} (hx : F64.unpack x = .fin s1 m1 e1)
    (hy : F64.unpack y = .fin s2 m2 e2) : f64Add x y = f64AddFin s1 m1 e1 s2 m2 e2 := by
  rw [f64Add, hx, hy]
  rfl

theorem f64Sub_fin {s1 s2 : Bool} {e1 e2 : Int} (hx : F64.unpack x = .fin s1 m1 e1)
    (hy : F64.unpack y = .fin s2 m2 e2) : f64Sub x y = f64AddFin s1 m1 e1 (!s2) m2 e2 := by
  rw [f64Sub, hx, hy]
  rfl

theorem f64Mul_fin {s1 s2 : Bool} {e1 e2 : Int} (hx : F64.unpack x = .fin s1 m1 e1)
    (hy : F64.unpack y = .fin s2 m2 e2) :
    f64Mul x y = f64Round (s1 != s2) (m1 * m2) (e1 + e2) := by
  rw [f64Mul, hx, hy]
  rfl

theorem signed_not (neg : Bool) (m : Nat) : (signed (!neg) m : Rat) = -signed neg m := by
  rw [signed_eq, signed_eq, sgn_not, neg_mul]

theorem f64Add_nearestEven (hx : f64Value x = some a) (hy : f64Value y = some b) :
    NearestEven (f64Add x y) (a + b) := by
  obtain ⟨m1, e1, hxfin, rfl⟩ := f64Value_eq_some.1 hx
  obtain ⟨m2, e2, hyfin, rfl⟩ := f64Value_eq_some.1 hy
  rw [f64Add_fin hxfin hyfin]
  exact f64AddFin_nearestEven _ _ _ _ _ _

theorem f64Add_of_sum_zero (hx : f64Value x = some a) (hy : f64Value y = some b) (h : a + b = 0) :
    f64Add x y = f64Zero (x.msb && y.msb) := by
  obtain ⟨m1, e1, hxfin, rfl⟩ := f64Value_eq_some.1 hx
  obtain ⟨m2, e2, hyfin, rfl⟩ := f64Value_eq_some.1 hy
  rw [f64Add_fin hxfin hyfin, f64AddFin_zero h, f64Zero_eq]

theorem f64Sub_nearestEven (hx : f64Value x = some a) (hy : f64Value y = some b) :
    NearestEven (f64Sub x y) (a - b) := by
  obtain ⟨m1, e1, hxfin, rfl⟩ := f64Value_eq_some.1 hx
  obtain ⟨m2, e2, hyfin, rfl⟩ := f64Value_eq_some.1 hy
  rw [f64Sub_fin hxfin hyfin, sub_eq_add_neg, ← neg_mul, ← signed_not]
  exact f64AddFin_nearestEven _ _ _ _ _ _

theorem f64Mul_nearestEven (hx : f64Value x = some a) (hy : f64Value y = some b) :
    NearestEven (f64Mul x y) (a * b) := by
  obtain ⟨m1, e1, hxfin, rfl⟩ := f64Value_eq_some.1 hx
  obtain ⟨m2, e2, hyfin, rfl⟩ := f64Value_eq_some.1 hy
  have hexact : (signed x.msb m1 : Rat) * 2 ^ e1 * ((signed y.msb m2 : Rat) * 2 ^ e2) =
      (signed (x.msb != y.msb) (m1 * m2) : Rat) * 2 ^ (e1 + e2) := by
    rw [signed_eq, signed_eq, signed_eq, sgn_bne, zpow_add₀ two_ne_zero]
    push_cast
    ring
  rw [f64Mul_fin hxfin hyfin, hexact]
  exact f64Round_nearestEven _ _ _

theorem msb_f64Mul (hx : f64Value x = some a) (hy : f64Value y = some b) :
    (f64Mul x y).msb = (x.msb != y.msb) := by
  obtain ⟨m1, e1, hxfin, rfl⟩ := f64Value_eq_some.1 hx
  obtain ⟨m2, e2, hyfin, rfl⟩ := f64Value_eq_some.1 hy
  rw [f64Mul_fin hxfin hyfin, msb_f64Round]

/-! ### Infinities and NaNs -/

/-- The free bits of a NaN cannot be read (entry 8), so a sum does not depend on the order. -/
theorem unpack_f64AddCore_comm (c d : BitVec 52) (v w : F64) :
    F64.unpack (f64AddCore (f64Nan c) v w) = F64.unpack (f64AddCore (f64Nan d) w v) := by
  cases v with
  | nan => cases w <;> simp only [f64AddCore, unpack_f64Nan]
  | inf p =>
    cases w with
    | nan => simp only [f64AddCore, unpack_f64Nan]
    | inf q =>
      by_cases hpq : p = q
      · simp only [f64AddCore, hpq, if_true]
      · simp only [f64AddCore, hpq, Ne.symm hpq, if_false, unpack_f64Nan]
    | fin => rfl
  | fin s1 m1 e1 =>
    cases w with
    | nan => simp only [f64AddCore, unpack_f64Nan]
    | inf => rfl
    | fin s2 m2 e2 => exact congrArg _ (f64AddFin_comm _ _ _ _ _ _)

theorem unpack_f64MulCore_comm (c d : BitVec 52) (v w : F64) :
    F64.unpack (f64MulCore (f64Nan c) v w) = F64.unpack (f64MulCore (f64Nan d) w v) := by
  cases v with
  | nan => cases w <;> simp only [f64MulCore, unpack_f64Nan]
  | inf p =>
    cases w with
    | nan => simp only [f64MulCore, unpack_f64Nan]
    | inf q => simp only [f64MulCore, bne_comm]
    | fin s m e =>
      by_cases hm : m = 0
      · simp only [f64MulCore, hm, if_true, unpack_f64Nan]
      · simp only [f64MulCore, hm, if_false, bne_comm]
  | fin s1 m1 e1 =>
    cases w with
    | nan => simp only [f64MulCore, unpack_f64Nan]
    | inf q =>
      by_cases hm : m1 = 0
      · simp only [f64MulCore, hm, if_true, unpack_f64Nan]
      · simp only [f64MulCore, hm, if_false, bne_comm]
    | fin s2 m2 e2 => simp only [f64MulCore, bne_comm, mul_comm, add_comm]

/-- A difference is the sum with the second sign turned (R210). -/
theorem unpack_f64Sub (x y : NumWord) :
    F64.unpack (f64Sub x y) = F64.unpack (f64Add x (y ^^^ f64Zero true)) := by
  rw [f64Sub, f64Add, unpack_xor_signBit, unpack_f64AddCore_comm _ 0, unpack_f64AddCore_comm 0]

theorem unpack_f64Add_nan (hx : F64.unpack x = .nan) : F64.unpack (f64Add x y) = .nan := by
  rw [f64Add, hx]
  exact unpack_f64Nan _

theorem unpack_f64Mul_nan (hx : F64.unpack x = .nan) : F64.unpack (f64Mul x y) = .nan := by
  rw [f64Mul, hx]
  exact unpack_f64Nan _

theorem unpack_f64Add_inf_opposite (hx : F64.unpack x = .inf p) (hy : F64.unpack y = .inf (!p)) :
    F64.unpack (f64Add x y) = .nan := by
  rw [f64Add, hx, hy, f64AddCore, if_neg (by cases p <;> decide), unpack_f64Nan]

theorem unpack_f64Add_inf (hx : F64.unpack x = .inf p)
    (hy : F64.unpack y = .inf p ∨ (f64Value y).isSome = true) : F64.unpack (f64Add x y) = .inf p := by
  rcases hy with hy | hy
  · rw [f64Add, hx, hy, f64AddCore, if_pos rfl, unpack_f64Word_inf]
  · obtain ⟨b, hb⟩ := Option.isSome_iff_exists.1 hy
    obtain ⟨m, e, hy, -⟩ := f64Value_eq_some.1 hb
    rw [f64Add, hx, hy, f64AddCore, unpack_f64Word_inf]

/-- A finite word has the value zero where its magnitude is zero. -/
theorem f64Value_eq_zero_iff (hy : F64.unpack y = .fin p m e) : f64Value y = some 0 ↔ m = 0 := by
  rw [f64Value_of_unpack hy, signed_eq, Option.some.injEq]
  cases p <;> simp [sgn, zpow_ne_zero]

theorem unpack_f64Mul_inf_zero (hx : F64.unpack x = .inf p) (hy : f64Value y = some 0) :
    F64.unpack (f64Mul x y) = .nan := by
  obtain ⟨m, e, hunpack, -⟩ := f64Value_eq_some.1 hy
  rw [f64Mul, hx, hunpack, f64MulCore, if_pos ((f64Value_eq_zero_iff hunpack).1 hy), unpack_f64Nan]

theorem unpack_f64Mul_inf (hx : F64.unpack x = .inf p) (hnan : F64.unpack y ≠ .nan)
    (hzero : f64Value y ≠ some 0) : F64.unpack (f64Mul x y) = .inf (p != y.msb) := by
  cases hy : F64.unpack y with
  | nan => exact absurd hy hnan
  | inf q => rw [f64Mul, hx, hy, f64MulCore, unpack_f64Word_inf, msb_of_unpack_inf hy]
  | fin s m e =>
    obtain ⟨rfl, -, -⟩ := bounds_of_unpack_fin hy
    rw [f64Mul, hx, hy, f64MulCore, if_neg (mt (f64Value_eq_zero_iff hy).2 hzero), unpack_f64Word_inf]

/-- Settles O43: the laws of the single operations, and `I2F 0` and `finite`. -/
theorem sumsAndProductsRoundToNearestEven : Obligations.SumsAndProductsRoundToNearestEven :=
  ⟨f64OfInt_nearestEven, rfl, f64Finite_eq,
    fun _ _ _ _ hx hy => ⟨f64Sub_nearestEven hx hy, f64Mul_nearestEven hx hy, f64Add_nearestEven hx hy,
      f64Add_of_sum_zero hx hy, msb_f64Mul hx hy⟩,
    unpack_f64Sub,
    fun _ _ => ⟨unpack_f64AddCore_comm _ _ _ _, unpack_f64MulCore_comm _ _ _ _,
      fun hx => ⟨unpack_f64Add_nan hx, unpack_f64Mul_nan hx⟩,
      fun _ hx => ⟨unpack_f64Add_inf_opposite hx, unpack_f64Add_inf hx, unpack_f64Mul_inf_zero hx,
        unpack_f64Mul_inf hx⟩⟩⟩

/-! ### Quotients -/

theorem f64Quotient_eq (m1 m2 : Nat) : f64Quotient m1 m2 =
    2 * (m1 * 2 ^ 120 / m2) + (if m1 * 2 ^ 120 % m2 = 0 then 0 else 1) := rfl

/-- A divisor of 53 bits leaves more than 54 bits of quotient. -/
theorem f64Quotient_large (h1 : m1 ≠ 0) (h2 : m2 ≠ 0) (hlt : m2 < 2 ^ 53) :
    2 ^ 54 ≤ f64Quotient m1 m2 := by
  have hdiv : 2 ^ 53 ≤ m1 * 2 ^ 120 / m2 := by
    rw [Nat.le_div_iff_mul_le (Nat.pos_of_ne_zero h2)]
    calc 2 ^ 53 * m2 ≤ 2 ^ 53 * 2 ^ 53 := Nat.mul_le_mul_left _ hlt.le
      _ ≤ 1 * 2 ^ 120 := by norm_num
      _ ≤ m1 * 2 ^ 120 := Nat.mul_le_mul_right _ (Nat.pos_of_ne_zero h1)
  rw [f64Quotient_eq]
  omega

/-- The last bit of the quotient says whether the division leaves anything. -/
theorem f64Quotient_standsFor (h1 : m1 ≠ 0) (h2 : m2 ≠ 0) (hlt : m2 < 2 ^ 53) :
    StandsFor (f64Quotient m1 m2) (2 * (m1 * 2 ^ 120 / m2)) := by
  have hlarge := f64Quotient_large h1 h2 hlt
  have hpos : (0 : Rat) < m2 := by exact_mod_cast Nat.pos_of_ne_zero h2
  have hdiv : (m2 : Rat) * (m1 * 2 ^ 120 / m2 : Nat) + (m1 * 2 ^ 120 % m2 : Nat) = m1 * 2 ^ 120 := by
    exact_mod_cast Nat.div_add_mod (m1 * 2 ^ 120) m2
  have hrem : ((m1 * 2 ^ 120 % m2 : Nat) : Rat) < m2 := by
    exact_mod_cast Nat.mod_lt _ (Nat.pos_of_ne_zero h2)
  have hexact : (m1 : Rat) * 2 ^ 120 / m2 =
      (m1 * 2 ^ 120 / m2 : Nat) + (m1 * 2 ^ 120 % m2 : Nat) / (m2 : Rat) := by
    rw [← hdiv, add_div, mul_div_cancel_left₀ _ hpos.ne']
  rw [hexact]
  by_cases hzero : m1 * 2 ^ 120 % m2 = 0
  · left
    rw [f64Quotient_eq, if_pos hzero, hzero, Nat.cast_zero, zero_div, add_zero, add_zero, Nat.cast_mul,
      Nat.cast_two]
  · right
    have hrem0 : (0 : Rat) < (m1 * 2 ^ 120 % m2 : Nat) / (m2 : Rat) :=
      div_pos (by exact_mod_cast Nat.pos_of_ne_zero hzero) hpos
    have hrem1 : ((m1 * 2 ^ 120 % m2 : Nat) : Rat) / m2 < 1 := (div_lt_one hpos).2 hrem
    rw [f64Quotient_eq, if_neg hzero] at hlarge ⊢
    refine ⟨hlarge, by omega, ?_, ?_⟩ <;> push_cast <;> linarith

/-- The exact quotient, as the number that `f64Quotient` stands for. -/
theorem exactQuotient_eq (s1 s2 : Bool) (m1 m2 : Nat) (e1 e2 : Int) :
    (signed s1 m1 : Rat) * 2 ^ e1 / ((signed s2 m2 : Rat) * 2 ^ e2) =
      sgn (s1 != s2) * (2 * (m1 * 2 ^ 120 / m2) * 2 ^ (e1 - e2 - 121)) := by
  have hsign : (sgn s2)⁻¹ = sgn s2 := by cases s2 <;> norm_num [sgn]
  have hpow : (2 : Rat) ^ (e1 - e2 - 121) = 2 ^ e1 / 2 ^ e2 / 2 ^ 121 := by
    rw [zpow_sub₀ two_ne_zero, zpow_sub₀ two_ne_zero]
    rfl
  rw [signed_eq, signed_eq, sgn_bne, hpow, mul_assoc (sgn s2), div_mul_eq_div_div,
    div_eq_mul_inv _ (sgn s2), hsign]
  ring

/-- A quotient of finite values by a nonzero one is a zero or one rounding, with the product of the
signs. -/
theorem f64Div_fin {s1 s2 : Bool} {e1 e2 : Int} (hx : F64.unpack x = .fin s1 m1 e1)
    (hy : F64.unpack y = .fin s2 m2 e2) (h2 : m2 ≠ 0) : f64Div x y =
      if m1 = 0 then f64Word (s1 != s2) 0
      else f64Round (s1 != s2) (f64Quotient m1 m2) (e1 - e2 - 121) := by
  rw [f64Div, hx, hy]
  exact if_neg h2

theorem f64Div_nearestEven (hx : f64Value x = some a) (hy : f64Value y = some b) (hb : b ≠ 0) :
    NearestEven (f64Div x y) (a / b) ∧ (f64Div x y).msb = (x.msb != y.msb) := by
  obtain ⟨m1, e1, hxfin, rfl⟩ := f64Value_eq_some.1 hx
  obtain ⟨m2, e2, hyfin, rfl⟩ := f64Value_eq_some.1 hy
  obtain ⟨-, hlt, -⟩ := bounds_of_unpack_fin hyfin
  have h2 : m2 ≠ 0 := fun hzero =>
    hb (Option.some.inj (hy.symm.trans ((f64Value_eq_zero_iff hyfin).2 hzero)))
  rw [f64Div_fin hxfin hyfin h2]
  split_ifs with h1
  · rw [signed_eq, h1, Nat.cast_zero, mul_zero, zero_mul, zero_div]
    exact ⟨nearestEven_zero _, msb_f64Word (by positivity)⟩
  · rw [exactQuotient_eq]
    have hlarge := f64Quotient_large h1 h2 hlt
    exact ⟨f64Round_nearestEven_of_standsFor (f64Quotient_standsFor h1 h2 hlt) (by omega) _ _,
      msb_f64Round _ _ _⟩

theorem unpack_f64Div_nan (h : F64.unpack x = .nan ∨ F64.unpack y = .nan) :
    F64.unpack (f64Div x y) = .nan := by
  rcases h with hx | hy
  · rw [f64Div, hx]
    exact unpack_f64Nan _
  · rw [f64Div, hy]
    cases F64.unpack x <;> exact unpack_f64Nan _

theorem unpack_f64Div_inf_inf {q : Bool} (hx : F64.unpack x = .inf p) (hy : F64.unpack y = .inf q) :
    F64.unpack (f64Div x y) = .nan := by
  rw [f64Div, hx, hy]
  exact unpack_f64Nan _

theorem unpack_f64Div_inf_fin (hx : F64.unpack x = .inf p) (hy : f64Value y = some b) :
    F64.unpack (f64Div x y) = .inf (p != y.msb) := by
  obtain ⟨m, e, hy, -⟩ := f64Value_eq_some.1 hy
  rw [f64Div, hx, hy]
  exact unpack_f64Word_inf _

theorem f64Div_fin_inf (hx : F64.unpack x = .inf p) (hy : f64Value y = some b) :
    f64Div y x = f64Zero (y.msb != p) := by
  obtain ⟨m, e, hy, -⟩ := f64Value_eq_some.1 hy
  rw [f64Div, hx, hy, f64Zero_eq]
  rfl

/-- Settles O44: the quotient keeps enough bits for one rounding; the rest is read off the operation. -/
theorem quotientsRoundToNearestEven : Obligations.QuotientsRoundToNearestEven :=
  ⟨fun _ _ _ _ hx hy hb => f64Div_nearestEven hx hy hb,
    fun _ _ => ⟨unpack_f64Div_nan, fun _ hx => ⟨fun _ hy => unpack_f64Div_inf_inf hx hy,
      fun _ hy => unpack_f64Div_inf_fin hx hy, fun _ hy => f64Div_fin_inf hx hy⟩⟩⟩

end Sys2Proof.Proofs.Binary64
end

section
/-! Reset, configuration and control (44_config_control.md), O2 to O7 and O9 to O11. Each event is named
updates of the state behind the guard of R230, so its frame is read off the updates. What `CFG.CHECK`
answers is the verdict of R235 and nothing else; `START` and `CFG.CHECK` run alone are read off that. -/

namespace Sys2Proof.Proofs.Control

open Sys2Proof Sys2Proof.Machine
open Sys2Proof.Proofs.Scope (exec_frame)
open Sys2Proof.Proofs.FrozenTables (sameConfig_refl)
open Sys2Proof.Proofs.FieldScale (setPort_writesNoRegister toOut_port_ok)
open Sys2Proof.Proofs.Completion (seeking_iff accepts_frame)

variable {s : State} {i v : Byte} {e : Entry} {r : Result} {o : Out} {acc : Bool}

/-! ### The events where they are accepted -/

theorem exec_cfgCrcWrite (hm : s.mode = .unconfigured) :
    exec (.cfgCrcWrite i v) s = .next (s.writeCrc i v) := if_pos hm

theorem exec_cfgParamPush (hm : s.mode = .unconfigured) : exec (.cfgParamPush e) s =
    .next (if s.np < s.params.maxFields then s.pushEntry e else s.setOverflow) := if_pos hm

theorem exec_readFrame (hm : s.mode = .run) (hf : s.fsm = .idle) :
    exec .readFrame s = .next s.beginAttempt := if_pos ⟨hm, hf⟩

theorem exec_ioerr (hm : s.mode = .run) (hf : s.fsm ≠ .idle) :
    exec .ioerr s = .next (s.takeOutcome (.frameSyncFailure s.fsm)) :=
  if_pos (by simp [State.inAttempt, hm, hf])

theorem exec_start (hm : s.mode = .unconfigured) (hr : cfgCheck s = .ok r) :
    exec .start s = .next (s.takeOutcome r) := by
  have hguard : exec .start s = toOut (do let r ← cfgCheck s; pure (s.takeOutcome r)) := if_pos hm
  rw [hguard, hr, ok_bind, pure_ok, toOut_ok]

theorem exec_cfgCheck (hr : cfgCheck s = .ok r) :
    exec .cfgCheck s = .next (s.setPort (.verdict r)) := toOut_port_ok hr .verdict

/-! ### Reset and the tables -/

/-- Settles O2: no guard stands before `RESET`; the records, the queue and the parameters are taken over,
and every other field is that of the reset state, whose arrays are empty. -/
theorem resetEventGivesResetValues : Obligations.ResetEventGivesResetValues := fun s =>
  ⟨s.toReset, rfl, rfl, rfl, rfl, fun _ => BitVec.getLsbD_zero, rfl, rfl, Memory.read_nil,
    Memory.read_nil, Memory.read_nil, rfl, rfl, rfl, rfl, Memory.read_nil, ⟨rfl, rfl⟩, rfl, rfl, rfl⟩

/-- Settles O3: one write of `T` and one mark in `TW`. -/
theorem crcWriteStoresOneEntry : Obligations.CrcWriteStoresOneEntry := by
  intro s i v hm
  refine ⟨s.writeCrc i v, exec_cfgCrcWrite hm, Memory.read_write_same _ _ _, ?written,
    fun j hj => ⟨Memory.read_write_other _ hj _, ?kept⟩, rfl, rfl, rfl, rfl, rfl, ⟨rfl, rfl⟩,
    ⟨rfl, rfl, rfl, rfl, rfl, rfl⟩, ⟨rfl, rfl⟩, ⟨rfl, rfl⟩⟩
  case written => simp [getLsbD_setWritten]
  case kept => simp [getLsbD_setWritten, hj]

/-- Settles O4: below `MAX_FIELDS` the entry is written at `NP`; at `MAX_FIELDS` the flag alone is. -/
theorem paramPushAppendsOrOverflows : Obligations.ParamPushAppendsOrOverflows := by
  intro s e hm
  refine ⟨_, exec_cfgParamPush hm, ?_⟩
  by_cases hroom : s.np < s.params.maxFields
  · simp only [if_pos hroom]
    exact ⟨⟨Memory.read_write_same _ _ _, fun k hk => Memory.read_write_other _ hk _, rfl, rfl⟩,
      rfl, rfl, rfl, rfl, ⟨rfl, rfl⟩, ⟨rfl, rfl, rfl, rfl, rfl, rfl⟩, ⟨rfl, rfl⟩, ⟨rfl, rfl⟩⟩
  · simp only [if_neg hroom]
    exact ⟨⟨rfl, rfl, rfl⟩, rfl, rfl, rfl, rfl, ⟨rfl, rfl⟩, ⟨rfl, rfl, rfl, rfl, rfl, rfl⟩,
      ⟨rfl, rfl⟩, ⟨rfl, rfl⟩⟩

/-! ### The load-time checks -/

/-- `MODE` after a `START` with the verdict `r` (R234). -/
def modeAfterStart : Result → Mode
  | .cfgOk _ => .run
  | _ => .halted

/-- Taking a verdict emits it and writes `MODE` (R234, R261); no other outcome is a verdict. -/
theorem takeOutcome_of_verdict (hv : ConfigVerdict s r) :
    s.takeOutcome r = (s.emitResult r).setMode (modeAfterStart r) := by
  cases r with
  | cfgOk | crcTableMissing | paramMalformed | divisionByZero => rfl
  | _ => exact hv.elim

/-- Where the entries below `NP` are there, some verdict holds; it is the answer of the check, so that no
other verdict holds. -/
theorem cfgCheck_eq_ok_iff (hnp : s.np ≤ s.params.maxFields)
    (hp : ∀ k, k < s.np → (s.p.read k).isSome = true) : cfgCheck s = .ok r ↔ ConfigVerdict s r := by
  refine ⟨fun hr => ?_, cfgCheck_of_verdict hnp⟩
  obtain ⟨r', hv⟩ := exists_verdict hp
  cases hr.symm.trans (cfgCheck_of_verdict hnp hv)
  exact hv

/-- Settles O5: the check answers the verdict, and taking it writes the record and `MODE`. -/
theorem startFollowsTheVerdict : Obligations.StartFollowsTheVerdict := by
  intro s r hm hnp hv
  have hexec := exec_start hm (cfgCheck_of_verdict hnp hv)
  rw [takeOutcome_of_verdict hv] at hexec
  exact ⟨_, hexec, rfl, rfl, rfl, rfl, rfl, rfl, rfl, rfl, rfl, ⟨rfl, rfl⟩,
    ⟨rfl, rfl, rfl, rfl, rfl, rfl⟩, ⟨rfl, rfl⟩⟩

/-- Settles O6: the check answers the verdict, and the port is all that is written. -/
theorem cfgCheckHandsBackTheVerdict : Obligations.CfgCheckHandsBackTheVerdict :=
  fun s _ hnp hv =>
    ⟨_, exec_cfgCheck (cfgCheck_of_verdict hnp hv), rfl, setPort_writesNoRegister s _⟩

/-- Settles O7: some verdict holds and is handed back; any verdict is the answer of the same check. -/
theorem configVerdictIsUnique : Obligations.ConfigVerdictIsUnique := by
  intro s hnp hp
  obtain ⟨v, hv⟩ := exists_verdict hp
  have hcheck := cfgCheck_of_verdict hnp hv
  refine ⟨_, v, exec_cfgCheck hcheck, rfl, fun r => ?_⟩
  rw [← cfgCheck_eq_ok_iff hnp hp, hcheck]
  simp

/-! ### Begin and failure of an attempt -/

/-- Settles O9: the frame data are dropped and `FSM` is written; an empty array reads nothing. -/
theorem readFrameStartsWithEmptyBuffers : Obligations.ReadFrameStartsWithEmptyBuffers :=
  fun s hm hf => ⟨s.beginAttempt, exec_readFrame hm hf, rfl, rfl, Memory.read_nil, rfl, rfl, rfl, rfl,
    Memory.read_nil, sameConfig_refl s, ⟨rfl, rfl⟩, ⟨rfl, rfl⟩⟩

/-- Settles O10: the record is emitted with `FSM` as it was, then `FSM` alone is written. -/
theorem ioErrorEndsTheAttempt : Obligations.IoErrorEndsTheAttempt :=
  fun s hm hf => ⟨_, exec_ioerr hm hf, rfl, rfl, rfl, rfl, sameConfig_refl s,
    ⟨rfl, rfl, rfl, rfl, rfl, rfl⟩, ⟨rfl, rfl⟩⟩

/-! ### Acceptance -/

/-- The answer is "no step" exactly where the input is not accepted; an accepted one may fault. -/
def RefusedUnless (acc : Bool) (o : Out) : Prop := o = .refused .noStep ↔ acc = false

theorem refusedUnless_guard {c : Prop} [Decidable c] (hacc : acc = true ↔ c)
    (h : o ≠ .refused .noStep) : RefusedUnless acc (if c then o else noStep) := by
  unfold RefusedUnless
  by_cases hc : c
  · rw [if_pos hc, hacc.2 hc]
    exact iff_of_false h nofun
  · rw [if_neg hc, Bool.eq_false_iff.2 (mt hacc.1 hc)]
    exact iff_of_true rfl rfl

/-- Outside `RUN` there is no sync search (R43 (a)), so that `FSM` alone tells it. -/
theorem seeking_iff_fsm_of_modeInv (h : ModeInv s) : s.seeking = true ↔ s.fsm = .seekSync := by
  obtain ⟨hidle, -⟩ := h
  refine seeking_iff.trans ⟨And.right, fun hf => ⟨by_contra fun hm => ?_, hf⟩⟩
  exact absurd (hf.symm.trans (hidle hm)) nofun

theorem exec_event_refusedUnless {i : Instr} (hi : i.fmt = .event) (s : State) :
    RefusedUnless (accepts s i) (exec i s) := by
  cases i with
  | reset => exact iff_of_false nofun nofun
  | cfgCrcWrite | cfgParamPush => exact refusedUnless_guard decide_eq_true_iff nofun
  | start => exact refusedUnless_guard decide_eq_true_iff (toOut_ne_refused _ _)
  | readFrame => exact refusedUnless_guard (by simp [accepts]) nofun
  | byte b => exact refusedUnless_guard Iff.rfl (toOut_ne_refused _ _)
  | ioerr => exact refusedUnless_guard Iff.rfl nofun
  | _ => cases hi

theorem exec_frame_refusedUnless {i : Instr} (hi : i.fmt = .frame) (s : State) :
    RefusedUnless (accepts s i) (exec i s) := by
  rw [exec_frame hi, accepts_frame hi]
  exact refusedUnless_guard Iff.rfl (toOut_ne_refused _ _)

theorem exec_byteRow_refusedUnless {i : Instr} (hi : i.fmt = .byte) (h : ModeInv s) :
    RefusedUnless (accepts s i) (exec i s) := by
  cases i with
  | seekSync => exact refusedUnless_guard (seeking_iff_fsm_of_modeInv h) nofun
  | seekSkip b =>
    exact refusedUnless_guard (by simp [accepts, seeking_iff_fsm_of_modeInv h]) nofun
  | _ => cases hi

/-- Settles O11: in each format the meaning is an answer other than "no step" behind one guard, and the
guard is the entry of the acceptance table. -/
theorem acceptanceTableIsExact : Obligations.AcceptanceTableIsExact := by
  rintro s i (hevent | hframe | ⟨hbyte, hmode⟩)
  · exact exec_event_refusedUnless hevent s
  · exact exec_frame_refusedUnless hframe s
  · exact exec_byteRow_refusedUnless hbyte hmode

end Sys2Proof.Proofs.Control
end

section
/-! Exceptions (60_exceptions.md), O13: the records that an event emits (R252) and their codes (R251). The
decode ends with one of the outcomes of an attempt, `CFG.CHECK` with a verdict. A `BYTE` emits exactly
where it ends the attempt, which only the data CRC byte does; of the other events only `START` and `IOERR`
take an outcome. -/

namespace Sys2Proof.Proofs.Exceptions

open Sys2Proof Sys2Proof.Machine
open Sys2Proof.Proofs.Scope (hdrCheck_cases bodyStore_cases)

variable {s t : State} {b : Byte} {r : Result} {i : Instr} {o : Out}

/-! ### The codes of outcomes -/

/-- The code of a record that ends an attempt (R251). -/
def IsFrameOutcome (r : Result) : Prop := (resultCode r).toNat ≤ 4

/-- The code of a record that answers a `START` (R251). -/
def IsLoadVerdict (r : Result) : Prop := 8 ≤ (resultCode r).toNat ∧ (resultCode r).toNat ≤ 11

theorem tgPtype_ends (h : tgPtype s = .ok (.ends r)) : r = .none := by
  obtain ⟨pt, -, h⟩ := bind_eq_ok.1 h
  split at h <;> cases h
  rfl

theorem tgTtype_ends (h : tgTtype s = .ok (.ends r)) : r = .none := by
  obtain ⟨tt, -, h⟩ := bind_eq_ok.1 h
  split at h <;> cases h
  rfl

theorem tgLguard_ends (h : tgLguard s = .ok (.ends r)) : ∃ pl, r = .unsupportedDataLength pl := by
  obtain ⟨pl, -, h⟩ := bind_eq_ok.1 h
  dsimp only at h
  split at h <;> cases h
  exact ⟨pl, rfl⟩

/-- A test that fails ends the decode with its record; past the last test there are measurements (R260). -/
theorem tgDecode_isFrameOutcome (h : tgDecode s = .ok r) : IsFrameOutcome r := by
  obtain ⟨_ | ends, htest, h⟩ := bind_eq_ok.1 h
  case ends => cases h; cases tgPtype_ends htest; exact Nat.zero_le 4
  obtain ⟨_ | ends, htest, h⟩ := bind_eq_ok.1 h
  case ends => cases h; cases tgTtype_ends htest; exact Nat.zero_le 4
  obtain ⟨_ | ends, htest, h⟩ := bind_eq_ok.1 h
  case ends => cases h; obtain ⟨pl, rfl⟩ := tgLguard_ends htest; simp [IsFrameOutcome, resultCode]
  obtain ⟨bits, -, h⟩ := bind_eq_ok.1 h
  obtain ⟨ms, -, h⟩ := bind_eq_ok.1 h
  cases h
  simp [IsFrameOutcome, resultCode]

theorem entryFault_isLoadVerdict {n : NumOps Num} {k : Nat} {p : Entry}
    (h : entryFault n k p = some r) : IsLoadVerdict r := by
  by_cases hsound : SoundEntry n p
  · by_cases hrange : p.rawMin = p.rawMax
    · cases (entryFault_degenerate hsound hrange).symm.trans h
      simp [IsLoadVerdict, resultCode]
    · exact absurd ((entryFault_none.2 ⟨hsound, hrange⟩).symm.trans h) nofun
  · cases (entryFault_malformed hsound).symm.trans h
    simp [IsLoadVerdict, resultCode]

theorem checkEntries_isLoadVerdict {k n : Nat} (h : checkEntries s k n = .ok (some r)) :
    IsLoadVerdict r := by
  induction n generalizing k with
  | zero => cases h
  | succ n ih =>
    obtain ⟨p, -, h⟩ := bind_eq_ok.1 h
    split at h
    next hfault => cases h; exact entryFault_isLoadVerdict hfault
    next => exact ih h

theorem cfgCheck_isLoadVerdict (h : cfgCheck s = .ok r) : IsLoadVerdict r := by
  unfold cfgCheck at h
  split at h
  next => cases h; simp [IsLoadVerdict, resultCode]
  split at h
  next => cases h; simp [IsLoadVerdict, resultCode]
  next =>
    obtain ⟨_ | r', hentries, h⟩ := bind_eq_ok.1 h
    · cases h; simp [IsLoadVerdict, resultCode]
    · cases h; exact checkEntries_isLoadVerdict hentries

/-! ### What a byte does to the attempt -/

/-- Nothing is emitted, and an attempt in progress stays so. -/
def GoesOn (s t : State) : Prop := t.results = s.results ∧ (s.fsm ≠ .idle → t.fsm ≠ .idle)

/-- An attempt was in progress, and ends with one record. -/
def EndsWith (r : Result) (s t : State) : Prop :=
  t.results = s.results ++ [r] ∧ s.fsm ≠ .idle ∧ t.fsm = .idle ∧ IsFrameOutcome r

/-- `HDR.CHECK` goes to the body or back to the sync search (R144). -/
theorem hdrCheck_goesOn (h : hdrCheck b s = .ok t) : GoesOn s t := by
  obtain ⟨pt, pl, ol, rfl⟩ | ⟨hdr, rfl⟩ := hdrCheck_cases h
  · exact ⟨rfl, fun _ => nofun⟩
  · exact ⟨rfl, fun _ => nofun⟩

/-- `BODY.CHECK` emits one `Result`: that of the decode, or `InvalidDataCrc` (R149). -/
theorem bodyCheck_emits (h : bodyCheck s = .ok t) :
    ∃ r, t.results = s.results ++ [r] ∧ IsFrameOutcome r := by
  simp only [bodyCheck, bind_eq_ok] at h
  obtain ⟨_, -, _, -, _, -, _, -, h⟩ := h
  split at h
  · simp only [bind_eq_ok, pure_ok, Except.ok.injEq] at h
    obtain ⟨_, -, _, -, _, -, _, -, r, hr, rfl⟩ := h
    exact ⟨r, rfl, tgDecode_isFrameOutcome hr⟩
  · cases h
    exact ⟨.invalidDataCrc, rfl, by simp [IsFrameOutcome, resultCode]⟩

theorem bodyStore_emits (hf : s.fsm ≠ .idle) (h : bodyStore b s = .ok t) :
    GoesOn s t ∨ ∃ r, EndsWith r s t := by
  obtain rfl | ⟨u, hu, rfl⟩ := bodyStore_cases h
  · exact .inl ⟨rfl, id⟩
  · obtain ⟨r, hresults, hr⟩ := bodyCheck_emits hu
    exact .inr ⟨r, hresults, hf, rfl, hr⟩

theorem byteStep_emits (h : byteStep b s = .ok t) : GoesOn s t ∨ ∃ r, EndsWith r s t := by
  unfold byteStep at h
  split at h
  case h_1 => cases h; exact .inl ⟨rfl, id⟩
  case h_2 =>
    split at h
    · cases h; exact .inl ⟨rfl, id⟩
    · cases h; exact .inl ⟨rfl, fun _ => nofun⟩
  case h_3 =>
    split at h
    · cases h; exact .inl ⟨rfl, id⟩
    · exact .inl (hdrCheck_goesOn h)
  case h_4 hf => exact bodyStore_emits (by simp [hf]) h

/-! ### The events -/

/-- An answer behind a guard of R230 is the answer where the guard holds. -/
theorem guard_eq_next {c : Prop} [Decidable c] :
    (if c then o else noStep) = .next t ↔ c ∧ o = .next t := by
  split
  next hc => simp [hc]
  next hc => simp [hc, noStep_ne_next]

theorem takeOutcome_results (r : Result) (s : State) :
    (s.takeOutcome r).results = s.results ++ [r] := by
  obtain h | h | h := takeOutcome_cases r s <;> rw [h] <;> rfl

theorem execStart_emits (h : exec .start s = .next t) :
    ∃ r, t.results = s.results ++ [r] ∧ IsLoadVerdict r := by
  obtain ⟨-, h⟩ := guard_eq_next.1 h
  obtain ⟨r, hr, h⟩ := bind_eq_ok.1 (toOut_eq_next.1 h)
  cases h
  exact ⟨r, takeOutcome_results r s, cfgCheck_isLoadVerdict hr⟩

/-- `IOERR` ends the attempt (R237); a `BYTE` may. -/
theorem exec_fromByteSource_emits (hsource : fromByteSource i = true) (h : exec i s = .next t) :
    GoesOn s t ∨ ∃ r, EndsWith r s t := by
  cases i with
  | byte b =>
    obtain ⟨-, h⟩ := guard_eq_next.1 h
    exact byteStep_emits (toOut_eq_next.1 h)
  | ioerr =>
    obtain ⟨hattempt, h⟩ := guard_eq_next.1 h
    cases h
    simp only [State.inAttempt, Bool.and_eq_true, decide_eq_true_eq] at hattempt
    obtain ⟨-, hf⟩ := hattempt
    exact .inr ⟨_, takeOutcome_results _ s, hf, rfl, by simp [IsFrameOutcome, resultCode]⟩
  | _ => cases hsource

/-- The configuration writes leave `FSM`; `READ_FRAME` begins an attempt. -/
theorem exec_host_goesOn (hi : i.fmt = .event) (hsource : fromByteSource i = false)
    (hreset : i ≠ .reset) (hstart : i ≠ .start) (h : exec i s = .next t) : GoesOn s t := by
  cases i with
  | reset => exact absurd rfl hreset
  | start => exact absurd rfl hstart
  | cfgCrcWrite k v =>
    obtain ⟨-, h⟩ := guard_eq_next.1 h
    cases h
    exact ⟨rfl, id⟩
  | cfgParamPush e =>
    obtain ⟨-, h⟩ := guard_eq_next.1 h
    cases h
    split
    · exact ⟨rfl, id⟩
    · exact ⟨rfl, id⟩
  | readFrame =>
    obtain ⟨-, h⟩ := guard_eq_next.1 h
    cases h
    exact ⟨rfl, fun _ => nofun⟩
  | byte | ioerr => cases hsource
  | _ => cases hi

/-- Settles O13: `START` emits its verdict, `RESET` nothing; an event of the byte source emits where it
ends the attempt, and no other event of the host does either. -/
theorem oneResultPerRequest : Obligations.OneResultPerRequest := by
  intro s t i hi h
  by_cases hstart : i = .start
  · subst hstart
    obtain ⟨r, hresults, hcode⟩ := execStart_emits h
    obtain ⟨hlower, hupper⟩ := hcode
    exact .inr ⟨r, hresults, .inl ⟨rfl, hlower, hupper⟩⟩
  by_cases hreset : i = .reset
  · subst hreset
    cases h
    exact .inl ⟨rfl, hstart, fun hne => absurd rfl hne⟩
  cases hsource : fromByteSource i with
  | true =>
    obtain ⟨hresults, hfsm⟩ | ⟨r, hresults, hbefore, hafter, hcode⟩ :=
      exec_fromByteSource_emits hsource h
    · exact .inl ⟨hresults, hstart, fun _ => hfsm⟩
    · exact .inr ⟨r, hresults, .inr ⟨rfl, hbefore, hafter, hcode⟩⟩
  | false =>
    obtain ⟨hresults, hfsm⟩ := exec_host_goesOn hi hsource hreset hstart h
    exact .inl ⟨hresults, hstart, fun _ => hfsm⟩

end Sys2Proof.Proofs.Exceptions
end

section
/-! Reset and hazards (70_reset_and_hazards.md), O8 and O59: what a `START` that ends in `RUN` guarantees
(R293), and that an attempt carries nothing over (R303). What was emitted before an attempt, the queue and
the port come back unchanged behind every byte step, so they can be taken away and put back; `IDX` is not
read before a sync byte sets it. -/

namespace Sys2Proof.Proofs.Hazards

open Sys2Proof Sys2Proof.Machine
open Sys2Proof.Proofs.Control (exec_readFrame takeOutcome_of_verdict)
open Sys2Proof.Proofs.Completion (exists_tableIs)
open Sys2Proof.Proofs.Invariant (configVerdict_of_cfgCheck)
open Sys2Proof.Proofs.Exceptions (guard_eq_next)

variable {s t u past : State} {b : Byte} {i : Instr} {is : List Instr} {r : Result} {n : BitVec 8}

/-! ### What a successful `START` guarantees -/

/-- The one verdict that leads to `RUN` is `CFG_OK` (R234). -/
theorem configGood_of_verdict_run (hv : ConfigVerdict s r) (hrun : (s.takeOutcome r).mode = .run) :
    ConfigGood s ∧ r = .cfgOk s.np := by
  rw [takeOutcome_of_verdict hv] at hrun
  cases r with
  | cfgOk n =>
    obtain ⟨hgood, rfl⟩ := hv
    exact ⟨hgood, rfl⟩
  | _ => cases hrun

/-- Settles O8: the verdict behind `RUN` is `CFG_OK`, and the table and the entries that it speaks of are
not written by taking it. -/
theorem startInRunGuaranteesTables : Obligations.StartInRunGuaranteesTables := by
  rintro s t ⟨hstorage, -⟩ h hrun
  obtain ⟨-, h⟩ := guard_eq_next.1 h
  obtain ⟨r, hr, h⟩ := bind_eq_ok.1 (toOut_eq_next.1 h)
  cases h
  obtain ⟨⟨hwritten, -, hentries⟩, rfl⟩ :=
    configGood_of_verdict_run (configVerdict_of_cfgCheck hstorage hr) hrun
  exact ⟨rfl, exists_tableIs hstorage hwritten, hentries⟩

/-! ### The past of an attempt

No operand is read from the past, register writes keep it, and records are emitted behind it. -/

/-- `s` behind the records that `past` has emitted, with the queue and the port of `past`. -/
def withPast (past s : State) : State :=
  { s with
    results := past.results ++ s.results, traces := past.traces ++ s.traces
    input := past.input, port := past.port }

@[simp] theorem withPast_t : (withPast past s).t = s.t := rfl
@[simp] theorem withPast_fsm : (withPast past s).fsm = s.fsm := rfl
@[simp] theorem withPast_idx : (withPast past s).idx = s.idx := rfl
@[simp] theorem inAttempt_withPast : (withPast past s).inAttempt = s.inAttempt := rfl
@[simp] theorem readHeader_withPast : (withPast past s).readHeader = s.readHeader := rfl
@[simp] theorem readBody_withPast : (withPast past s).readBody = s.readBody := rfl
@[simp] theorem readPlen_withPast : (withPast past s).readPlen = s.readPlen := rfl
@[simp] theorem readOlen_withPast : (withPast past s).readOlen = s.readOlen := rfl
@[simp] theorem readPtype_withPast : (withPast past s).readPtype = s.readPtype := rfl
@[simp] theorem readHcrc_withPast : (withPast past s).readHcrc = s.readHcrc := rfl
@[simp] theorem bodyLen_withPast : (withPast past s).bodyLen = s.bodyLen := rfl
@[simp] theorem headerCrc_withPast : headerCrc (withPast past s) = headerCrc s := rfl
@[simp] theorem tgDecode_withPast : tgDecode (withPast past s) = tgDecode s := rfl

@[simp] theorem setHcrc_withPast (b : Byte) :
    (withPast past s).setHcrc b = withPast past (s.setHcrc b) := rfl

@[simp] theorem incIdx_withPast : (withPast past s).incIdx = withPast past s.incIdx := rfl

@[simp] theorem frameEnd_withPast : frameEnd (withPast past s) = withPast past (frameEnd s) := rfl

@[simp] theorem bodyEnter_lenClamp_withPast (pl0 : BitVec 16) (ol0 : Byte) :
    bodyEnter (lenClamp pl0 ol0 (withPast past s)) = withPast past (bodyEnter (lenClamp pl0 ol0 s)) :=
  rfl

@[simp] theorem emitResult_withPast (r : Result) :
    (withPast past s).emitResult r = withPast past (s.emitResult r) := by
  simp [withPast, State.emitResult]

@[simp] theorem emitTrace_withPast (x : Trace) :
    (withPast past s).emitTrace x = withPast past (s.emitTrace x) := by
  simp [withPast, State.emitTrace]

@[simp] theorem rejectHeader_withPast (hdr : List Byte) :
    (withPast past s).rejectHeader hdr b = withPast past (s.rejectHeader hdr b) :=
  congrArg (·.setFsm .seekSync) (emitTrace_withPast _)

theorem takeOutcome_frameSyncFailure_withPast (f : Fsm) :
    (withPast past s).takeOutcome (.frameSyncFailure f) =
      withPast past (s.takeOutcome (.frameSyncFailure f)) :=
  congrArg (·.setFsm .idle) (emitResult_withPast _)

/-! ### The steps of an attempt -/

theorem hdrFields_withPast : hdrFields (withPast past s) =
    (fun x => (withPast past x.1, x.2)) <$> hdrFields s := by
  simp only [hdrFields, map_bind, pure_ok, Except.map_ok]
  rfl

theorem hdrCheck_withPast : hdrCheck b (withPast past s) = withPast past <$> hdrCheck b s := by
  simp only [hdrCheck, setHcrc_withPast, headerCrc_withPast, readHeader_withPast, map_bind]
  refine bind_congr fun c => ?_
  split
  · simp [hdrFields_withPast, map_bind]
  · simp [map_bind]

theorem bodyCheck_withPast : bodyCheck (withPast past s) = withPast past <$> bodyCheck s := by
  simp only [bodyCheck, bodyLen_withPast, readBody_withPast, withPast_t, map_bind]
  refine bind_congr fun l => bind_congr fun dataCrc => bind_congr fun body => bind_congr fun c => ?_
  split
  · simp [map_bind]
  · simp

theorem storeBody_withPast (k : Nat) :
    (withPast past s).storeBody k b = withPast past <$> s.storeBody k b := by
  unfold State.storeBody
  split <;> rfl

theorem bodyStore_withPast : bodyStore b (withPast past s) = withPast past <$> bodyStore b s := by
  simp only [bodyStore, bodyLen_withPast, withPast_idx, storeBody_withPast, bind_map_left, map_bind]
  refine bind_congr fun l => bind_congr fun t => ?_
  by_cases hmore : t.idx.toNat < l
  · simp [hmore]
  · simp [hmore, bodyCheck_withPast, map_bind]

theorem byteStep_withPast : byteStep b (withPast past s) = withPast past <$> byteStep b s := by
  unfold byteStep
  rw [withPast_fsm, withPast_idx]
  split
  case h_1 => rfl
  case h_2 => split <;> rfl
  case h_3 =>
    split
    · rfl
    · exact hdrCheck_withPast
  case h_4 => exact bodyStore_withPast

/-- The answer of a meaning, behind the past `past`. -/
def outWithPast (past : State) : Out → Out
  | .next s => .next (withPast past s)
  | .fault f => .fault f
  | .refused r => .refused r

theorem toOut_withPast (x : Except Fault State) :
    toOut (withPast past <$> x) = outWithPast past (toOut x) := by
  cases x <;> rfl

theorem exec_byte_eq (b : Byte) (s : State) :
    exec (.byte b) s = if s.inAttempt then toOut (byteStep b s) else noStep := rfl

theorem exec_ioerr_eq (s : State) : exec .ioerr s =
    if s.inAttempt then .next (s.takeOutcome (.frameSyncFailure s.fsm)) else noStep := rfl

theorem exec_withPast (hi : fromByteSource i = true) :
    exec i (withPast past s) = outWithPast past (exec i s) := by
  cases i with
  | byte b =>
    rw [exec_byte_eq, exec_byte_eq, inAttempt_withPast]
    split
    · rw [byteStep_withPast, toOut_withPast]
    · rfl
  | ioerr =>
    rw [exec_ioerr_eq, exec_ioerr_eq, inAttempt_withPast]
    split
    · exact congrArg Host.Outcome.next (takeOutcome_frameSyncFailure_withPast s.fsm)
    · rfl
  | _ => cases hi

/-- The events of the byte source do the same behind any past. -/
theorem runAll_withPast (his : ∀ i ∈ is, fromByteSource i = true) :
    runAll is (withPast past s) = outWithPast past (runAll is s) := by
  induction is generalizing s with
  | nil => rfl
  | cons i is ih =>
    obtain ⟨hi, his⟩ := List.forall_mem_cons.1 his
    simp only [runAll, exec_withPast hi]
    cases exec i s with
    | next t => exact ih his
    | fault f => rfl
    | refused r =>
      simp only [outWithPast]
      split
      · exact ih his
      · rfl

/-! ### `IDX` outside a frame -/

/-- `IDX <- n`, and `FSM` as it is. -/
def setIdx (n : BitVec 8) (s : State) : State := s.setPos s.fsm n

@[simp] theorem setIdx_fsm : (setIdx n s).fsm = s.fsm := rfl
@[simp] theorem inAttempt_setIdx : (setIdx n s).inAttempt = s.inAttempt := rfl

/-- Outside a frame the sync byte sets `IDX` whatever it was (R142), and any other byte leaves the state
as it is (R141). -/
theorem byteStep_setIdx (hf : s.inFrame = false) :
    byteStep b (setIdx n s) = byteStep b s ∨
      (byteStep b s = .ok s ∧ byteStep b (setIdx n s) = .ok (setIdx n s)) := by
  unfold byteStep
  rw [setIdx_fsm]
  split
  case h_1 => exact .inr ⟨rfl, rfl⟩
  case h_2 =>
    split
    · exact .inr ⟨rfl, rfl⟩
    · exact .inl rfl
  case h_3 hs => simp [State.inFrame, hs] at hf
  case h_4 hs => simp [State.inFrame, hs] at hf

/-- `IOERR` outside a frame ends the attempt and leaves `IDX` (R237). -/
theorem exec_setIdx (hi : fromByteSource i = true) (hf : s.inFrame = false) :
    exec i (setIdx n s) = exec i s ∨
      ∃ t, t.inFrame = false ∧ exec i s = .next t ∧ exec i (setIdx n s) = .next (setIdx n t) := by
  cases i with
  | byte b =>
    rw [exec_byte_eq, exec_byte_eq, inAttempt_setIdx]
    split
    · obtain heq | ⟨hstep, hstep'⟩ := byteStep_setIdx (b := b) (n := n) hf
      · exact .inl (congrArg toOut heq)
      · exact .inr ⟨s, hf, congrArg toOut hstep, congrArg toOut hstep'⟩
    · exact .inl rfl
  | ioerr =>
    rw [exec_ioerr_eq, exec_ioerr_eq, inAttempt_setIdx]
    split
    · exact .inr ⟨_, rfl, rfl, rfl⟩
    · exact .inl rfl
  | _ => cases hi

/-- Outside a frame nothing depends on `IDX`, apart from `IDX` itself. -/
theorem runAll_setIdx (his : ∀ i ∈ is, fromByteSource i = true) (hf : s.inFrame = false)
    (h : runAll is s = .next u) : ∃ m, runAll is (setIdx n s) = .next (setIdx m u) := by
  induction is generalizing s with
  | nil =>
    cases h
    exact ⟨n, rfl⟩
  | cons i is ih =>
    obtain ⟨hi, his⟩ := List.forall_mem_cons.1 his
    rw [runAll] at h ⊢
    obtain heq | ⟨t, ht, hexec, heq⟩ := exec_setIdx (n := n) hi hf
    · rw [heq]
      cases hexec : exec i s with
      | next t =>
        rw [hexec] at h
        exact ⟨u.idx, h⟩
      | fault f =>
        rw [hexec] at h
        cases h
      | refused r =>
        simp only [hexec] at h ⊢
        split at h
        next hr => rw [if_pos hr]; exact ih his hf h
        next => cases h
    · rw [heq]
      rw [hexec] at h
      exact ih his ht h

/-! ### The attempt -/

/-- The attempt that `READ_FRAME` begins, behind no past. -/
def freshAttempt (s : State) : State :=
  { s.beginAttempt with results := [], traces := [], input := [], port := none }

theorem beginAttempt_eq (s : State) : s.beginAttempt = withPast s (freshAttempt s) := by
  simp [withPast, freshAttempt, State.beginAttempt, State.dropFrame, State.setFsm]

theorem freshAttempt_eq_of_sameConfig {s₁ s₂ : State} (h : SameConfig s₁ s₂) :
    freshAttempt s₂ = setIdx s₂.idx (freshAttempt s₁) := by
  obtain ⟨hmode, ht, htw, hp, hnp, hpovf, hparams⟩ := h
  simp [freshAttempt, setIdx, State.beginAttempt, State.dropFrame, State.setFsm, State.setPos, *]

theorem runAll_readFrame (hm : s.mode = .run) (hf : s.fsm = .idle)
    (his : ∀ i ∈ is, fromByteSource i = true) :
    runAll (.readFrame :: is) s = outWithPast s (runAll is (freshAttempt s)) := by
  rw [runAll, exec_readFrame hm hf, beginAttempt_eq]
  exact runAll_withPast his

theorem outWithPast_eq_next {o : Out} :
    outWithPast past o = .next u ↔ ∃ t, o = .next t ∧ withPast past t = u := by
  cases o <;> simp [outWithPast]

/-- Settles O59: the two attempts differ in `IDX` and in their pasts, and so do their ends. -/
theorem noCarryOverBetweenAttempts : Obligations.NoCarryOverBetweenAttempts := by
  intro s₁ s₂ is u₁ hconfig hm hf₁ hf₂ his h
  rw [runAll_readFrame hm hf₁ his, outWithPast_eq_next] at h
  obtain ⟨u, hu, rfl⟩ := h
  obtain ⟨m, hm₂⟩ := runAll_setIdx (n := s₂.idx) his rfl hu
  rw [← freshAttempt_eq_of_sameConfig hconfig] at hm₂
  obtain ⟨hmode, -⟩ := hconfig
  refine ⟨withPast s₂ (setIdx m u), u.results, u.traces, ?_, rfl, rfl, rfl, rfl, rfl⟩
  rw [runAll_readFrame (hmode.trans hm) hf₂ his, hm₂]
  rfl

end Sys2Proof.Proofs.Hazards
end
